-- ==== Sys2Proof/Word.lean ====
section
/-! DEFINITION. The byte and the byte string (00_scope.md section 5). Every other quantity of this block is a natural
number without a width (decision D3). -/

namespace Sys2Proof

/-- A byte: 8 bits, bit 7 the most significant. -/
abbrev Byte := BitVec 8

/-- A byte string; offset 0 is the head of the list. -/
abbrev Bytes := List Byte

end Sys2Proof
end

