-- ==== Sys2Proof/Syntax.lean ====
section
/-! DEFINITION. What the host can name at the port: the ten commands of 30_encoding.md R72 and the twelve wire-format
bytes of R61 to R68, one constructor of `Instr` for each row of spec/opcode_table.json; and the port's words. -/

namespace Sys2Proof

/-- An Entry, a name/value pair of byte strings (R13, R150). -/
structure Entry where
  name : Bytes
  value : Bytes
  deriving DecidableEq, Repr

/-- One constructor per row of the opcode table. A command carries its operands as values (R8, R72), legal or not: an
operand outside its range has a meaning, the fault `IllegalOperand` (R74). A wire-format byte carries the fields of its
eight bits; the bytes that follow it are read from the input byte string at the cursor. -/
inductive Instr where
  /-- IENC `value, N, tag` (R92). -/
  | ienc (value n tag : Nat)
  /-- IDEC `in, pos, N` (R95). -/
  | idec (inp : Bytes) (pos n : Nat)
  /-- HENC `s` (R111). -/
  | henc (str : Bytes)
  /-- HDEC `in` (R119). -/
  | hdec (inp : Bytes)
  /-- DFIND `name, value` (R155). -/
  | dfind (name value : Bytes)
  /-- DFINDN `name` (R156). -/
  | dfindn (name : Bytes)
  /-- DGET `index` (R157). -/
  | dget (index : Nat)
  /-- DPUSH `name, value` (R158). -/
  | dpush (name value : Bytes)
  /-- DSHRINK `limit` (R159). -/
  | dshrink (limit : Nat)
  /-- DSETMAX `v` (R160). -/
  | dsetmax (v : Nat)
  /-- `1iiiiiii`, Indexed Header Field (R65, R204). -/
  | repIndexed (pfx : BitVec 7)
  /-- `01iiiiii`, Literal with Incremental Indexing (R66, R205). -/
  | repLitInc (pfx : BitVec 6)
  /-- `001vvvvv`, Dynamic Table Size Update (R67, R206). -/
  | repSizeUpd (pfx : BitVec 5)
  /-- `0001iiii`, Literal Never Indexed (R66, R207). -/
  | repLitNever (pfx : BitVec 4)
  /-- `0000iiii`, Literal without Indexing (R66, R207). -/
  | repLitNoIdx (pfx : BitVec 4)
  /-- `1lllllll`, string literal with a Huffman-coded body (R63, R191). -/
  | strHuff (pfx : BitVec 7)
  /-- `0lllllll`, string literal with a raw body (R63, R191). -/
  | strRaw (pfx : BitVec 7)
  /-- `ttttpppp`, first byte of an INT with N = 4 (R61, R95). -/
  | intFirstN4 (tag : BitVec 4) (pfx : BitVec 4)
  /-- `tttppppp`, first byte of an INT with N = 5. -/
  | intFirstN5 (tag : BitVec 3) (pfx : BitVec 5)
  /-- `ttpppppp`, first byte of an INT with N = 6. -/
  | intFirstN6 (tag : BitVec 2) (pfx : BitVec 6)
  /-- `tppppppp`, first byte of an INT with N = 7. -/
  | intFirstN7 (tag : BitVec 1) (pfx : BitVec 7)
  /-- `cggggggg`, continuation byte of an INT (R61, R95). -/
  | intCont (c : BitVec 1) (group : BitVec 7)
  deriving DecidableEq, Repr

/-- The five representations a first byte selects, with the prefix of their INT (R64, R68). -/
inductive Rep where
  | indexed (pfx : BitVec 7)
  | litInc (pfx : BitVec 6)
  | sizeUpd (pfx : BitVec 5)
  | litNever (pfx : BitVec 4)
  | litNoIdx (pfx : BitVec 4)
  deriving DecidableEq, Repr

/-- The wire formats in which one byte can be read. The same eight bits mean different things in different formats
(R60), so a byte is decoded only together with its format. -/
inductive Format where
  | rep
  | str
  | int4
  | int5
  | int6
  | int7
  | cont
  deriving DecidableEq, Repr

/-- The operand values that accompany a command code (R72). `str1` carries `in`, `s` or `name`, `str2` carries DFIND's
and DPUSH's `value`, `value` carries IENC's `value`, DGET's `index`, DSHRINK's `limit` and DSETMAX's `v`. The values
given here are what an operand the host does not name is taken as: naturals 0, strings empty, N its least legal value. -/
structure Operands where
  value : Nat := 0
  n : Nat := 4
  tag : Nat := 0
  pos : Nat := 0
  str1 : Bytes := []
  str2 : Bytes := []
  deriving DecidableEq, Repr

/-- What the decoder is given: a command code with its operands, or one byte of a wire format. -/
inductive PortWord where
  | cmd (code : Byte) (ops : Operands)
  | wire (fmt : Format) (b : Byte)
  deriving DecidableEq, Repr

/-- Why the decoder gives no instruction: the code is not one of R72's ten. -/
inductive DecodeError where
  | unknownCommand (code : Byte)
  deriving DecidableEq, Repr

end Sys2Proof
end

