-- ==== Sys2Proof/Decode.lean ====
section
/-! DEFINITION. The decoder and the encoder of the port's words: command codes (30_encoding.md R72) and the bit fields of
the wire-format bytes (R61, R63 to R68). -/

namespace Sys2Proof

/-- R72's table of command codes; any other code is refused by name (R74). -/
def decodeCmd (code : Byte) (ops : Operands) : Except DecodeError Instr :=
  match code.toNat with
  | 0x01 => .ok (.ienc ops.value ops.n ops.tag)
  | 0x02 => .ok (.idec ops.str1 ops.pos ops.n)
  | 0x03 => .ok (.henc ops.str1)
  | 0x04 => .ok (.hdec ops.str1)
  | 0x10 => .ok (.dfind ops.str1 ops.str2)
  | 0x11 => .ok (.dfindn ops.str1)
  | 0x12 => .ok (.dget ops.value)
  | 0x13 => .ok (.dpush ops.str1 ops.str2)
  | 0x14 => .ok (.dshrink ops.value)
  | 0x15 => .ok (.dsetmax ops.value)
  | _ => .error (.unknownCommand code)

/-- The representation a first byte selects: the tests are made from bit 7 down and need no default (R68, R203). -/
def decodeRep (b : Byte) : Rep :=
  if b.getLsbD 7 then .indexed (b.extractLsb' 0 7)
  else if b.getLsbD 6 then .litInc (b.extractLsb' 0 6)
  else if b.getLsbD 5 then .sizeUpd (b.extractLsb' 0 5)
  else if b.getLsbD 4 then .litNever (b.extractLsb' 0 4)
  else .litNoIdx (b.extractLsb' 0 4)

/-- The instruction that a representation's first byte is. -/
def Rep.toInstr : Rep → Instr
  | .indexed p => .repIndexed p
  | .litInc p => .repLitInc p
  | .sizeUpd p => .repSizeUpd p
  | .litNever p => .repLitNever p
  | .litNoIdx p => .repLitNoIdx p

/-- One byte read in a given wire format: every byte is an instruction of that format (R61, R63, R68). -/
def decodeWire (fmt : Format) (b : Byte) : Instr :=
  match fmt with
  | .rep => (decodeRep b).toInstr
  | .str => if b.getLsbD 7 then .strHuff (b.extractLsb' 0 7) else .strRaw (b.extractLsb' 0 7)
  | .int4 => .intFirstN4 (b.extractLsb' 4 4) (b.extractLsb' 0 4)
  | .int5 => .intFirstN5 (b.extractLsb' 5 3) (b.extractLsb' 0 5)
  | .int6 => .intFirstN6 (b.extractLsb' 6 2) (b.extractLsb' 0 6)
  | .int7 => .intFirstN7 (b.extractLsb' 7 1) (b.extractLsb' 0 7)
  | .cont => .intCont (b.extractLsb' 7 1) (b.extractLsb' 0 7)

/-- The decoder: total, and it refuses only an unknown command code. -/
def decode (w : PortWord) : Except DecodeError Instr :=
  match w with
  | .cmd code ops => decodeCmd code ops
  | .wire fmt b => .ok (decodeWire fmt b)

/-- The port's word of an instruction: R72's codes, R61's and R63 to R67's bit patterns. -/
def encode : Instr → PortWord
  | .ienc value n tag => .cmd 0x01 { value := value, n := n, tag := tag }
  | .idec inp pos n => .cmd 0x02 { str1 := inp, pos := pos, n := n }
  | .henc str => .cmd 0x03 { str1 := str }
  | .hdec inp => .cmd 0x04 { str1 := inp }
  | .dfind name value => .cmd 0x10 { str1 := name, str2 := value }
  | .dfindn name => .cmd 0x11 { str1 := name }
  | .dget index => .cmd 0x12 { value := index }
  | .dpush name value => .cmd 0x13 { str1 := name, str2 := value }
  | .dshrink limit => .cmd 0x14 { value := limit }
  | .dsetmax v => .cmd 0x15 { value := v }
  | .repIndexed p => .wire .rep ((1#1 : BitVec 1) ++ p)
  | .repLitInc p => .wire .rep ((1#2 : BitVec 2) ++ p)
  | .repSizeUpd p => .wire .rep ((1#3 : BitVec 3) ++ p)
  | .repLitNever p => .wire .rep ((1#4 : BitVec 4) ++ p)
  | .repLitNoIdx p => .wire .rep ((0#4 : BitVec 4) ++ p)
  | .strHuff p => .wire .str ((1#1 : BitVec 1) ++ p)
  | .strRaw p => .wire .str ((0#1 : BitVec 1) ++ p)
  | .intFirstN4 t p => .wire .int4 (t ++ p)
  | .intFirstN5 t p => .wire .int5 (t ++ p)
  | .intFirstN6 t p => .wire .int6 (t ++ p)
  | .intFirstN7 t p => .wire .int7 (t ++ p)
  | .intCont c g => .wire .cont (c ++ g)

/-- A code is one of R72's ten. -/
def isCommandCode (b : Byte) : Bool :=
  (1 ≤ b.toNat && b.toNat ≤ 4) || (0x10 ≤ b.toNat && b.toNat ≤ 0x15)

/-- How an eight-bit row of the opcode table is read when nothing but its bits is given: a byte that is a command code
is that command with the operands of `Operands`' defaults; any other byte is the first byte of a representation (log
entry 4: the table's rows overlap, and the space they belong to is not in their bits). -/
def tableWord (w : Nat) : PortWord :=
  let b := BitVec.ofNat 8 w
  if isCommandCode b then .cmd b {} else .wire .rep b

/-- The decoder on an opcode-table row's bits. Every row has eight bits. -/
def decodeTableWord (nbits w : Nat) : Option Instr :=
  if nbits = 8 then
    match decode (tableWord w) with
    | .ok i => some i
    | .error _ => none
  else none

end Sys2Proof
end

