-- ==== Sys2Proof/Config.lean ====
section
/-! DEFINITION. What an implementation fixes (00_scope.md R6). The three OPEN numbers are opaque constants without a
body, so that nothing proved about the model rests on a value of theirs; they are written so that every choice of the
opaque constants gives a legal build (`INT_MAX >= 127`, `DD_MAX_INIT <= DD_LIMIT`) and every legal build is one. -/

namespace Sys2Proof

/-- How far `INT_MAX` lies above its least legal value 127. OPEN, no body (log entry 5). -/
opaque Config.intMaxSlack : Nat

/-- `DD_MAX_INIT`, the value of `DD_MAX` after reset. OPEN, no body (log entry 5). -/
opaque Config.ddMaxInit : Nat

/-- How far `DD_LIMIT` lies above `DD_MAX_INIT`. OPEN, no body (log entry 5). -/
opaque Config.ddLimitSlack : Nat

/-- `INT_MAX`, the largest value IDEC may deliver. -/
def Config.intMax : Nat := 127 + Config.intMaxSlack

/-- `DD_LIMIT`, the locally agreed maximum of `DD_MAX`. -/
def Config.ddLimit : Nat := Config.ddMaxInit + Config.ddLimitSlack

/-- One row of `HUFF_ROM`: length and code of a symbol (R140, R141). -/
structure HuffRow where
  len : Nat
  code : Nat
  deriving DecidableEq, Repr

/-- One row of `HDEC_ROM`: the code left-justified in 32 bits, the byte symbol, the code's length (R142). -/
structure DecRow where
  aligned : Nat
  symbol : Nat
  len : Nat
  deriving DecidableEq, Repr

/-- The parameters the units' rules use (R6). The operations take them as an argument, so that the spec's test vectors,
which need particular numbers, can be evaluated; the machine runs with `Machine.params`. -/
structure Params where
  /-- `INT_MAX`. -/
  intMax : Nat
  /-- `DD_LIMIT`. -/
  ddLimit : Nat
  /-- `HUFF_ROM`, symbols 0 to 256 in order. -/
  huffRom : List HuffRow
  /-- `HDEC_ROM`, positions 0 to 255 in order. -/
  hdecRom : List DecRow
  /-- `STATIC_ROM`, indices 1 to 61 in order. -/
  staticRom : List Entry
  deriving DecidableEq, Repr

end Sys2Proof
end

