-- ==== Sys2Proof/Machine/State.lean ====
section
/-! DEFINITION. The state of one instance of the block together with its host (10_state.md R10 to R30), the faults the
model stops with, and the state after reset. -/

namespace Sys2Proof.Machine

/-- The value of `FLT` (60_exceptions.md R231, codes 0 to 8 in this order). -/
inductive FaultCode where
  | noFault
  | truncated
  | invalidIndex
  | integerOverflow
  | sizeUpdateRange
  | huffmanInvalid
  | illegalOperand
  | illegalCommand
  | undrained
  deriving DecidableEq, Repr

/-- `FINFO = (off, need, have)` (R19, R236); `avail` is the spec's `have`. -/
structure FInfo where
  off : Nat
  need : Nat
  avail : Nat
  deriving DecidableEq, Repr

/-- A fault as it is raised, recorded and reported: code and context. -/
structure FaultRec where
  code : FaultCode
  info : FInfo
  deriving DecidableEq, Repr

/-- The result of IDEC (R95). -/
structure IntResult where
  value : Nat
  tag : Nat
  consumed : Nat
  deriving DecidableEq, Repr

/-- A decoded header field with the never-indexed flag (R203, R207). -/
structure Field where
  name : Bytes
  value : Bytes
  never : Bool
  deriving DecidableEq, Repr

/-- One pair of ENCODE's operand, with the value of the host's `sensitive` predicate for it (R200, R201). -/
structure Header where
  name : Bytes
  value : Bytes
  sensitive : Bool
  deriving DecidableEq, Repr

/-- The result part of a response (R72, R78). -/
inductive Result where
  /-- No result: DPUSH, DSHRINK, DSETMAX, FEED, DRAIN, EOF. -/
  | unit
  /-- IENC, HENC, HDEC, STRENC, HFENC, ENCODE. -/
  | bytes (out : Bytes)
  /-- IDEC, and the byte that completes an integer. -/
  | int (r : IntResult)
  /-- A byte of an integer that is not its last: continuation bytes follow (R61). The spec has no response to
  part of an IDEC: DESIGN CHOICE (log entry 23). -/
  | more
  /-- DFIND, DFINDN: an index, or 0. -/
  | index (i : Nat)
  /-- DGET. -/
  | entry (e : Entry)
  /-- STRDEC: the string and the next offset. -/
  | str (s : Bytes) (newpos : Nat)
  /-- HFDEC: the field, absent for a size update, and the next offset. -/
  | rep (field : Option Field) (newpos : Nat)
  deriving DecidableEq, Repr

/-- The response at the port (R73). `idle`: none has been given since reset. -/
inductive Response where
  | idle
  | ok (r : Result)
  | fault (e : FaultRec)
  deriving DecidableEq, Repr

/-- The host decoder's phase (R26, R213). -/
inductive RxState where
  | idle
  | feeding
  | draining
  deriving DecidableEq, Repr

/-- What the host can present (R7, R72, R73, R78, R235, R260). -/
inductive Request where
  /-- A command code with its operands. -/
  | cmd (code : Byte) (ops : Operands)
  /-- One wire-format element, read at the cursor; with `some (in, pos)` the host first supplies that input byte string
  and offset. `wire .str (some (in, pos))` is STRDEC `in, pos`; `wire .rep (some (in, pos))` is HFDEC `in, pos`. -/
  | wire (fmt : Format) (src : Option (Bytes × Nat))
  /-- STRENC `s` (R190). -/
  | strenc (s : Bytes)
  /-- HFENC `name, value, sensitive` (R200). -/
  | hfenc (h : Header)
  /-- ENCODE `headers, sensitive` (R201). -/
  | encode (hs : List Header)
  /-- FEED `bytes` (R210). -/
  | feed (bs : Bytes)
  /-- DRAIN (R211); its callback's invocations are recorded in `State.delivered`. -/
  | drain
  /-- EOF (R212). -/
  | eof
  /-- The host posts a fault of its own (R235). -/
  | post (e : FaultRec)
  /-- The reset input (R260). -/
  | reset
  deriving DecidableEq, Repr

/-- The model's own stops. A fault of the block is not one of them: it is taken, as a next state (R232). -/
inductive Fault where
  /-- Raised by INT.CONT when no integer is in progress: R61 has continuation bytes only after a prefix of all ones, and
  R30 forbids reading the working registers before they are initialised. Safe: the model stops (log entry 8). -/
  | strayContinuation
  /-- Raised by the port when a wire-format request brings no input byte string and there is no cursor of an earlier one
  to go on at: R30 forbids reading the cursor before it is initialised, R24 reading what another command left in it. Safe:
  the model stops (log entry 22). -/
  | noCursor
  /-- Raised by the port when HFDEC is asked for at an offset with no byte: R203 makes `pos < |in|` the caller's duty
  and gives no outcome. Safe: the model stops (log entry 9). -/
  | pastEndOfInput
  deriving DecidableEq, Repr

/-- An instruction the model gives no meaning. -/
inductive Refusal where
  /-- Raised by an arm of `exec` that is not written yet; none is left. Safe. -/
  | notModelled (mnemonic : String)
  deriving DecidableEq, Repr

/-- One instance of the block and its host. -/
structure State where
  /-- `DD_ENT`, newest first (R13). -/
  ddEnt : List Entry
  /-- `DD_TOTAL` (R14). -/
  ddTotal : Nat
  /-- `DD_MAX` (R15). -/
  ddMax : Nat
  /-- `FLT` (R18). -/
  flt : FaultCode
  /-- `FINFO` (R19). -/
  finfo : FInfo
  /-- `HE_ACC` (R21), hidden. -/
  heAcc : BitVec 32
  /-- `HE_CNT` (R21), hidden. -/
  heCnt : Nat
  /-- `HD_WIN` (R22), hidden. -/
  hdWin : BitVec 64
  /-- `HD_CNT` (R22), hidden. -/
  hdCnt : Nat
  /-- `HD_POS` (R22), hidden. -/
  hdPos : Nat
  /-- `ID_VAL` (R23), hidden. -/
  idVal : Nat
  /-- `ID_I` (R23), hidden. -/
  idI : Nat
  /-- R95's local `tag`, kept between the bytes of an integer. The model's own. -/
  idTag : Nat
  /-- An integer is in progress: its next byte is a continuation byte. The model's own. -/
  idBusy : Bool
  /-- The input byte string of the command in progress (R40, R44), hidden. -/
  inp : Bytes
  /-- The byte cursor `pos` (R12, R23), hidden. -/
  pos : Nat
  /-- `inp` and `pos` were supplied by a wire-format request and stand where wire-format bytes left them, so that the next
  one can go on there (log entry 22). The model's own. -/
  cursorLive : Bool
  /-- `RX_BUF` of the host's decoder (R26). -/
  rxBuf : Bytes
  /-- `RX_STATE` of the host's decoder (R26, R213). -/
  rxState : RxState
  /-- The fields handed to DRAIN's callback so far, in order (R211). The model's own. -/
  delivered : List Field
  /-- The last response (R73). The model's own. -/
  resp : Response
  /-- The requests the host will present, oldest first. The model's own. -/
  port : List Request
  deriving DecidableEq, Repr

/-- The state after reset (R30, R260). The hidden working registers and the model's own fields have no reset value in
the spec; theirs are named in log entries 1, 2, 7, 11 and 22. -/
def State.reset : State where
  ddEnt := []
  ddTotal := 0
  ddMax := Config.ddMaxInit
  flt := .noFault
  finfo := ⟨0, 0, 0⟩
  heAcc := 0
  heCnt := 0
  hdWin := 0
  hdCnt := 0
  hdPos := 0
  idVal := 0
  idI := 0
  idTag := 0
  idBusy := false
  inp := []
  pos := 0
  cursorLive := false
  rxBuf := []
  rxState := .idle
  delivered := []
  resp := .idle
  port := []

end Sys2Proof.Machine
end

