-- ==== Sys2Proof/Machine/Flags.lean ====
section
/-! DEFINITION. The block has no condition codes (10_state.md R20). Its one status register is `FLT`, whose codes are
here, and three one-bit fields of wire bytes look like flags: the Huffman flag, the continuation bit, the never-indexed
bit. -/

namespace Sys2Proof.Machine

/-- The number `FLT` holds for a fault (60_exceptions.md R231). -/
def faultNumber : FaultCode → Nat
  | .noFault => 0
  | .truncated => 1
  | .invalidIndex => 2
  | .integerOverflow => 3
  | .sizeUpdateRange => 4
  | .huffmanInvalid => 5
  | .illegalOperand => 6
  | .illegalCommand => 7
  | .undrained => 8

/-- The Huffman flag `H` of a string literal: its INT's tag is `0x80` (R63, R191). -/
def huffFlag (tag : Nat) : Bool := tag == 0x80

/-- The continuation bit `C` of a tail byte: another byte follows (R61). -/
def contFlag (c : BitVec 1) : Bool := c == 1#1

/-- The tag of a literal that is not indexed: bit 4 is the never-indexed bit (R66, R200). -/
def neverTag (never : Bool) : Nat := if never then 0x10 else 0x00

end Sys2Proof.Machine
end

