-- ==== Sys2Proof/Machine/Tables.lean ====
section
/-! DEFINITION. The read-only tables (10_state.md R25) with the contents the spec gives as defaults: `HUFF_ROM`
(42_huffman_table.md R140, R141), `HDEC_ROM` (R142), `STATIC_ROM` (44_static_table.md R180); and the parameters the
machine runs with. The spec marks all rows but static row 2 as general knowledge (log entry 6). -/

namespace Sys2Proof.Machine

/-- A byte string written as its bytes' numbers. -/
def bytes (l : List Nat) : Bytes := l.map (BitVec.ofNat 8)

/-- Rows 0 to 31 of `HUFF_ROM`: (length, code). -/
def huffRom0 : List HuffRow := [
  ⟨13, 0x1ff8⟩, ⟨23, 0x7fffd8⟩, ⟨28, 0xfffffe2⟩, ⟨28, 0xfffffe3⟩, ⟨28, 0xfffffe4⟩, ⟨28, 0xfffffe5⟩, ⟨28, 0xfffffe6⟩, ⟨28, 0xfffffe7⟩,
  ⟨28, 0xfffffe8⟩, ⟨24, 0xffffea⟩, ⟨30, 0x3ffffffc⟩, ⟨28, 0xfffffe9⟩, ⟨28, 0xfffffea⟩, ⟨30, 0x3ffffffd⟩, ⟨28, 0xfffffeb⟩, ⟨28, 0xfffffec⟩,
  ⟨28, 0xfffffed⟩, ⟨28, 0xfffffee⟩, ⟨28, 0xfffffef⟩, ⟨28, 0xffffff0⟩, ⟨28, 0xffffff1⟩, ⟨28, 0xffffff2⟩, ⟨30, 0x3ffffffe⟩, ⟨28, 0xffffff3⟩,
  ⟨28, 0xffffff4⟩, ⟨28, 0xffffff5⟩, ⟨28, 0xffffff6⟩, ⟨28, 0xffffff7⟩, ⟨28, 0xffffff8⟩, ⟨28, 0xffffff9⟩, ⟨28, 0xffffffa⟩, ⟨28, 0xffffffb⟩]

/-- Rows 32 to 63 of `HUFF_ROM`: (length, code). -/
def huffRom1 : List HuffRow := [
  ⟨6, 0x14⟩, ⟨10, 0x3f8⟩, ⟨10, 0x3f9⟩, ⟨12, 0xffa⟩, ⟨13, 0x1ff9⟩, ⟨6, 0x15⟩, ⟨8, 0xf8⟩, ⟨11, 0x7fa⟩,
  ⟨10, 0x3fa⟩, ⟨10, 0x3fb⟩, ⟨8, 0xf9⟩, ⟨11, 0x7fb⟩, ⟨8, 0xfa⟩, ⟨6, 0x16⟩, ⟨6, 0x17⟩, ⟨6, 0x18⟩,
  ⟨5, 0x0⟩, ⟨5, 0x1⟩, ⟨5, 0x2⟩, ⟨6, 0x19⟩, ⟨6, 0x1a⟩, ⟨6, 0x1b⟩, ⟨6, 0x1c⟩, ⟨6, 0x1d⟩,
  ⟨6, 0x1e⟩, ⟨6, 0x1f⟩, ⟨7, 0x5c⟩, ⟨8, 0xfb⟩, ⟨15, 0x7ffc⟩, ⟨6, 0x20⟩, ⟨12, 0xffb⟩, ⟨10, 0x3fc⟩]

/-- Rows 64 to 95 of `HUFF_ROM`: (length, code). -/
def huffRom2 : List HuffRow := [
  ⟨13, 0x1ffa⟩, ⟨6, 0x21⟩, ⟨7, 0x5d⟩, ⟨7, 0x5e⟩, ⟨7, 0x5f⟩, ⟨7, 0x60⟩, ⟨7, 0x61⟩, ⟨7, 0x62⟩,
  ⟨7, 0x63⟩, ⟨7, 0x64⟩, ⟨7, 0x65⟩, ⟨7, 0x66⟩, ⟨7, 0x67⟩, ⟨7, 0x68⟩, ⟨7, 0x69⟩, ⟨7, 0x6a⟩,
  ⟨7, 0x6b⟩, ⟨7, 0x6c⟩, ⟨7, 0x6d⟩, ⟨7, 0x6e⟩, ⟨7, 0x6f⟩, ⟨7, 0x70⟩, ⟨7, 0x71⟩, ⟨7, 0x72⟩,
  ⟨8, 0xfc⟩, ⟨7, 0x73⟩, ⟨8, 0xfd⟩, ⟨13, 0x1ffb⟩, ⟨19, 0x7fff0⟩, ⟨13, 0x1ffc⟩, ⟨14, 0x3ffc⟩, ⟨6, 0x22⟩]

/-- Rows 96 to 127 of `HUFF_ROM`: (length, code). -/
def huffRom3 : List HuffRow := [
  ⟨15, 0x7ffd⟩, ⟨5, 0x3⟩, ⟨6, 0x23⟩, ⟨5, 0x4⟩, ⟨6, 0x24⟩, ⟨5, 0x5⟩, ⟨6, 0x25⟩, ⟨6, 0x26⟩,
  ⟨6, 0x27⟩, ⟨5, 0x6⟩, ⟨7, 0x74⟩, ⟨7, 0x75⟩, ⟨6, 0x28⟩, ⟨6, 0x29⟩, ⟨6, 0x2a⟩, ⟨5, 0x7⟩,
  ⟨6, 0x2b⟩, ⟨7, 0x76⟩, ⟨6, 0x2c⟩, ⟨5, 0x8⟩, ⟨5, 0x9⟩, ⟨6, 0x2d⟩, ⟨7, 0x77⟩, ⟨7, 0x78⟩,
  ⟨7, 0x79⟩, ⟨7, 0x7a⟩, ⟨7, 0x7b⟩, ⟨15, 0x7ffe⟩, ⟨11, 0x7fc⟩, ⟨14, 0x3ffd⟩, ⟨13, 0x1ffd⟩, ⟨28, 0xffffffc⟩]

/-- Rows 128 to 159 of `HUFF_ROM`: (length, code). -/
def huffRom4 : List HuffRow := [
  ⟨20, 0xfffe6⟩, ⟨22, 0x3fffd2⟩, ⟨20, 0xfffe7⟩, ⟨20, 0xfffe8⟩, ⟨22, 0x3fffd3⟩, ⟨22, 0x3fffd4⟩, ⟨22, 0x3fffd5⟩, ⟨23, 0x7fffd9⟩,
  ⟨22, 0x3fffd6⟩, ⟨23, 0x7fffda⟩, ⟨23, 0x7fffdb⟩, ⟨23, 0x7fffdc⟩, ⟨23, 0x7fffdd⟩, ⟨23, 0x7fffde⟩, ⟨24, 0xffffeb⟩, ⟨23, 0x7fffdf⟩,
  ⟨24, 0xffffec⟩, ⟨24, 0xffffed⟩, ⟨22, 0x3fffd7⟩, ⟨23, 0x7fffe0⟩, ⟨24, 0xffffee⟩, ⟨23, 0x7fffe1⟩, ⟨23, 0x7fffe2⟩, ⟨23, 0x7fffe3⟩,
  ⟨23, 0x7fffe4⟩, ⟨21, 0x1fffdc⟩, ⟨22, 0x3fffd8⟩, ⟨23, 0x7fffe5⟩, ⟨22, 0x3fffd9⟩, ⟨23, 0x7fffe6⟩, ⟨23, 0x7fffe7⟩, ⟨24, 0xffffef⟩]

/-- Rows 160 to 191 of `HUFF_ROM`: (length, code). -/
def huffRom5 : List HuffRow := [
  ⟨22, 0x3fffda⟩, ⟨21, 0x1fffdd⟩, ⟨20, 0xfffe9⟩, ⟨22, 0x3fffdb⟩, ⟨22, 0x3fffdc⟩, ⟨23, 0x7fffe8⟩, ⟨23, 0x7fffe9⟩, ⟨21, 0x1fffde⟩,
  ⟨23, 0x7fffea⟩, ⟨22, 0x3fffdd⟩, ⟨22, 0x3fffde⟩, ⟨24, 0xfffff0⟩, ⟨21, 0x1fffdf⟩, ⟨22, 0x3fffdf⟩, ⟨23, 0x7fffeb⟩, ⟨23, 0x7fffec⟩,
  ⟨21, 0x1fffe0⟩, ⟨21, 0x1fffe1⟩, ⟨22, 0x3fffe0⟩, ⟨21, 0x1fffe2⟩, ⟨23, 0x7fffed⟩, ⟨22, 0x3fffe1⟩, ⟨23, 0x7fffee⟩, ⟨23, 0x7fffef⟩,
  ⟨20, 0xfffea⟩, ⟨22, 0x3fffe2⟩, ⟨22, 0x3fffe3⟩, ⟨22, 0x3fffe4⟩, ⟨23, 0x7ffff0⟩, ⟨22, 0x3fffe5⟩, ⟨22, 0x3fffe6⟩, ⟨23, 0x7ffff1⟩]

/-- Rows 192 to 223 of `HUFF_ROM`: (length, code). -/
def huffRom6 : List HuffRow := [
  ⟨26, 0x3ffffe0⟩, ⟨26, 0x3ffffe1⟩, ⟨20, 0xfffeb⟩, ⟨19, 0x7fff1⟩, ⟨22, 0x3fffe7⟩, ⟨23, 0x7ffff2⟩, ⟨22, 0x3fffe8⟩, ⟨25, 0x1ffffec⟩,
  ⟨26, 0x3ffffe2⟩, ⟨26, 0x3ffffe3⟩, ⟨26, 0x3ffffe4⟩, ⟨27, 0x7ffffde⟩, ⟨27, 0x7ffffdf⟩, ⟨26, 0x3ffffe5⟩, ⟨24, 0xfffff1⟩, ⟨25, 0x1ffffed⟩,
  ⟨19, 0x7fff2⟩, ⟨21, 0x1fffe3⟩, ⟨26, 0x3ffffe6⟩, ⟨27, 0x7ffffe0⟩, ⟨27, 0x7ffffe1⟩, ⟨26, 0x3ffffe7⟩, ⟨27, 0x7ffffe2⟩, ⟨24, 0xfffff2⟩,
  ⟨21, 0x1fffe4⟩, ⟨21, 0x1fffe5⟩, ⟨26, 0x3ffffe8⟩, ⟨26, 0x3ffffe9⟩, ⟨28, 0xffffffd⟩, ⟨27, 0x7ffffe3⟩, ⟨27, 0x7ffffe4⟩, ⟨27, 0x7ffffe5⟩]

/-- Rows 224 to 255 of `HUFF_ROM`: (length, code). -/
def huffRom7 : List HuffRow := [
  ⟨20, 0xfffec⟩, ⟨24, 0xfffff3⟩, ⟨20, 0xfffed⟩, ⟨21, 0x1fffe6⟩, ⟨22, 0x3fffe9⟩, ⟨21, 0x1fffe7⟩, ⟨21, 0x1fffe8⟩, ⟨23, 0x7ffff3⟩,
  ⟨22, 0x3fffea⟩, ⟨22, 0x3fffeb⟩, ⟨25, 0x1ffffee⟩, ⟨25, 0x1ffffef⟩, ⟨24, 0xfffff4⟩, ⟨24, 0xfffff5⟩, ⟨26, 0x3ffffea⟩, ⟨23, 0x7ffff4⟩,
  ⟨26, 0x3ffffeb⟩, ⟨27, 0x7ffffe6⟩, ⟨26, 0x3ffffec⟩, ⟨26, 0x3ffffed⟩, ⟨27, 0x7ffffe7⟩, ⟨27, 0x7ffffe8⟩, ⟨27, 0x7ffffe9⟩, ⟨27, 0x7ffffea⟩,
  ⟨27, 0x7ffffeb⟩, ⟨28, 0xffffffe⟩, ⟨27, 0x7ffffec⟩, ⟨27, 0x7ffffed⟩, ⟨27, 0x7ffffee⟩, ⟨27, 0x7ffffef⟩, ⟨27, 0x7fffff0⟩, ⟨26, 0x3ffffee⟩]

/-- Rows 256 to 256 of `HUFF_ROM`: (length, code). -/
def huffRom8 : List HuffRow := [
  ⟨30, 0x3fffffff⟩]

/-- `HUFF_ROM`, symbols 0 to 256 (R140, R141). -/
def huffRom : List HuffRow :=
  huffRom0 ++ (huffRom1 ++ (huffRom2 ++ (huffRom3 ++ (huffRom4 ++ (huffRom5 ++ (huffRom6 ++ (huffRom7 ++ (huffRom8))))))))

/-- Rows 0 to 31 of `HDEC_ROM`: (left-justified code, symbol, length). -/
def hdecRom0 : List DecRow := [
  ⟨0x00000000, 48, 5⟩, ⟨0x08000000, 49, 5⟩, ⟨0x10000000, 50, 5⟩, ⟨0x18000000, 97, 5⟩,
  ⟨0x20000000, 99, 5⟩, ⟨0x28000000, 101, 5⟩, ⟨0x30000000, 105, 5⟩, ⟨0x38000000, 111, 5⟩,
  ⟨0x40000000, 115, 5⟩, ⟨0x48000000, 116, 5⟩, ⟨0x50000000, 32, 6⟩, ⟨0x54000000, 37, 6⟩,
  ⟨0x58000000, 45, 6⟩, ⟨0x5c000000, 46, 6⟩, ⟨0x60000000, 47, 6⟩, ⟨0x64000000, 51, 6⟩,
  ⟨0x68000000, 52, 6⟩, ⟨0x6c000000, 53, 6⟩, ⟨0x70000000, 54, 6⟩, ⟨0x74000000, 55, 6⟩,
  ⟨0x78000000, 56, 6⟩, ⟨0x7c000000, 57, 6⟩, ⟨0x80000000, 61, 6⟩, ⟨0x84000000, 65, 6⟩,
  ⟨0x88000000, 95, 6⟩, ⟨0x8c000000, 98, 6⟩, ⟨0x90000000, 100, 6⟩, ⟨0x94000000, 102, 6⟩,
  ⟨0x98000000, 103, 6⟩, ⟨0x9c000000, 104, 6⟩, ⟨0xa0000000, 108, 6⟩, ⟨0xa4000000, 109, 6⟩]

/-- Rows 32 to 63 of `HDEC_ROM`: (left-justified code, symbol, length). -/
def hdecRom1 : List DecRow := [
  ⟨0xa8000000, 110, 6⟩, ⟨0xac000000, 112, 6⟩, ⟨0xb0000000, 114, 6⟩, ⟨0xb4000000, 117, 6⟩,
  ⟨0xb8000000, 58, 7⟩, ⟨0xba000000, 66, 7⟩, ⟨0xbc000000, 67, 7⟩, ⟨0xbe000000, 68, 7⟩,
  ⟨0xc0000000, 69, 7⟩, ⟨0xc2000000, 70, 7⟩, ⟨0xc4000000, 71, 7⟩, ⟨0xc6000000, 72, 7⟩,
  ⟨0xc8000000, 73, 7⟩, ⟨0xca000000, 74, 7⟩, ⟨0xcc000000, 75, 7⟩, ⟨0xce000000, 76, 7⟩,
  ⟨0xd0000000, 77, 7⟩, ⟨0xd2000000, 78, 7⟩, ⟨0xd4000000, 79, 7⟩, ⟨0xd6000000, 80, 7⟩,
  ⟨0xd8000000, 81, 7⟩, ⟨0xda000000, 82, 7⟩, ⟨0xdc000000, 83, 7⟩, ⟨0xde000000, 84, 7⟩,
  ⟨0xe0000000, 85, 7⟩, ⟨0xe2000000, 86, 7⟩, ⟨0xe4000000, 87, 7⟩, ⟨0xe6000000, 89, 7⟩,
  ⟨0xe8000000, 106, 7⟩, ⟨0xea000000, 107, 7⟩, ⟨0xec000000, 113, 7⟩, ⟨0xee000000, 118, 7⟩]

/-- Rows 64 to 95 of `HDEC_ROM`: (left-justified code, symbol, length). -/
def hdecRom2 : List DecRow := [
  ⟨0xf0000000, 119, 7⟩, ⟨0xf2000000, 120, 7⟩, ⟨0xf4000000, 121, 7⟩, ⟨0xf6000000, 122, 7⟩,
  ⟨0xf8000000, 38, 8⟩, ⟨0xf9000000, 42, 8⟩, ⟨0xfa000000, 44, 8⟩, ⟨0xfb000000, 59, 8⟩,
  ⟨0xfc000000, 88, 8⟩, ⟨0xfd000000, 90, 8⟩, ⟨0xfe000000, 33, 10⟩, ⟨0xfe400000, 34, 10⟩,
  ⟨0xfe800000, 40, 10⟩, ⟨0xfec00000, 41, 10⟩, ⟨0xff000000, 63, 10⟩, ⟨0xff400000, 39, 11⟩,
  ⟨0xff600000, 43, 11⟩, ⟨0xff800000, 124, 11⟩, ⟨0xffa00000, 35, 12⟩, ⟨0xffb00000, 62, 12⟩,
  ⟨0xffc00000, 0, 13⟩, ⟨0xffc80000, 36, 13⟩, ⟨0xffd00000, 64, 13⟩, ⟨0xffd80000, 91, 13⟩,
  ⟨0xffe00000, 93, 13⟩, ⟨0xffe80000, 126, 13⟩, ⟨0xfff00000, 94, 14⟩, ⟨0xfff40000, 125, 14⟩,
  ⟨0xfff80000, 60, 15⟩, ⟨0xfffa0000, 96, 15⟩, ⟨0xfffc0000, 123, 15⟩, ⟨0xfffe0000, 92, 19⟩]

/-- Rows 96 to 127 of `HDEC_ROM`: (left-justified code, symbol, length). -/
def hdecRom3 : List DecRow := [
  ⟨0xfffe2000, 195, 19⟩, ⟨0xfffe4000, 208, 19⟩, ⟨0xfffe6000, 128, 20⟩, ⟨0xfffe7000, 130, 20⟩,
  ⟨0xfffe8000, 131, 20⟩, ⟨0xfffe9000, 162, 20⟩, ⟨0xfffea000, 184, 20⟩, ⟨0xfffeb000, 194, 20⟩,
  ⟨0xfffec000, 224, 20⟩, ⟨0xfffed000, 226, 20⟩, ⟨0xfffee000, 153, 21⟩, ⟨0xfffee800, 161, 21⟩,
  ⟨0xfffef000, 167, 21⟩, ⟨0xfffef800, 172, 21⟩, ⟨0xffff0000, 176, 21⟩, ⟨0xffff0800, 177, 21⟩,
  ⟨0xffff1000, 179, 21⟩, ⟨0xffff1800, 209, 21⟩, ⟨0xffff2000, 216, 21⟩, ⟨0xffff2800, 217, 21⟩,
  ⟨0xffff3000, 227, 21⟩, ⟨0xffff3800, 229, 21⟩, ⟨0xffff4000, 230, 21⟩, ⟨0xffff4800, 129, 22⟩,
  ⟨0xffff4c00, 132, 22⟩, ⟨0xffff5000, 133, 22⟩, ⟨0xffff5400, 134, 22⟩, ⟨0xffff5800, 136, 22⟩,
  ⟨0xffff5c00, 146, 22⟩, ⟨0xffff6000, 154, 22⟩, ⟨0xffff6400, 156, 22⟩, ⟨0xffff6800, 160, 22⟩]

/-- Rows 128 to 159 of `HDEC_ROM`: (left-justified code, symbol, length). -/
def hdecRom4 : List DecRow := [
  ⟨0xffff6c00, 163, 22⟩, ⟨0xffff7000, 164, 22⟩, ⟨0xffff7400, 169, 22⟩, ⟨0xffff7800, 170, 22⟩,
  ⟨0xffff7c00, 173, 22⟩, ⟨0xffff8000, 178, 22⟩, ⟨0xffff8400, 181, 22⟩, ⟨0xffff8800, 185, 22⟩,
  ⟨0xffff8c00, 186, 22⟩, ⟨0xffff9000, 187, 22⟩, ⟨0xffff9400, 189, 22⟩, ⟨0xffff9800, 190, 22⟩,
  ⟨0xffff9c00, 196, 22⟩, ⟨0xffffa000, 198, 22⟩, ⟨0xffffa400, 228, 22⟩, ⟨0xffffa800, 232, 22⟩,
  ⟨0xffffac00, 233, 22⟩, ⟨0xffffb000, 1, 23⟩, ⟨0xffffb200, 135, 23⟩, ⟨0xffffb400, 137, 23⟩,
  ⟨0xffffb600, 138, 23⟩, ⟨0xffffb800, 139, 23⟩, ⟨0xffffba00, 140, 23⟩, ⟨0xffffbc00, 141, 23⟩,
  ⟨0xffffbe00, 143, 23⟩, ⟨0xffffc000, 147, 23⟩, ⟨0xffffc200, 149, 23⟩, ⟨0xffffc400, 150, 23⟩,
  ⟨0xffffc600, 151, 23⟩, ⟨0xffffc800, 152, 23⟩, ⟨0xffffca00, 155, 23⟩, ⟨0xffffcc00, 157, 23⟩]

/-- Rows 160 to 191 of `HDEC_ROM`: (left-justified code, symbol, length). -/
def hdecRom5 : List DecRow := [
  ⟨0xffffce00, 158, 23⟩, ⟨0xffffd000, 165, 23⟩, ⟨0xffffd200, 166, 23⟩, ⟨0xffffd400, 168, 23⟩,
  ⟨0xffffd600, 174, 23⟩, ⟨0xffffd800, 175, 23⟩, ⟨0xffffda00, 180, 23⟩, ⟨0xffffdc00, 182, 23⟩,
  ⟨0xffffde00, 183, 23⟩, ⟨0xffffe000, 188, 23⟩, ⟨0xffffe200, 191, 23⟩, ⟨0xffffe400, 197, 23⟩,
  ⟨0xffffe600, 231, 23⟩, ⟨0xffffe800, 239, 23⟩, ⟨0xffffea00, 9, 24⟩, ⟨0xffffeb00, 142, 24⟩,
  ⟨0xffffec00, 144, 24⟩, ⟨0xffffed00, 145, 24⟩, ⟨0xffffee00, 148, 24⟩, ⟨0xffffef00, 159, 24⟩,
  ⟨0xfffff000, 171, 24⟩, ⟨0xfffff100, 206, 24⟩, ⟨0xfffff200, 215, 24⟩, ⟨0xfffff300, 225, 24⟩,
  ⟨0xfffff400, 236, 24⟩, ⟨0xfffff500, 237, 24⟩, ⟨0xfffff600, 199, 25⟩, ⟨0xfffff680, 207, 25⟩,
  ⟨0xfffff700, 234, 25⟩, ⟨0xfffff780, 235, 25⟩, ⟨0xfffff800, 192, 26⟩, ⟨0xfffff840, 193, 26⟩]

/-- Rows 192 to 223 of `HDEC_ROM`: (left-justified code, symbol, length). -/
def hdecRom6 : List DecRow := [
  ⟨0xfffff880, 200, 26⟩, ⟨0xfffff8c0, 201, 26⟩, ⟨0xfffff900, 202, 26⟩, ⟨0xfffff940, 205, 26⟩,
  ⟨0xfffff980, 210, 26⟩, ⟨0xfffff9c0, 213, 26⟩, ⟨0xfffffa00, 218, 26⟩, ⟨0xfffffa40, 219, 26⟩,
  ⟨0xfffffa80, 238, 26⟩, ⟨0xfffffac0, 240, 26⟩, ⟨0xfffffb00, 242, 26⟩, ⟨0xfffffb40, 243, 26⟩,
  ⟨0xfffffb80, 255, 26⟩, ⟨0xfffffbc0, 203, 27⟩, ⟨0xfffffbe0, 204, 27⟩, ⟨0xfffffc00, 211, 27⟩,
  ⟨0xfffffc20, 212, 27⟩, ⟨0xfffffc40, 214, 27⟩, ⟨0xfffffc60, 221, 27⟩, ⟨0xfffffc80, 222, 27⟩,
  ⟨0xfffffca0, 223, 27⟩, ⟨0xfffffcc0, 241, 27⟩, ⟨0xfffffce0, 244, 27⟩, ⟨0xfffffd00, 245, 27⟩,
  ⟨0xfffffd20, 246, 27⟩, ⟨0xfffffd40, 247, 27⟩, ⟨0xfffffd60, 248, 27⟩, ⟨0xfffffd80, 250, 27⟩,
  ⟨0xfffffda0, 251, 27⟩, ⟨0xfffffdc0, 252, 27⟩, ⟨0xfffffde0, 253, 27⟩, ⟨0xfffffe00, 254, 27⟩]

/-- Rows 224 to 255 of `HDEC_ROM`: (left-justified code, symbol, length). -/
def hdecRom7 : List DecRow := [
  ⟨0xfffffe20, 2, 28⟩, ⟨0xfffffe30, 3, 28⟩, ⟨0xfffffe40, 4, 28⟩, ⟨0xfffffe50, 5, 28⟩,
  ⟨0xfffffe60, 6, 28⟩, ⟨0xfffffe70, 7, 28⟩, ⟨0xfffffe80, 8, 28⟩, ⟨0xfffffe90, 11, 28⟩,
  ⟨0xfffffea0, 12, 28⟩, ⟨0xfffffeb0, 14, 28⟩, ⟨0xfffffec0, 15, 28⟩, ⟨0xfffffed0, 16, 28⟩,
  ⟨0xfffffee0, 17, 28⟩, ⟨0xfffffef0, 18, 28⟩, ⟨0xffffff00, 19, 28⟩, ⟨0xffffff10, 20, 28⟩,
  ⟨0xffffff20, 21, 28⟩, ⟨0xffffff30, 23, 28⟩, ⟨0xffffff40, 24, 28⟩, ⟨0xffffff50, 25, 28⟩,
  ⟨0xffffff60, 26, 28⟩, ⟨0xffffff70, 27, 28⟩, ⟨0xffffff80, 28, 28⟩, ⟨0xffffff90, 29, 28⟩,
  ⟨0xffffffa0, 30, 28⟩, ⟨0xffffffb0, 31, 28⟩, ⟨0xffffffc0, 127, 28⟩, ⟨0xffffffd0, 220, 28⟩,
  ⟨0xffffffe0, 249, 28⟩, ⟨0xfffffff0, 10, 30⟩, ⟨0xfffffff4, 13, 30⟩, ⟨0xfffffff8, 22, 30⟩]

/-- `HDEC_ROM`, positions 0 to 255 (R142). -/
def hdecRom : List DecRow :=
  hdecRom0 ++ (hdecRom1 ++ (hdecRom2 ++ (hdecRom3 ++ (hdecRom4 ++ (hdecRom5 ++ (hdecRom6 ++ (hdecRom7)))))))

/-- Rows 1 to 16 of `STATIC_ROM`. -/
def staticRom0 : List Entry := [
  -- 1  :authority  (empty)
  ⟨bytes [0x3a, 0x61, 0x75, 0x74, 0x68, 0x6f, 0x72, 0x69, 0x74, 0x79],
    []⟩,
  -- 2  :method  GET
  ⟨bytes [0x3a, 0x6d, 0x65, 0x74, 0x68, 0x6f, 0x64],
    bytes [0x47, 0x45, 0x54]⟩,
  -- 3  :method  POST
  ⟨bytes [0x3a, 0x6d, 0x65, 0x74, 0x68, 0x6f, 0x64],
    bytes [0x50, 0x4f, 0x53, 0x54]⟩,
  -- 4  :path  /
  ⟨bytes [0x3a, 0x70, 0x61, 0x74, 0x68],
    bytes [0x2f]⟩,
  -- 5  :path  /index.html
  ⟨bytes [0x3a, 0x70, 0x61, 0x74, 0x68],
    bytes [0x2f, 0x69, 0x6e, 0x64, 0x65, 0x78, 0x2e, 0x68, 0x74, 0x6d, 0x6c]⟩,
  -- 6  :scheme  http
  ⟨bytes [0x3a, 0x73, 0x63, 0x68, 0x65, 0x6d, 0x65],
    bytes [0x68, 0x74, 0x74, 0x70]⟩,
  -- 7  :scheme  https
  ⟨bytes [0x3a, 0x73, 0x63, 0x68, 0x65, 0x6d, 0x65],
    bytes [0x68, 0x74, 0x74, 0x70, 0x73]⟩,
  -- 8  :status  200
  ⟨bytes [0x3a, 0x73, 0x74, 0x61, 0x74, 0x75, 0x73],
    bytes [0x32, 0x30, 0x30]⟩,
  -- 9  :status  204
  ⟨bytes [0x3a, 0x73, 0x74, 0x61, 0x74, 0x75, 0x73],
    bytes [0x32, 0x30, 0x34]⟩,
  -- 10  :status  206
  ⟨bytes [0x3a, 0x73, 0x74, 0x61, 0x74, 0x75, 0x73],
    bytes [0x32, 0x30, 0x36]⟩,
  -- 11  :status  304
  ⟨bytes [0x3a, 0x73, 0x74, 0x61, 0x74, 0x75, 0x73],
    bytes [0x33, 0x30, 0x34]⟩,
  -- 12  :status  400
  ⟨bytes [0x3a, 0x73, 0x74, 0x61, 0x74, 0x75, 0x73],
    bytes [0x34, 0x30, 0x30]⟩,
  -- 13  :status  404
  ⟨bytes [0x3a, 0x73, 0x74, 0x61, 0x74, 0x75, 0x73],
    bytes [0x34, 0x30, 0x34]⟩,
  -- 14  :status  500
  ⟨bytes [0x3a, 0x73, 0x74, 0x61, 0x74, 0x75, 0x73],
    bytes [0x35, 0x30, 0x30]⟩,
  -- 15  accept-charset  (empty)
  ⟨bytes [0x61, 0x63, 0x63, 0x65, 0x70, 0x74, 0x2d, 0x63, 0x68, 0x61, 0x72, 0x73, 0x65, 0x74],
    []⟩,
  -- 16  accept-encoding  gzip, deflate
  ⟨bytes [0x61, 0x63, 0x63, 0x65, 0x70, 0x74, 0x2d, 0x65, 0x6e, 0x63, 0x6f, 0x64, 0x69, 0x6e, 0x67],
    bytes [0x67, 0x7a, 0x69, 0x70, 0x2c, 0x20, 0x64, 0x65, 0x66, 0x6c, 0x61, 0x74, 0x65]⟩]

/-- Rows 17 to 32 of `STATIC_ROM`. -/
def staticRom1 : List Entry := [
  -- 17  accept-language  (empty)
  ⟨bytes [0x61, 0x63, 0x63, 0x65, 0x70, 0x74, 0x2d, 0x6c, 0x61, 0x6e, 0x67, 0x75, 0x61, 0x67, 0x65],
    []⟩,
  -- 18  accept-ranges  (empty)
  ⟨bytes [0x61, 0x63, 0x63, 0x65, 0x70, 0x74, 0x2d, 0x72, 0x61, 0x6e, 0x67, 0x65, 0x73],
    []⟩,
  -- 19  accept  (empty)
  ⟨bytes [0x61, 0x63, 0x63, 0x65, 0x70, 0x74],
    []⟩,
  -- 20  access-control-allow-origin  (empty)
  ⟨bytes [0x61, 0x63, 0x63, 0x65, 0x73, 0x73, 0x2d, 0x63, 0x6f, 0x6e, 0x74, 0x72, 0x6f, 0x6c, 0x2d, 0x61, 0x6c, 0x6c, 0x6f, 0x77, 0x2d, 0x6f, 0x72, 0x69, 0x67, 0x69, 0x6e],
    []⟩,
  -- 21  age  (empty)
  ⟨bytes [0x61, 0x67, 0x65],
    []⟩,
  -- 22  allow  (empty)
  ⟨bytes [0x61, 0x6c, 0x6c, 0x6f, 0x77],
    []⟩,
  -- 23  authorization  (empty)
  ⟨bytes [0x61, 0x75, 0x74, 0x68, 0x6f, 0x72, 0x69, 0x7a, 0x61, 0x74, 0x69, 0x6f, 0x6e],
    []⟩,
  -- 24  cache-control  (empty)
  ⟨bytes [0x63, 0x61, 0x63, 0x68, 0x65, 0x2d, 0x63, 0x6f, 0x6e, 0x74, 0x72, 0x6f, 0x6c],
    []⟩,
  -- 25  content-disposition  (empty)
  ⟨bytes [0x63, 0x6f, 0x6e, 0x74, 0x65, 0x6e, 0x74, 0x2d, 0x64, 0x69, 0x73, 0x70, 0x6f, 0x73, 0x69, 0x74, 0x69, 0x6f, 0x6e],
    []⟩,
  -- 26  content-encoding  (empty)
  ⟨bytes [0x63, 0x6f, 0x6e, 0x74, 0x65, 0x6e, 0x74, 0x2d, 0x65, 0x6e, 0x63, 0x6f, 0x64, 0x69, 0x6e, 0x67],
    []⟩,
  -- 27  content-language  (empty)
  ⟨bytes [0x63, 0x6f, 0x6e, 0x74, 0x65, 0x6e, 0x74, 0x2d, 0x6c, 0x61, 0x6e, 0x67, 0x75, 0x61, 0x67, 0x65],
    []⟩,
  -- 28  content-length  (empty)
  ⟨bytes [0x63, 0x6f, 0x6e, 0x74, 0x65, 0x6e, 0x74, 0x2d, 0x6c, 0x65, 0x6e, 0x67, 0x74, 0x68],
    []⟩,
  -- 29  content-location  (empty)
  ⟨bytes [0x63, 0x6f, 0x6e, 0x74, 0x65, 0x6e, 0x74, 0x2d, 0x6c, 0x6f, 0x63, 0x61, 0x74, 0x69, 0x6f, 0x6e],
    []⟩,
  -- 30  content-range  (empty)
  ⟨bytes [0x63, 0x6f, 0x6e, 0x74, 0x65, 0x6e, 0x74, 0x2d, 0x72, 0x61, 0x6e, 0x67, 0x65],
    []⟩,
  -- 31  content-type  (empty)
  ⟨bytes [0x63, 0x6f, 0x6e, 0x74, 0x65, 0x6e, 0x74, 0x2d, 0x74, 0x79, 0x70, 0x65],
    []⟩,
  -- 32  cookie  (empty)
  ⟨bytes [0x63, 0x6f, 0x6f, 0x6b, 0x69, 0x65],
    []⟩]

/-- Rows 33 to 48 of `STATIC_ROM`. -/
def staticRom2 : List Entry := [
  -- 33  date  (empty)
  ⟨bytes [0x64, 0x61, 0x74, 0x65],
    []⟩,
  -- 34  etag  (empty)
  ⟨bytes [0x65, 0x74, 0x61, 0x67],
    []⟩,
  -- 35  expect  (empty)
  ⟨bytes [0x65, 0x78, 0x70, 0x65, 0x63, 0x74],
    []⟩,
  -- 36  expires  (empty)
  ⟨bytes [0x65, 0x78, 0x70, 0x69, 0x72, 0x65, 0x73],
    []⟩,
  -- 37  from  (empty)
  ⟨bytes [0x66, 0x72, 0x6f, 0x6d],
    []⟩,
  -- 38  host  (empty)
  ⟨bytes [0x68, 0x6f, 0x73, 0x74],
    []⟩,
  -- 39  if-match  (empty)
  ⟨bytes [0x69, 0x66, 0x2d, 0x6d, 0x61, 0x74, 0x63, 0x68],
    []⟩,
  -- 40  if-modified-since  (empty)
  ⟨bytes [0x69, 0x66, 0x2d, 0x6d, 0x6f, 0x64, 0x69, 0x66, 0x69, 0x65, 0x64, 0x2d, 0x73, 0x69, 0x6e, 0x63, 0x65],
    []⟩,
  -- 41  if-none-match  (empty)
  ⟨bytes [0x69, 0x66, 0x2d, 0x6e, 0x6f, 0x6e, 0x65, 0x2d, 0x6d, 0x61, 0x74, 0x63, 0x68],
    []⟩,
  -- 42  if-range  (empty)
  ⟨bytes [0x69, 0x66, 0x2d, 0x72, 0x61, 0x6e, 0x67, 0x65],
    []⟩,
  -- 43  if-unmodified-since  (empty)
  ⟨bytes [0x69, 0x66, 0x2d, 0x75, 0x6e, 0x6d, 0x6f, 0x64, 0x69, 0x66, 0x69, 0x65, 0x64, 0x2d, 0x73, 0x69, 0x6e, 0x63, 0x65],
    []⟩,
  -- 44  last-modified  (empty)
  ⟨bytes [0x6c, 0x61, 0x73, 0x74, 0x2d, 0x6d, 0x6f, 0x64, 0x69, 0x66, 0x69, 0x65, 0x64],
    []⟩,
  -- 45  link  (empty)
  ⟨bytes [0x6c, 0x69, 0x6e, 0x6b],
    []⟩,
  -- 46  location  (empty)
  ⟨bytes [0x6c, 0x6f, 0x63, 0x61, 0x74, 0x69, 0x6f, 0x6e],
    []⟩,
  -- 47  max-forwards  (empty)
  ⟨bytes [0x6d, 0x61, 0x78, 0x2d, 0x66, 0x6f, 0x72, 0x77, 0x61, 0x72, 0x64, 0x73],
    []⟩,
  -- 48  proxy-authenticate  (empty)
  ⟨bytes [0x70, 0x72, 0x6f, 0x78, 0x79, 0x2d, 0x61, 0x75, 0x74, 0x68, 0x65, 0x6e, 0x74, 0x69, 0x63, 0x61, 0x74, 0x65],
    []⟩]

/-- Rows 49 to 61 of `STATIC_ROM`. -/
def staticRom3 : List Entry := [
  -- 49  proxy-authorization  (empty)
  ⟨bytes [0x70, 0x72, 0x6f, 0x78, 0x79, 0x2d, 0x61, 0x75, 0x74, 0x68, 0x6f, 0x72, 0x69, 0x7a, 0x61, 0x74, 0x69, 0x6f, 0x6e],
    []⟩,
  -- 50  range  (empty)
  ⟨bytes [0x72, 0x61, 0x6e, 0x67, 0x65],
    []⟩,
  -- 51  referer  (empty)
  ⟨bytes [0x72, 0x65, 0x66, 0x65, 0x72, 0x65, 0x72],
    []⟩,
  -- 52  refresh  (empty)
  ⟨bytes [0x72, 0x65, 0x66, 0x72, 0x65, 0x73, 0x68],
    []⟩,
  -- 53  retry-after  (empty)
  ⟨bytes [0x72, 0x65, 0x74, 0x72, 0x79, 0x2d, 0x61, 0x66, 0x74, 0x65, 0x72],
    []⟩,
  -- 54  server  (empty)
  ⟨bytes [0x73, 0x65, 0x72, 0x76, 0x65, 0x72],
    []⟩,
  -- 55  set-cookie  (empty)
  ⟨bytes [0x73, 0x65, 0x74, 0x2d, 0x63, 0x6f, 0x6f, 0x6b, 0x69, 0x65],
    []⟩,
  -- 56  strict-transport-security  (empty)
  ⟨bytes [0x73, 0x74, 0x72, 0x69, 0x63, 0x74, 0x2d, 0x74, 0x72, 0x61, 0x6e, 0x73, 0x70, 0x6f, 0x72, 0x74, 0x2d, 0x73, 0x65, 0x63, 0x75, 0x72, 0x69, 0x74, 0x79],
    []⟩,
  -- 57  transfer-encoding  (empty)
  ⟨bytes [0x74, 0x72, 0x61, 0x6e, 0x73, 0x66, 0x65, 0x72, 0x2d, 0x65, 0x6e, 0x63, 0x6f, 0x64, 0x69, 0x6e, 0x67],
    []⟩,
  -- 58  user-agent  (empty)
  ⟨bytes [0x75, 0x73, 0x65, 0x72, 0x2d, 0x61, 0x67, 0x65, 0x6e, 0x74],
    []⟩,
  -- 59  vary  (empty)
  ⟨bytes [0x76, 0x61, 0x72, 0x79],
    []⟩,
  -- 60  via  (empty)
  ⟨bytes [0x76, 0x69, 0x61],
    []⟩,
  -- 61  www-authenticate  (empty)
  ⟨bytes [0x77, 0x77, 0x77, 0x2d, 0x61, 0x75, 0x74, 0x68, 0x65, 0x6e, 0x74, 0x69, 0x63, 0x61, 0x74, 0x65],
    []⟩]

/-- `STATIC_ROM`, indices 1 to 61 (R180). -/
def staticRom : List Entry :=
  staticRom0 ++ (staticRom1 ++ (staticRom2 ++ (staticRom3)))

/-- The parameters of this build: the OPEN numbers of Config and the spec's default tables (R6). -/
def params : Params where
  intMax := Config.intMax
  ddLimit := Config.ddLimit
  huffRom := huffRom
  hdecRom := hdecRom
  staticRom := staticRom

/-- `HLEN[s]` (R140). -/
def hlen (p : Params) (s : Nat) : Nat := (p.huffRom.getD s ⟨0, 0⟩).len

/-- `HCODE[s]` (R141). -/
def hcode (p : Params) (s : Nat) : Nat := (p.huffRom.getD s ⟨0, 0⟩).code

end Sys2Proof.Machine
end

