-- ==== Sys2Proof/Machine/Operands.lean ====
section
/-! DEFINITION. Operand forms: the ranges of N, tag and pos, the fields of an INT's first byte, the bit stream of a byte
string, the combined index space, an entry's cost; and each fault with its context, as R236 lists it. -/

namespace Sys2Proof.Machine

/-- N is one of 4, 5, 6, 7 (R74). -/
def legalWidth (n : Nat) : Bool := n == 4 || n == 5 || n == 6 || n == 7

/-- A tag is a byte with its low N bits clear (R74, R92). -/
def legalTag (n tag : Nat) : Bool := tag ≤ 255 && tag % 2 ^ n == 0

/-- `max = 2^N - 1`: the prefix of all ones (R61). -/
def maxPrefix (n : Nat) : Nat := 2 ^ n - 1

/-- `b0[N-1:0]` (R95). -/
def prefixOf (n : Nat) (b : Byte) : Nat := b.toNat % 2 ^ n

/-- `b0` with its low N bits cleared (R95). -/
def tagOf (n : Nat) (b : Byte) : Nat := b.toNat - prefixOf n b

/-- `cost(n, v) = 32 + |n| + |v|` (R150). -/
def cost (e : Entry) : Nat := 32 + e.name.length + e.value.length

/-- The sum of the entries' costs, which `DD_TOTAL` equals (R14). -/
def totalCost (l : List Entry) : Nat := (l.map cost).sum

/-- `Truncated` in IDEC: the byte at `pos` is missing (R236). -/
def truncatedByte (pos : Nat) : FaultRec := ⟨.truncated, pos, 1, 0⟩

/-- `Truncated` in STRDEC: the body at `pos` is longer than the rest (R236). -/
def truncatedBody (pos len rest : Nat) : FaultRec := ⟨.truncated, pos, len, rest⟩

/-- `InvalidIndex` (R236). -/
def invalidIndex (i greatest : Nat) : FaultRec := ⟨.invalidIndex, 0, i, greatest⟩

/-- `IntegerOverflow` at the continuation byte at `pos` (R236). -/
def integerOverflow (pos intMax value : Nat) : FaultRec := ⟨.integerOverflow, pos, intMax, value⟩

/-- `SizeUpdateRange` (R236). -/
def sizeUpdateRange (v limit : Nat) : FaultRec := ⟨.sizeUpdateRange, 0, v, limit⟩

/-- `HuffmanInvalid` at bit position `p`: `need` is the code's length, or 0 when no symbol matches (R236). -/
def huffmanInvalid (p need real : Nat) : FaultRec := ⟨.huffmanInvalid, p, need, real⟩

/-- `IllegalOperand` (R236). -/
def illegalOperand : FaultRec := ⟨.illegalOperand, 0, 0, 0⟩

/-- `IllegalCommand` (R236). -/
def illegalCommand : FaultRec := ⟨.illegalCommand, 0, 0, 0⟩

/-- `Undrained` (R236). -/
def undrained (len : Nat) : FaultRec := ⟨.undrained, 0, 0, len⟩

/-- `DictRead(i)` over the combined index space: 1 to 61 static, 62 to `61 + |DD_ENT|` dynamic, newest at 62; any other
index is `InvalidIndex` (20_memory.md R41, R42). -/
def dictRead (p : Params) (ent : List Entry) (i : Nat) : Except FaultRec Entry :=
  if 1 ≤ i ∧ i ≤ 61 then .ok (p.staticRom.getD (i - 1) ⟨[], []⟩)
  else if 62 ≤ i ∧ i ≤ 61 + ent.length then .ok (ent.getD (i - 62) ⟨[], []⟩)
  else .error (invalidIndex i (61 + ent.length))

/-- The eight bits of a byte, bit 7 first. -/
def byteBits (b : Byte) : List Bool :=
  [b.getLsbD 7, b.getLsbD 6, b.getLsbD 5, b.getLsbD 4, b.getLsbD 3, b.getLsbD 2, b.getLsbD 1, b.getLsbD 0]

/-- The bit stream of a byte string (00_scope.md section 5; 20_memory.md R47). -/
def bitStream (s : Bytes) : List Bool := s.flatMap byteBits

/-- The number a bit string denotes, first bit most significant. -/
def bitsToNat (l : List Bool) : Nat := l.foldl (fun n b => 2 * n + b.toNat) 0

/-- The low `len` bits of a code, most significant first. -/
def codeBits (code len : Nat) : List Bool := (List.range len).map fun i => code.testBit (len - 1 - i)

/-- The byte string whose bit stream is `l`; bits beyond the last whole byte are dropped. -/
def packBits : List Bool → Bytes
  | b7 :: b6 :: b5 :: b4 :: b3 :: b2 :: b1 :: b0 :: rest =>
    BitVec.ofNat 8 (bitsToNat [b7, b6, b5, b4, b3, b2, b1, b0]) :: packBits rest
  | _ => []

end Sys2Proof.Machine
end

