-- ==== Sys2Proof/Machine/Ops.lean ====
section
/-! DEFINITION. The shared operations: taking a fault (60_exceptions.md R232, R233, R235), the wrapper every command runs
in, sequencing of commands in a host sequence, and the response at the port. There is no return from a fault (R237):
the one way out is reset. -/

namespace Sys2Proof.Machine

/-- A command or a host sequence that has run: the state it leaves, and its result or the fault it reports. -/
abbrev Run (α : Type) := State × Except FaultRec α

/-- Fault entry (R232): `FLT` and `FINFO` take the fault; nothing else is written. -/
def takeFault (e : FaultRec) (s : State) : State := { s with flt := e.code, finfo := e.info }

/-- The recorded fault, with which every command is refused while `FLT != 0` (R233). -/
def recorded (s : State) : FaultRec := ⟨s.flt, s.finfo⟩

/-- How every command runs. While `FLT != 0` it is refused: the recorded fault is reported and nothing is read or written
(R233; first test of R238). Otherwise it has the effect `run`, and a fault `run` ends in is taken (R232). -/
def command {α : Type} (s : State) (run : Run α) : Run α :=
  if s.flt = .noFault then
    match run.2 with
    | .ok a => (run.1, .ok a)
    | .error e => (takeFault e run.1, .error e)
  else (s, .error (recorded s))

/-- A fault raised by a host sequence itself, recorded as if a command had raised it (R235). -/
def hostRaise {α : Type} (e : FaultRec) (s : State) : Run α := command s (s, .error e)

/-- The next command of a host sequence. A fault ends the sequence at once and is its fault; what earlier commands did
stays done (R232, R234). -/
def andThen {α β : Type} (r : Run α) (next : α → State → Run β) : Run β :=
  match r.2 with
  | .ok a => next a r.1
  | .error e => (r.1, .error e)

/-- The response given at the port (R73). -/
def response {α : Type} (toResult : α → Result) (r : Except FaultRec α) : Response :=
  match r with
  | .ok a => .ok (toResult a)
  | .error e => .fault e

/-- The response is latched at the port. -/
def latch (r : Response) (s : State) : State := { s with resp := r }

/-- A transaction's end: its state with the response latched. It is a next state whether or not a fault was taken. -/
def respond {α : Type} (toResult : α → Result) (r : Run α) : Host.Outcome State Fault Refusal :=
  .next (latch (response toResult r.2) r.1)

/-- The cursor moves to the end of the wire-format bytes read (R12); the next ones can be read there. -/
def moveCursor (pos : Nat) (s : State) : State := { s with pos := pos, cursorLive := true }

/-- The cursor of what has ended is its own: no later wire request goes on at it (R24; log entry 22). -/
def dropCursor (s : State) : State := { s with cursorLive := false }

/-- The host supplies an input byte string and an offset into it (R12, R44). One command reads one string and its cursor
never moves backwards, so an integer in progress on what was read before ends here: its bytes cannot come from the new
input (log entry 21). -/
def loadInput (inp : Bytes) (pos : Nat) (s : State) : State :=
  { s with inp := inp, pos := pos, cursorLive := true, idBusy := false }

end Sys2Proof.Machine
end

