-- ==== Sys2Proof/Machine/Dictionary.lean ====
section
/-! DEFINITION. The dictionary engine (43_dictionary_engine.md): DFIND, DFINDN, DGET, DPUSH, DSHRINK, DSETMAX. -/

namespace Sys2Proof.Machine

/-- The least index of the combined index space whose entry satisfies a test, 0 when there is none: static rows in
table order, then dynamic entries newest first (R152). -/
def search (p : Params) (ent : List Entry) (hit : Entry → Bool) : Nat :=
  match p.staticRom.findIdx? hit with
  | some k => 1 + k
  | none =>
    match ent.findIdx? hit with
    | some k => 62 + k
    | none => 0

/-- DFIND's result: exact match of name and value (R151, R155). -/
def find (p : Params) (ent : List Entry) (name value : Bytes) : Nat :=
  search p ent fun e => e.name == name && e.value == value

/-- DFINDN's result: exact match of the name (R156). -/
def findName (p : Params) (ent : List Entry) (name : Bytes) : Nat := search p ent fun e => e.name == name

/-- The command DFIND. -/
def runDfind (p : Params) (name value : Bytes) (s : State) : Run Nat := command s (s, .ok (find p s.ddEnt name value))

/-- The command DFINDN. -/
def runDfindn (p : Params) (name : Bytes) (s : State) : Run Nat := command s (s, .ok (findName p s.ddEnt name))

/-- The command DGET (R157). -/
def runDget (p : Params) (index : Nat) (s : State) : Run Entry := command s (s, dictRead p s.ddEnt index)

/-- DPUSH's effect: the new entry becomes index 62, its cost is added, nothing is evicted (R158). -/
def insertEntry (e : Entry) (s : State) : State :=
  { s with ddEnt := e :: s.ddEnt, ddTotal := s.ddTotal + cost e }

/-- The command DPUSH. -/
def runDpush (name value : Bytes) (s : State) : Run Unit := command s (insertEntry ⟨name, value⟩ s, .ok ())

/-- R159's loop on the entries oldest first: evict while the total is above the limit and entries remain. The
spec subtracts only where the difference is a natural number (00_scope.md, section 5), as it is while SUM holds; in a state
without SUM, which no run from reset reaches, a total below the cost of the evicted entry becomes 0. DESIGN CHOICE (log
entry 24). -/
def evict (limit : Nat) : (oldestFirst : List Entry) → (total : Nat) → List Entry × Nat
  | [], total => ([], total)
  | e :: rest, total => if limit < total then evict limit rest (total - cost e) else (e :: rest, total)

/-- DSHRINK's effect on the dictionary (R159). `DD_MAX` is not written. -/
def shrink (limit : Nat) (s : State) : State :=
  { s with
    ddEnt := (evict limit s.ddEnt.reverse s.ddTotal).1.reverse
    ddTotal := (evict limit s.ddEnt.reverse s.ddTotal).2 }

/-- The command DSHRINK. -/
def runDshrink (limit : Nat) (s : State) : Run Unit := command s (shrink limit s, .ok ())

/-- `DD_MAX` takes a value (R160). -/
def setMax (v : Nat) (s : State) : State := { s with ddMax := v }

/-- The command DSETMAX: a value above `DD_LIMIT` is rejected before anything is written (R160). -/
def runDsetmax (p : Params) (v : Nat) (s : State) : Run Unit :=
  command s
    (if p.ddLimit < v then (s, .error (sizeUpdateRange v p.ddLimit))
    else (shrink v (setMax v s), .ok ()))

/-- DFIND (R155). -/
def execDfind (name value : Bytes) (s : State) : Host.Outcome State Fault Refusal :=
  respond .index (runDfind params name value s)

/-- DFINDN (R156). -/
def execDfindn (name : Bytes) (s : State) : Host.Outcome State Fault Refusal :=
  respond .index (runDfindn params name s)

/-- DGET (R157). -/
def execDget (index : Nat) (s : State) : Host.Outcome State Fault Refusal :=
  respond .entry (runDget params index s)

/-- DPUSH (R158). -/
def execDpush (name value : Bytes) (s : State) : Host.Outcome State Fault Refusal :=
  respond (fun _ => .unit) (runDpush name value s)

/-- DSHRINK (R159). -/
def execDshrink (limit : Nat) (s : State) : Host.Outcome State Fault Refusal :=
  respond (fun _ => .unit) (runDshrink limit s)

/-- DSETMAX (R160). -/
def execDsetmax (v : Nat) (s : State) : Host.Outcome State Fault Refusal :=
  respond (fun _ => .unit) (runDsetmax params v s)

end Sys2Proof.Machine
end

