-- ==== Sys2Proof/Machine/Huffman.lean ====
section
/-! DEFINITION. The Huffman unit (41_huffman_codec.md). Each command is here twice, as the spec gives it: the definition
over bit positions (R111, R119) and the register procedure (R112 to R116, R121 to R128). The commands run the procedure
on the working registers of 10_state.md R21 and R22. -/

namespace Sys2Proof.Machine

/-- HENC by definition (R111): the codes' bits in order. -/
def hencBits (p : Params) (s : Bytes) : List Bool := s.flatMap fun b => codeBits (hcode p b.toNat) (hlen p b.toNat)

/-- HENC by definition (R111): pad with one-bits to a whole byte. -/
def hencDef (p : Params) (s : Bytes) : Bytes :=
  let bits := hencBits p s
  packBits (bits ++ List.replicate ((8 - bits.length % 8) % 8) true)

/-- `HE_ACC`, `HE_CNT` (R21) and the output so far. -/
structure HeRegs where
  acc : BitVec 32
  cnt : Nat
  out : Bytes
  deriving DecidableEq, Repr

/-- R114's loop: while eight bits are buffered, emit the eight oldest. Each turn takes eight from `HE_CNT`, so
`fuel = HE_CNT` is never used up. -/
def heDrainLoop : (fuel : Nat) → HeRegs → HeRegs
  | 0, r => r
  | fuel + 1, r =>
    if 8 ≤ r.cnt then
      heDrainLoop fuel { r with cnt := r.cnt - 8, out := r.out ++ [(r.acc >>> (r.cnt - 8)).setWidth 8] }
    else r

/-- Drain (R114): emit whole bytes, then clear the bits already emitted. -/
def heDrain (r : HeRegs) : HeRegs :=
  let d := heDrainLoop r.cnt r
  { d with acc := BitVec.ofNat 32 (d.acc.toNat % 2 ^ d.cnt) }

/-- `shift_in(bits, k)` (R113). -/
def heShiftIn (bits k : Nat) (r : HeRegs) : HeRegs :=
  heDrain { r with acc := BitVec.ofNat 32 (r.acc.toNat * 2 ^ k + bits), cnt := r.cnt + k }

/-- One input byte; a code longer than 24 bits goes in two steps (R115). -/
def heByte (p : Params) (r : HeRegs) (b : Byte) : HeRegs :=
  let code := hcode p b.toNat
  let len := hlen p b.toNat
  if 24 < len then heShiftIn (code % 2 ^ 24) 24 (heShiftIn (code / 2 ^ 24) (len - 24) r)
  else heShiftIn code len r

/-- The end: the bits left over, padded with ones (R116). -/
def heEnd (r : HeRegs) : HeRegs :=
  if 0 < r.cnt then
    { r with
      out := r.out ++ [BitVec.ofNat 8 (r.acc.toNat * 2 ^ (8 - r.cnt) + (2 ^ (8 - r.cnt) - 1))]
      cnt := 0 }
  else r

/-- The HENC procedure from its start (R112 to R116). -/
def hencProc (p : Params) (s : Bytes) : HeRegs := heEnd (s.foldl (heByte p) ⟨0, 0, []⟩)

/-- HENC's registers written back. -/
def storeHenc (r : HeRegs) (s : State) : State := { s with heAcc := r.acc, heCnt := r.cnt }

/-- The command HENC. State written: the hidden registers only; faults: none. -/
def runHenc (p : Params) (str : Bytes) (s : State) : Run Bytes :=
  command s (storeHenc (hencProc p str) s, .ok (hencProc p str).out)

/-- The 30 bits of the stream from position `q` on, one-bits past the end of the input (R119). -/
def candidate (bits : List Bool) (q : Nat) : Nat :=
  bitsToNat ((bits.drop q ++ List.replicate 30 true).take 30)

/-- The symbol in 0..255 whose code is a prefix of a 30-bit candidate (R119). -/
def symbolOf (p : Params) (cand : Nat) : Option Nat :=
  (List.range 256).find? fun s => hcode p s == cand / 2 ^ (30 - hlen p s)

/-- HDEC's loop by definition (R119). Every turn that goes on takes at least one bit, so a fuel of one more than the
number of real bits is never used up. -/
def hdecDefLoop (p : Params) (bits : List Bool) : (fuel q : Nat) → Bytes → Except FaultRec Bytes
  | 0, _, out => .ok out
  | fuel + 1, q, out =>
    let cand := candidate bits q
    if bits.length ≤ q then .ok out
    else if cand = 2 ^ 30 - 1 then .ok out
    else
      match symbolOf p cand with
      | none => .error (huffmanInvalid q 0 (bits.length - q))
      | some s =>
        if bits.length < q + hlen p s then .error (huffmanInvalid q (hlen p s) (bits.length - q))
        else hdecDefLoop p bits fuel (q + hlen p s) (out ++ [BitVec.ofNat 8 s])

/-- HDEC by definition (R119). -/
def hdecDef (p : Params) (inp : Bytes) : Except FaultRec Bytes :=
  hdecDefLoop p (bitStream inp) ((bitStream inp).length + 1) 0 []

/-- `HD_WIN`, `HD_CNT`, `HD_POS` (R22). -/
structure HdRegs where
  win : BitVec 64
  cnt : Nat
  pos : Nat
  deriving DecidableEq, Repr

/-- Refill (R121): while fewer than 30 bits are buffered, pull the next byte, 0xFF past the end. Four turns take any
count to at least 30. -/
def hdRefillLoop (inp : Bytes) : (fuel : Nat) → HdRegs → HdRegs
  | 0, r => r
  | fuel + 1, r =>
    if r.cnt < 30 then
      hdRefillLoop inp fuel
        ⟨r.win + BitVec.ofNat 64 ((inp.getD r.pos 0xFF).toNat * 2 ^ (56 - r.cnt)), r.cnt + 8, r.pos + 1⟩
    else r

/-- Refill to at least 30 buffered bits (R121). -/
def hdRefill (inp : Bytes) (r : HdRegs) : HdRegs := hdRefillLoop inp 4 r

/-- The buffered bits that are real (R122). -/
def hdReal (inp : Bytes) (r : HdRegs) : Nat := r.cnt - 8 * (r.pos - inp.length)

/-- The bit position of the next buffered bit (R122). -/
def hdBitPos (r : HdRegs) : Nat := 8 * r.pos - r.cnt

/-- `cand32 = HD_WIN[63:32]` (R123). -/
def hdCand (r : HdRegs) : Nat := (r.win >>> 32).toNat

/-- The predecessor search in `HDEC_ROM` (R124). -/
def hdLookup (p : Params) (cand32 : Nat) : DecRow :=
  let j := p.hdecRom.findIdx fun row => cand32 ≤ row.aligned
  let at' := p.hdecRom.getD j ⟨0, 0, 0⟩
  if j = p.hdecRom.length ∨ cand32 < at'.aligned then p.hdecRom.getD (j - 1) ⟨0, 0, 0⟩ else at'

/-- HDEC's loop (R128): refill; stop tests (a) and (b) (R126); lookup (R124); defensive check (R125); overrun test
(R127); consume. Every turn that goes on takes a whole code from the real bits, so a fuel of one more than their number
is never used up. -/
def hdLoop (p : Params) (inp : Bytes) : (fuel : Nat) → HdRegs → Bytes → HdRegs × Except FaultRec Bytes
  | 0, r, out => (r, .ok out)
  | fuel + 1, r0, out =>
    let r := hdRefill inp r0
    let real := hdReal inp r
    let cand := hdCand r
    if real = 0 then (r, .ok out)
    else if cand / 4 = 2 ^ 30 - 1 then (r, .ok out)
    else
      let s := (hdLookup p cand).symbol
      let len := hlen p s
      if cand / 2 ^ (32 - len) ≠ hcode p s then (r, .error (huffmanInvalid (hdBitPos r) 0 real))
      else if real < len then (r, .error (huffmanInvalid (hdBitPos r) len real))
      else hdLoop p inp fuel ⟨r.win <<< len, r.cnt - len, r.pos⟩ (out ++ [BitVec.ofNat 8 s])

/-- The HDEC procedure from its start (R121 to R128). -/
def hdecProc (p : Params) (inp : Bytes) : HdRegs × Except FaultRec Bytes :=
  hdLoop p inp (8 * inp.length + 1) ⟨0, 0, 0⟩ []

/-- HDEC's registers written back. -/
def storeHdec (r : HdRegs) (s : State) : State := { s with hdWin := r.win, hdCnt := r.cnt, hdPos := r.pos }

/-- The command HDEC. State written: the hidden registers only. -/
def runHdec (p : Params) (inp : Bytes) (s : State) : Run Bytes :=
  command s (storeHdec (hdecProc p inp).1 s, (hdecProc p inp).2)

/-- HENC (R111). -/
def execHenc (str : Bytes) (s : State) : Host.Outcome State Fault Refusal :=
  respond .bytes (runHenc params str s)

/-- HDEC (R119). -/
def execHdec (inp : Bytes) (s : State) : Host.Outcome State Fault Refusal :=
  respond .bytes (runHdec params inp s)

end Sys2Proof.Machine
end

