-- ==== Sys2Proof/Machine/Integer.lean ====
section
/-! DEFINITION. The integer unit (40_integer_codec.md): IENC, IDEC, and the bytes of an INT one at a time. -/

namespace Sys2Proof.Machine

/-- IENC's continuation bytes: groups of seven bits, least significant first, C = 1 on all but the last (R92). The loop
divides `rest` by 128 each time, so `fuel = rest` is never used up. -/
def iencTail : (fuel rest : Nat) → Bytes
  | 0, rest => [BitVec.ofNat 8 rest]
  | fuel + 1, rest =>
    if 128 ≤ rest then BitVec.ofNat 8 (128 + rest % 128) :: iencTail fuel (rest / 128)
    else [BitVec.ofNat 8 rest]

/-- IENC's result (R92). -/
def ienc (value n tag : Nat) : Except FaultRec Bytes :=
  if legalWidth n && legalTag n tag then
    if value < maxPrefix n then .ok [BitVec.ofNat 8 (tag + value)]
    else .ok (BitVec.ofNat 8 (tag + maxPrefix n) :: iencTail (value - maxPrefix n) (value - maxPrefix n))
  else .error illegalOperand

/-- The command IENC. State written: none. -/
def runIenc (value n tag : Nat) (s : State) : Run Bytes := command s (s, ienc value n tag)

/-- IDEC's working registers `ID_VAL`, `ID_I` and the byte cursor (R23). -/
structure IdRegs where
  val : Nat
  i : Nat
  pos : Nat
  deriving DecidableEq, Repr

/-- One continuation byte (R95, the body of the loop): add its group at `7 * ID_I`, fault above `INT_MAX`, else count it
and say whether another byte follows. -/
def idecByte (intMax : Nat) (more : Bool) (group : Nat) (r : IdRegs) : IdRegs × Except FaultRec Bool :=
  let v := r.val + group * 2 ^ (7 * r.i)
  if intMax < v then (⟨v, r.i, r.pos + 1⟩, .error (integerOverflow r.pos intMax v))
  else (⟨v, r.i + 1, r.pos + 1⟩, .ok more)

/-- IDEC's loop over the bytes that remain from the cursor on (R95). -/
def idecLoop (intMax : Nat) : Bytes → IdRegs → IdRegs × Except FaultRec Unit
  | [], r => (r, .error (truncatedByte r.pos))
  | c :: rest, r =>
    match idecByte intMax (contFlag (c.extractLsb' 7 1)) (c.extractLsb' 0 7).toNat r with
    | (r', .ok true) => idecLoop intMax rest r'
    | (r', .ok false) => (r', .ok ())
    | (r', .error e) => (r', .error e)

/-- The registers after the first byte at `pos`, whose prefix is `pfx` (R95). -/
def idecFirst (pos pfx : Nat) : IdRegs := ⟨pfx, 0, pos + 1⟩

/-- IDEC from its first byte's prefix on (R95). -/
def idecFrom (intMax : Nat) (inp : Bytes) (pos n pfx : Nat) : IdRegs × Except FaultRec Unit :=
  if pfx < maxPrefix n then (idecFirst pos pfx, .ok ())
  else idecLoop intMax (inp.drop (pos + 1)) (idecFirst pos pfx)

/-- The result the registers hold when the integer is complete: `consumed` is the first byte and the `ID_I`
continuation bytes (R95). -/
def intResult (tag : Nat) (r : IdRegs) : IntResult := ⟨r.val, tag, r.i + 1⟩

/-- IDEC's result as a function of its operands alone (R95). -/
def idec (intMax : Nat) (inp : Bytes) (pos n : Nat) : Except FaultRec IntResult :=
  if legalWidth n && pos ≤ inp.length then
    match inp[pos]? with
    | none => .error (truncatedByte pos)
    | some b =>
      match idecFrom intMax inp pos n (prefixOf n b) with
      | (r, .ok _) => .ok (intResult (tagOf n b) r)
      | (_, .error e) => .error e
  else .error illegalOperand

/-- The integer unit's registers written back. IDEC's cursor is its own: no later command goes on at it (R24). -/
def storeInt (inp : Bytes) (tag : Nat) (busy : Bool) (r : IdRegs) (s : State) : State :=
  dropCursor { s with inp := inp, pos := r.pos, idVal := r.val, idI := r.i, idTag := tag, idBusy := busy }

/-- The registers written back after one byte of an integer at the cursor: the next byte is read there (log entry 3). -/
def storeByte (tag : Nat) (busy : Bool) (r : IdRegs) (s : State) : State :=
  moveCursor r.pos (storeInt s.inp tag busy r s)

/-- IDEC's registers and result as a run. -/
def idecRun (inp : Bytes) (tag : Nat) (x : IdRegs × Except FaultRec Unit) (s : State) : Run IntResult :=
  (storeInt inp tag false x.1 s,
    match x.2 with
    | .ok _ => .ok (intResult tag x.1)
    | .error e => .error e)

/-- The command IDEC whose first byte has been looked at: its tag and prefix are known (R203). -/
def runIdecFrom (p : Params) (inp : Bytes) (pos n tag pfx : Nat) (s : State) : Run IntResult :=
  command s (idecRun inp tag (idecFrom p.intMax inp pos n pfx) s)

/-- The command IDEC (R95). -/
def runIdec (p : Params) (inp : Bytes) (pos n : Nat) (s : State) : Run IntResult :=
  command s
    (if legalWidth n && pos ≤ inp.length then
      match inp[pos]? with
      | none => (s, .error (truncatedByte pos))
      | some b => idecRun inp (tagOf n b) (idecFrom p.intMax inp pos n (prefixOf n b)) s
    else (s, .error illegalOperand))

/-- The first byte of an INT at the cursor: complete when the prefix is below `max`, else continuation bytes follow
(R61, R95; log entry 3). -/
def runIntFirst (n tag pfx : Nat) (s : State) : Run (Option IntResult) :=
  command s
    (if pfx < maxPrefix n then
      (storeByte tag false (idecFirst s.pos pfx) s, .ok (some (intResult tag (idecFirst s.pos pfx))))
    else (storeByte tag true (idecFirst s.pos pfx) s, .ok none))

/-- A continuation byte at the cursor: one turn of R95's loop on the working registers. -/
def runIntCont (p : Params) (more : Bool) (group : Nat) (s : State) : Run (Option IntResult) :=
  command s
    (match idecByte p.intMax more group ⟨s.idVal, s.idI, s.pos⟩ with
    | (r, .ok true) => (storeByte s.idTag true r s, .ok none)
    | (r, .ok false) => (storeByte s.idTag false r s, .ok (some (intResult s.idTag r)))
    | (r, .error e) => (storeByte s.idTag false r s, .error e))

/-- The response to a byte of an integer. The spec answers a whole IDEC (R95) and gives no response to part of one: that a
byte which leaves the integer incomplete is answered `Ok(more)` is the model's own. DESIGN CHOICE (log entry 23). -/
def intAnswer : Option IntResult → Result
  | some r => .int r
  | none => .more

/-- IENC (R92). -/
def execIenc (value n tag : Nat) (s : State) : Host.Outcome State Fault Refusal :=
  respond .bytes (runIenc value n tag s)

/-- IDEC (R95). -/
def execIdec (inp : Bytes) (pos n : Nat) (s : State) : Host.Outcome State Fault Refusal :=
  respond .int (runIdec params inp pos n s)

/-- INT.FIRST.N4: `ttttpppp`. -/
def execIntFirstN4 (tag : BitVec 4) (pfx : BitVec 4) (s : State) : Host.Outcome State Fault Refusal :=
  respond intAnswer (runIntFirst 4 (tag.toNat * 2 ^ 4) pfx.toNat s)

/-- INT.FIRST.N5: `tttppppp`. -/
def execIntFirstN5 (tag : BitVec 3) (pfx : BitVec 5) (s : State) : Host.Outcome State Fault Refusal :=
  respond intAnswer (runIntFirst 5 (tag.toNat * 2 ^ 5) pfx.toNat s)

/-- INT.FIRST.N6: `ttpppppp`. -/
def execIntFirstN6 (tag : BitVec 2) (pfx : BitVec 6) (s : State) : Host.Outcome State Fault Refusal :=
  respond intAnswer (runIntFirst 6 (tag.toNat * 2 ^ 6) pfx.toNat s)

/-- INT.FIRST.N7: `tppppppp`. -/
def execIntFirstN7 (tag : BitVec 1) (pfx : BitVec 7) (s : State) : Host.Outcome State Fault Refusal :=
  respond intAnswer (runIntFirst 7 (tag.toNat * 2 ^ 7) pfx.toNat s)

/-- INT.CONT: `cggggggg`. It is refused like every command while `FLT != 0`; with no integer in progress there is
nothing it continues, and the model stops (log entry 8). The spec has no IDEC byte by byte, so it does not say what comes
of an integer when another command comes between its bytes: the integer in progress survives any that runs no IDEC, and
goes on at its own cursor. DESIGN CHOICE (log entry 21). -/
def execIntCont (c : BitVec 1) (group : BitVec 7) (s : State) : Host.Outcome State Fault Refusal :=
  if s.flt = .noFault ∧ s.idBusy = false then .fault .strayContinuation
  else respond intAnswer (runIntCont params (contFlag c) group.toNat s)

end Sys2Proof.Machine
end

