-- ==== Sys2Proof/Machine/StringCodec.lean ====
section
/-! DEFINITION. The string codec (45_host_sequences.md section 1): STRENC, STRDEC, and the two STR first bytes. -/

namespace Sys2Proof.Machine

/-- STRENC (R190): the Huffman form when it is strictly shorter, else the raw bytes. -/
def runStrenc (p : Params) (str : Bytes) (s : State) : Run Bytes :=
  andThen (runHenc p str s) fun h s =>
    if h.length < str.length then andThen (runIenc h.length 7 0x80 s) fun i s => (s, .ok (i ++ h))
    else andThen (runIenc str.length 7 0x00 s) fun i s => (s, .ok (i ++ str))

/-- STRDEC after its length integer (R191): the length test, then the body, Huffman-decoded when the flag is set. The
result is the string and the offset after the body. -/
def runStrBody (p : Params) (inp : Bytes) (pos len : Nat) (huff : Bool) (s : State) : Run (Bytes × Nat) :=
  if inp.length - pos < len then hostRaise (truncatedBody pos len (inp.length - pos)) s
  else
    let body := (inp.drop pos).take len
    if huff then andThen (runHdec p body s) fun out s => (s, .ok (out, pos + len))
    else (s, .ok (body, pos + len))

/-- STRDEC (R191). -/
def runStrdec (p : Params) (inp : Bytes) (pos : Nat) (s : State) : Run (Bytes × Nat) :=
  andThen (runIdec p inp pos 7 s) fun r s => runStrBody p inp (pos + r.consumed) r.value (huffFlag r.tag) s

/-- A string literal at the cursor whose first byte has been read: tag and length prefix are known. -/
def runStrAt (p : Params) (tag pfx : Nat) (s : State) : Run (Bytes × Nat) :=
  andThen (runIdecFrom p s.inp s.pos 7 tag pfx s) fun r s' =>
    andThen (runStrBody p s.inp (s.pos + r.consumed) r.value (huffFlag r.tag) s') fun x s' =>
      (moveCursor x.2 s', .ok x)

/-- STRDEC's result as a response. -/
def strAnswer (x : Bytes × Nat) : Result := .str x.1 x.2

/-- STR.HUFF: `1lllllll` (R191). -/
def execStrHuff (pfx : BitVec 7) (s : State) : Host.Outcome State Fault Refusal :=
  respond strAnswer (runStrAt params 0x80 pfx.toNat s)

/-- STR.RAW: `0lllllll` (R191). -/
def execStrRaw (pfx : BitVec 7) (s : State) : Host.Outcome State Fault Refusal :=
  respond strAnswer (runStrAt params 0x00 pfx.toNat s)

end Sys2Proof.Machine
end

