-- ==== Sys2Proof/Machine/Representation.lean ====
section
/-! DEFINITION. HFDEC, the decoding of one representation (45_host_sequences.md section 3). Each arm gets the input
string, the offset of the representation's first byte and that byte's prefix, and gives the field, if any, and the next
offset. -/

namespace Sys2Proof.Machine

/-- HFDEC, Indexed Header Field (R204). -/
def runRepIndexed (p : Params) (inp : Bytes) (pos pfx : Nat) (s : State) : Run (Option Field × Nat) :=
  andThen (runIdecFrom p inp pos 7 0x80 pfx s) fun r s =>
    andThen (runDget p r.value s) fun e s => (s, .ok (some ⟨e.name, e.value, false⟩, pos + r.consumed))

/-- The name of a literal: a string when the index is 0, else the name of the entry at that index (R208). The result is
the name and the next offset. -/
def runLiteralName (p : Params) (inp : Bytes) (pos index : Nat) (s : State) : Run (Bytes × Nat) :=
  if index = 0 then runStrdec p inp pos s
  else andThen (runDget p index s) fun e s => (s, .ok (e.name, pos))

/-- `Literal(in, pos, N)`, the common part of the literal forms (R208): name, value, next offset. -/
def runLiteral (p : Params) (inp : Bytes) (pos n tag pfx : Nat) (s : State) : Run (Bytes × Bytes × Nat) :=
  andThen (runIdecFrom p inp pos n tag pfx s) fun r s =>
    andThen (runLiteralName p inp (pos + r.consumed) r.value s) fun name s =>
      andThen (runStrdec p inp name.2 s) fun value s => (s, .ok (name.1, value.1, value.2))

/-- An insertion as the host must perform it: `DPUSH name, value ; DSHRINK DD_MAX` (R161). -/
def runInsert (name value : Bytes) (s : State) : Run Unit :=
  andThen (runDpush name value s) fun _ s => runDshrink s.ddMax s

/-- HFDEC, Literal with Incremental Indexing (R205). -/
def runRepLitInc (p : Params) (inp : Bytes) (pos pfx : Nat) (s : State) : Run (Option Field × Nat) :=
  andThen (runLiteral p inp pos 6 0x40 pfx s) fun l s =>
    andThen (runInsert l.1 l.2.1 s) fun _ s => (s, .ok (some ⟨l.1, l.2.1, false⟩, l.2.2))

/-- HFDEC, Dynamic Table Size Update (R206). -/
def runRepSizeUpd (p : Params) (inp : Bytes) (pos pfx : Nat) (s : State) : Run (Option Field × Nat) :=
  andThen (runIdecFrom p inp pos 5 0x20 pfx s) fun r s =>
    andThen (runDsetmax p r.value s) fun _ s => (s, .ok (none, pos + r.consumed))

/-- HFDEC, Literal Never Indexed and Literal without Indexing (R207). -/
def runRepLitPlain (p : Params) (never : Bool) (inp : Bytes) (pos pfx : Nat) (s : State) : Run (Option Field × Nat) :=
  andThen (runLiteral p inp pos 4 (neverTag never) pfx s) fun l s => (s, .ok (some ⟨l.1, l.2.1, never⟩, l.2.2))

/-- The arm a first byte selects (R203). -/
def runRep (p : Params) (rep : Rep) (inp : Bytes) (pos : Nat) (s : State) : Run (Option Field × Nat) :=
  match rep with
  | .indexed pfx => runRepIndexed p inp pos pfx.toNat s
  | .litInc pfx => runRepLitInc p inp pos pfx.toNat s
  | .sizeUpd pfx => runRepSizeUpd p inp pos pfx.toNat s
  | .litNever pfx => runRepLitPlain p true inp pos pfx.toNat s
  | .litNoIdx pfx => runRepLitPlain p false inp pos pfx.toNat s

/-- A representation read at the cursor; the cursor moves to the next one. -/
def respondRep (r : Run (Option Field × Nat)) : Host.Outcome State Fault Refusal :=
  respond (fun x => .rep x.1 x.2) (andThen r fun x s => (moveCursor x.2 s, .ok x))

/-- REP.INDEXED: `1iiiiiii` (R204). -/
def execRepIndexed (pfx : BitVec 7) (s : State) : Host.Outcome State Fault Refusal :=
  respondRep (runRepIndexed params s.inp s.pos pfx.toNat s)

/-- REP.LITINC: `01iiiiii` (R205). -/
def execRepLitInc (pfx : BitVec 6) (s : State) : Host.Outcome State Fault Refusal :=
  respondRep (runRepLitInc params s.inp s.pos pfx.toNat s)

/-- REP.SIZEUPD: `001vvvvv` (R206). -/
def execRepSizeUpd (pfx : BitVec 5) (s : State) : Host.Outcome State Fault Refusal :=
  respondRep (runRepSizeUpd params s.inp s.pos pfx.toNat s)

/-- REP.LITNEVER: `0001iiii` (R207). -/
def execRepLitNever (pfx : BitVec 4) (s : State) : Host.Outcome State Fault Refusal :=
  respondRep (runRepLitPlain params true s.inp s.pos pfx.toNat s)

/-- REP.LITNOIDX: `0000iiii` (R207). -/
def execRepLitNoIdx (pfx : BitVec 4) (s : State) : Host.Outcome State Fault Refusal :=
  respondRep (runRepLitPlain params false s.inp s.pos pfx.toNat s)

end Sys2Proof.Machine
end

