-- ==== Sys2Proof/Machine/Dispatch.lean ====
section
/-! DEFINITION. exec: one arm per row of the opcode table. -/

namespace Sys2Proof.Machine

def exec (i : Instr) (s : State) : Host.Outcome State Fault Refusal :=
  match i with
  -- the command port (30_encoding.md R72)
  | .ienc value n tag => Sys2Proof.Machine.execIenc value n tag s
  | .idec inp pos n => Sys2Proof.Machine.execIdec inp pos n s
  | .henc str => Sys2Proof.Machine.execHenc str s
  | .hdec inp => Sys2Proof.Machine.execHdec inp s
  | .dfind name value => Sys2Proof.Machine.execDfind name value s
  | .dfindn name => Sys2Proof.Machine.execDfindn name s
  | .dget index => Sys2Proof.Machine.execDget index s
  | .dpush name value => Sys2Proof.Machine.execDpush name value s
  | .dshrink limit => Sys2Proof.Machine.execDshrink limit s
  | .dsetmax v => Sys2Proof.Machine.execDsetmax v s
  -- the wire formats REP, STR and INT (R61 to R68)
  | .repIndexed pfx => Sys2Proof.Machine.execRepIndexed pfx s
  | .repLitInc pfx => Sys2Proof.Machine.execRepLitInc pfx s
  | .repSizeUpd pfx => Sys2Proof.Machine.execRepSizeUpd pfx s
  | .repLitNever pfx => Sys2Proof.Machine.execRepLitNever pfx s
  | .repLitNoIdx pfx => Sys2Proof.Machine.execRepLitNoIdx pfx s
  | .strHuff pfx => Sys2Proof.Machine.execStrHuff pfx s
  | .strRaw pfx => Sys2Proof.Machine.execStrRaw pfx s
  | .intFirstN4 tag pfx => Sys2Proof.Machine.execIntFirstN4 tag pfx s
  | .intFirstN5 tag pfx => Sys2Proof.Machine.execIntFirstN5 tag pfx s
  | .intFirstN6 tag pfx => Sys2Proof.Machine.execIntFirstN6 tag pfx s
  | .intFirstN7 tag pfx => Sys2Proof.Machine.execIntFirstN7 tag pfx s
  | .intCont c group => Sys2Proof.Machine.execIntCont c group s

end Sys2Proof.Machine
end

