-- ==== Sys2Proof/Machine/HostSeq.lean ====
section
/-! DEFINITION. The other host sequences (45_host_sequences.md sections 2 and 4): HFENC, ENCODE, FEED, DRAIN, EOF, and the
host's posting of a fault. They have no code and no row in the opcode table (R78); the port takes them as requests. -/

namespace Sys2Proof.Machine

/-- A name index as the literal forms send it: the integer, and the name as a string when the index is 0 (R200). -/
def runEncName (p : Params) (index n tag : Nat) (name : Bytes) (s : State) : Run Bytes :=
  andThen (runIenc index n tag s) fun i s =>
    if index = 0 then andThen (runStrenc p name s) fun nm s => (s, .ok (i ++ nm)) else (s, .ok i)

/-- A literal form whole: name index or name, then the value (R200). -/
def runEncLiteral (p : Params) (index n tag : Nat) (name value : Bytes) (s : State) : Run Bytes :=
  andThen (runEncName p index n tag name s) fun out s =>
    andThen (runStrenc p value s) fun v s => (s, .ok (out ++ v))

/-- HFENC (R200): the encoder policy's four cases in their order. -/
def runHfenc (p : Params) (h : Header) (s : State) : Run Bytes :=
  if h.sensitive ∨ 3 * s.ddMax < 4 * cost ⟨h.name, h.value⟩ then
    andThen (runDfindn p h.name s) fun i s => runEncLiteral p i 4 (neverTag h.sensitive) h.name h.value s
  else
    andThen (runDfind p h.name h.value s) fun i s =>
      if i ≠ 0 then runIenc i 7 0x80 s
      else
        andThen (runDfindn p h.name s) fun i s =>
          andThen (runEncLiteral p i 6 0x40 h.name h.value s) fun out s =>
            andThen (runInsert h.name h.value s) fun _ s => (s, .ok out)

/-- ENCODE (R201): HFENC per pair, in order, outputs concatenated. -/
def runEncode (p : Params) : List Header → State → Run Bytes
  | [], s => (s, .ok [])
  | h :: hs, s =>
    andThen (runHfenc p h s) fun out s => andThen (runEncode p hs s) fun rest s => (s, .ok (out ++ rest))

/-- The host decoder's buffer and phase written (R26). -/
def setRx (buf : Bytes) (phase : RxState) (s : State) : State := { s with rxBuf := buf, rxState := phase }

/-- FEED (R210): append to the buffer; refused while `FLT != 0` (R233). -/
def runFeed (bs : Bytes) (s : State) : Run Unit :=
  command s (setRx (s.rxBuf ++ bs) (if s.rxBuf ++ bs = [] then s.rxState else .feeding) s, .ok ())

/-- The callback is invoked with a decoded field, if there is one (R211). -/
def deliver (field : Option Field) (s : State) : State := { s with delivered := s.delivered ++ field.toList }

/-- DRAIN's loop (R211): HFDEC while the cursor is inside the buffer. Each HFDEC takes at least one byte (R209), so a
fuel of the buffer's length is never used up. Its cursor is its own (R24). -/
def drainLoop (p : Params) (buf : Bytes) : (fuel pos : Nat) → State → Run Unit
  | 0, _, s => (s, .ok ())
  | fuel + 1, pos, s =>
    match buf[pos]? with
    | none => (s, .ok ())
    | some b =>
      andThen (runRep p (decodeRep b) buf pos s) fun x s => drainLoop p buf fuel x.2 (dropCursor (deliver x.1 s))

/-- DRAIN (R211). On a fault the buffer is left as it was and the phase is left `Draining`. -/
def runDrain (p : Params) (s : State) : Run Unit :=
  if s.flt = .noFault then
    andThen (drainLoop p s.rxBuf s.rxBuf.length 0 (setRx s.rxBuf .draining s)) fun _ s =>
      (setRx [] .idle s, .ok ())
  else (s, .error (recorded s))

/-- EOF (R212). -/
def runEof (s : State) : Run Unit :=
  command s (s, if 0 < s.rxBuf.length then .error (undrained s.rxBuf.length) else .ok ())

/-- The host posts a fault: it may set `FLT` from 0 to a non-zero code, never otherwise (R235). -/
def runPost (e : FaultRec) (s : State) : Run Unit :=
  if e.code = .noFault then (s, .ok ()) else hostRaise e s

end Sys2Proof.Machine
end

