-- ==== Sys2Proof/Machine/Port.lean ====
section
/-! DEFINITION. The port (30_encoding.md R72 to R74, R78): what one request of the host does. This is where an
instruction is fetched: a command code with its operands, or the byte of a wire format at the cursor. -/

namespace Sys2Proof.Machine

/-- A transaction without a result. -/
def respondUnit (r : Run Unit) : Host.Outcome State Fault Refusal := respond (fun _ => .unit) r

/-- There is no byte at the cursor. An INT or a STR begins with IDEC's first read, whose faults these are (R95); a
continuation byte is missing when an integer is in progress; for a representation R203 gives no outcome. -/
def missingByte (fmt : Format) (s : State) : Host.Outcome State Fault Refusal :=
  match fmt with
  | .rep => .fault .pastEndOfInput
  | .cont => if s.idBusy then respondUnit (hostRaise (truncatedByte s.pos) s) else .fault .strayContinuation
  | _ => respondUnit (hostRaise (if s.pos ≤ s.inp.length then truncatedByte s.pos else illegalOperand) s)

/-- The input byte string a wire request brings, if it brings one (R44). -/
def loadSource (src : Option (Bytes × Nat)) (s : State) : State :=
  match src with
  | some (inp, pos) => loadInput inp pos s
  | none => s

/-- A wire-format element: the byte at the cursor is decoded in its format and executed. While `FLT != 0` the request is
refused before anything is read (R233). A request that brings no string goes on at the cursor an earlier wire request
left; where there is none, right after reset or after an IDEC or a DRAIN of another request, nothing is read (R24, R30)
and the model stops (log entry 22). A request that brings a string and an offset ends an integer in progress (R12, R44; log
entry 21), so a continuation byte asked for with one has nothing to continue (log entry 8). -/
def fetchWire (fmt : Format) (src : Option (Bytes × Nat)) (s : State) : Host.Outcome State Fault Refusal :=
  if s.flt = .noFault then
    let t := loadSource src s
    if t.cursorLive then
      match t.inp[t.pos]? with
      | some b => exec (decodeWire fmt b) t
      | none => missingByte fmt t
    else .fault .noCursor
  else respondUnit (s, .error (recorded s))

/-- A command code with its operands; an unknown code is `IllegalCommand` (R74), tested after the refusal (R238). -/
def fetchCmd (code : Byte) (ops : Operands) (s : State) : Host.Outcome State Fault Refusal :=
  match decode (.cmd code ops) with
  | .ok i => exec i s
  | .error _ => respondUnit (hostRaise illegalCommand s)

/-- What one request does. -/
def serve (r : Request) (s : State) : Host.Outcome State Fault Refusal :=
  match r with
  | .cmd code ops => fetchCmd code ops s
  | .wire fmt src => fetchWire fmt src s
  | .strenc str => respond .bytes (runStrenc params str s)
  | .hfenc h => respond .bytes (runHfenc params h s)
  | .encode hs => respond .bytes (runEncode params hs s)
  | .feed bs => respondUnit (runFeed bs s)
  | .drain => respondUnit (runDrain params s)
  | .eof => respondUnit (runEof s)
  | .post e => respondUnit (runPost e s)
  -- a new instance (R260); what the host has still to present is the host's
  | .reset => .next { State.reset with port := s.port }

/-- The request that stands for an opcode-table row's bits: `tableWord`'s reading of them; after a wire byte the input
string goes on with zeros. -/
def tableRequest (w : Nat) : Request :=
  match tableWord w with
  | .cmd code ops => .cmd code ops
  | .wire fmt b => .wire fmt (some (b :: List.replicate 15 0, 0))

end Sys2Proof.Machine
end

