-- ==== Sys2Proof/Machine/Step.lean ====
section
/-! DEFINITION. One step of the machine: the oldest request of the port is taken and served. With nothing presented the
block does nothing (10_state.md R12: the order of commands is the host's; log entry 1). -/

namespace Sys2Proof.Machine

/-- One step. -/
def step (s : State) : Host.Outcome State Fault Refusal :=
  match s.port with
  | [] => .next s
  | r :: rest => serve r { s with port := rest }

/-- `s` with an opcode-table row's instruction as the next request (log entry 4). -/
def State.withFetchWord (s : State) (_nbits w : Nat) : State := { s with port := tableRequest w :: s.port }

end Sys2Proof.Machine
end

