-- ==== Sys2Proof/Safety.lean ====
section
/-! DEFINITION. What claims about the machine are stated in: the invariants the spec names, what it means that parts of
two states agree, and that a fault was taken. All are decidable. -/

namespace Sys2Proof.Machine

/-- Invariant SUM (10_state.md R14): `DD_TOTAL` is the sum of the costs of `DD_ENT`. -/
abbrev SumHolds (s : State) : Prop := s.ddTotal = totalCost s.ddEnt

/-- Invariant BUDGET (R16): `DD_TOTAL <= DD_MAX`. It is not kept by DPUSH alone. -/
abbrev BudgetHolds (s : State) : Prop := s.ddTotal ≤ s.ddMax

/-- The legal values of `DD_MAX` (R15). -/
abbrev MaxLegal (s : State) : Prop := s.ddMax ≤ Config.ddLimit

/-- `FINFO` is (0, 0, 0) while no fault is recorded (R19, R30). -/
abbrev FaultInfoClear (s : State) : Prop := s.flt = .noFault → s.finfo = ⟨0, 0, 0⟩

/-- The host decoder's phases (R213): `Idle` has an empty buffer, `Feeding` a non-empty one, and a transaction ends in
`Draining` only with a fault. -/
abbrev PhaseHolds (s : State) : Prop :=
  (s.rxState = .idle → s.rxBuf = []) ∧ (s.rxState = .feeding → s.rxBuf ≠ []) ∧
    (s.rxState = .draining → s.flt ≠ .noFault)

/-- The ranges of the working registers (R21, R22, R23): `HE_CNT` 0..31, `HD_CNT` 0..37, the bits of `HD_WIN` below the
buffered ones zero, and an accepted `ID_VAL` never above `INT_MAX`. -/
abbrev RegistersInRange (s : State) : Prop :=
  s.heCnt ≤ 31 ∧ s.hdCnt ≤ 37 ∧ s.hdWin.toNat % 2 ^ (64 - s.hdCnt) = 0 ∧
    (s.idBusy = true → s.idVal ≤ Config.intMax)

/-- The dictionary registers agree. -/
abbrev SameDict (s t : State) : Prop := t.ddEnt = s.ddEnt ∧ t.ddTotal = s.ddTotal ∧ t.ddMax = s.ddMax

/-- The fault registers agree. -/
abbrev SameFault (s t : State) : Prop := t.flt = s.flt ∧ t.finfo = s.finfo

/-- What belongs to the host agrees: its decoder's buffer and phase, what the callback received, what it will present. -/
abbrev SameHost (s t : State) : Prop :=
  t.rxBuf = s.rxBuf ∧ t.rxState = s.rxState ∧ t.delivered = s.delivered ∧ t.port = s.port

/-- HENC's registers agree. -/
abbrev SameHenc (s t : State) : Prop := t.heAcc = s.heAcc ∧ t.heCnt = s.heCnt

/-- HDEC's registers agree. -/
abbrev SameHdec (s t : State) : Prop := t.hdWin = s.hdWin ∧ t.hdCnt = s.hdCnt ∧ t.hdPos = s.hdPos

/-- The five architectural registers (R10) agree. -/
abbrev SameArch (s t : State) : Prop := SameDict s t ∧ SameFault s t

/-- The fault `e` was taken and reported (R232). -/
abbrev TookFault (e : FaultRec) (t : State) : Prop := t.flt = e.code ∧ t.finfo = e.info ∧ t.resp = .fault e

/-- The instruction is a wire byte and that byte stands at the cursor. -/
def AtCursor (i : Instr) (s : State) : Prop := ∃ fmt b, encode i = .wire fmt b ∧ s.inp[s.pos]? = some b

end Sys2Proof.Machine
end

