-- ==== Sys2Proof/WellFormed.lean ====
section
/-! DEFINITION. The operand ranges of the commands (30_encoding.md R72, R74). Every other constructor has no ill-formed
operand: its fields have exactly the values its bits admit. An ill-formed command is not without a meaning: it raises
`IllegalOperand`. -/

namespace Sys2Proof

/-- A prefix width is one of 4, 5, 6, 7. -/
def WellFormed.width (n : Nat) : Bool := 4 ≤ n && n ≤ 7

/-- A tag is a byte whose low `n` bits are zero. -/
def WellFormed.tagFits (n tag : Nat) : Bool := tag < 256 && tag % 2 ^ n == 0

/-- An instruction's operands are in the ranges of R72. -/
def Instr.wellFormed : Instr → Bool
  | .ienc _ n tag => WellFormed.width n && WellFormed.tagFits n tag
  | .idec inp pos n => WellFormed.width n && pos ≤ inp.length
  | .henc _ => true
  | .hdec _ => true
  | .dfind _ _ => true
  | .dfindn _ => true
  | .dget _ => true
  | .dpush _ _ => true
  | .dshrink _ => true
  | .dsetmax _ => true
  | .repIndexed _ => true
  | .repLitInc _ => true
  | .repSizeUpd _ => true
  | .repLitNever _ => true
  | .repLitNoIdx _ => true
  | .strHuff _ => true
  | .strRaw _ => true
  | .intFirstN4 _ _ => true
  | .intFirstN5 _ _ => true
  | .intFirstN6 _ _ => true
  | .intFirstN7 _ _ => true
  | .intCont _ _ => true

end Sys2Proof
end

