-- ==== Sys2Proof/Certificates/Slice0/Obligations.lean ====
section
/-! DEFINITION. The statements for the provers, and the few functions they are stated with. Those functions say what the
wire formats denote (30_encoding.md R69; 45_host_sequences.md R190, R191, R208) without the machine's registers. -/

namespace Sys2Proof.Claims

open Sys2Proof.Machine

/-- The number a tail denotes: seven bits of each byte, least significant group first (R69). -/
def tailValue : Bytes → Nat
  | [] => 0
  | c :: rest => c.toNat % 128 + 128 * tailValue rest

/-- Every byte of a tail has its continuation bit set (R61). -/
def AllContinue (l : Bytes) : Prop := ∀ c ∈ l, 128 ≤ c.toNat

/-- IENC's bytes, for operands that are legal. -/
def intBytes (value n tag : Nat) : Bytes :=
  match ienc value n tag with
  | .ok out => out
  | .error _ => []

/-- STRENC's bytes (R190). -/
def strBytes (str : Bytes) : Bytes :=
  if (hencDef params str).length < str.length then intBytes (hencDef params str).length 7 0x80 ++ hencDef params str
  else intBytes str.length 7 0x00 ++ str

/-- A literal form's bytes (R66, R200). -/
def literalBytes (index n tag : Nat) (name value : Bytes) : Bytes :=
  intBytes index n tag ++ (if index = 0 then strBytes name else []) ++ strBytes value

/-- The string literal at an offset and the next offset, or the fault (R191). -/
def strAt (inp : Bytes) (pos : Nat) : Except FaultRec (Bytes × Nat) :=
  match idec params.intMax inp pos 7 with
  | .error e => .error e
  | .ok r =>
    let start := pos + r.consumed
    if inp.length - start < r.value then .error (truncatedBody start r.value (inp.length - start))
    else if r.tag = 0x80 then
      match hdecDef params ((inp.drop start).take r.value) with
      | .ok out => .ok (out, start + r.value)
      | .error e => .error e
    else .ok ((inp.drop start).take r.value, start + r.value)

/-- The name of a literal at an offset, given its index (R208). -/
def nameAt (ent : List Entry) (inp : Bytes) (pos index : Nat) : Except FaultRec (Bytes × Nat) :=
  if index = 0 then strAt inp pos
  else
    match dictRead params ent index with
    | .ok e => .ok (e.name, pos)
    | .error e => .error e

/-- `Literal(in, pos, N)`: name, value, next offset, or the first fault in stream order (R208). -/
def literalAt (ent : List Entry) (inp : Bytes) (pos n : Nat) : Except FaultRec (Bytes × Bytes × Nat) :=
  match idec params.intMax inp pos n with
  | .error e => .error e
  | .ok r =>
    match nameAt ent inp (pos + r.consumed) r.value with
    | .error e => .error e
    | .ok name =>
      match strAt inp name.2 with
      | .error e => .error e
      | .ok value => .ok (name.1, value.1, value.2)

/-- The fault a representation or a string literal at the cursor meets, if any (R191, R204 to R208). -/
def wireFault (s : State) : Instr → Option FaultRec
  | .repIndexed _ =>
    match idec params.intMax s.inp s.pos 7 with
    | .error e => some e
    | .ok r =>
      match dictRead params s.ddEnt r.value with
      | .error e => some e
      | .ok _ => none
  | .repSizeUpd _ =>
    match idec params.intMax s.inp s.pos 5 with
    | .error e => some e
    | .ok r => if Config.ddLimit < r.value then some (sizeUpdateRange r.value Config.ddLimit) else none
  | .repLitInc _ =>
    match literalAt s.ddEnt s.inp s.pos 6 with
    | .error e => some e
    | .ok _ => none
  | .repLitNever _ =>
    match literalAt s.ddEnt s.inp s.pos 4 with
    | .error e => some e
    | .ok _ => none
  | .repLitNoIdx _ =>
    match literalAt s.ddEnt s.inp s.pos 4 with
    | .error e => some e
    | .ok _ => none
  | .strHuff _ =>
    match strAt s.inp s.pos with
    | .error e => some e
    | .ok _ => none
  | .strRaw _ =>
    match strAt s.inp s.pos with
    | .error e => some e
    | .ok _ => none
  | _ => none

/-- The continuation bytes of an integer executed one at a time while one is in progress. -/
def contBytes : Bytes → State → Host.Outcome State Fault Refusal
  | [], s => .next s
  | c :: rest, s =>
    match exec (decodeWire .cont c) s with
    | .next t => if t.idBusy then contBytes rest t else .next t
    | o => o

/-- The format of an INT's first byte for a prefix width. -/
def intFormat (n : Nat) : Format := if n = 4 then .int4 else if n = 5 then .int5 else if n = 6 then .int6 else .int7

/-- HFDEC run representation by representation over a buffer, each field handed to the callback (R211): the state
reached, and whether the end of the buffer was reached without a fault. -/
def drainBy (buf : Bytes) : (fuel pos : Nat) → State → State × Bool
  | 0, _, s => (s, true)
  | fuel + 1, pos, s =>
    if pos < buf.length then
      match serve (.wire .rep (some (buf, pos))) s with
      | .next t =>
        match t.resp with
        | .ok (.rep field newpos) => drainBy buf fuel newpos (deliver field t)
        | _ => (t, false)
      | _ => (s, false)
    else (s, true)

/-- With no fault recorded, the oldest request is for a byte in this wire format, and `t` is the state it is read in: the
input string and offset the request brings are loaded; without a string, an earlier request has left a cursor. -/
def WireReads (fmt : Format) (s t : State) : Prop :=
  s.flt = .noFault ∧ ∃ src rest, s.port = .wire fmt src :: rest ∧
    match src with
    | some (inp, pos) => t = { s with port := rest, inp := inp, pos := pos, cursorLive := true, idBusy := false }
    | none => s.cursorLive = true ∧ t = { s with port := rest }

/-- An encoder's instance and its mirror decoder, between two blocks: no fault, equal dictionaries within budget, the
decoder's buffer empty, and every index within the decoder's integer bound (R29, R214). -/
def Mirrored (enc dec : State) : Prop :=
  enc.flt = .noFault ∧ dec.flt = .noFault ∧ SameDict enc dec ∧ SumHolds enc ∧ BudgetHolds enc ∧
    61 + enc.ddMax / 32 ≤ Config.intMax ∧ dec.rxBuf = [] ∧ dec.rxState = .idle

/-- The rounds of a connection: each block is encoded, fed and drained without a fault, its headers are delivered in order,
and encoder and decoder are mirrored again. -/
def RoundTrip : List (List Header) → State → State → Prop
  | [], _, _ => True
  | hs :: rest, enc, dec =>
    ∃ enc' fed dec' out, serve (.encode hs) enc = .next enc' ∧ enc'.resp = .ok (.bytes out) ∧
      serve (.feed out) dec = .next fed ∧ serve .drain fed = .next dec' ∧ dec'.resp = .ok .unit ∧
      dec'.delivered = dec.delivered ++ hs.map (fun h => ⟨h.name, h.value, h.sensitive⟩) ∧ Mirrored enc' dec' ∧
      RoundTrip rest enc' dec'

/-- The strings of a header are within the decoder's integer bound (R209). -/
def HeaderFits (h : Header) : Prop := h.name.length ≤ Config.intMax ∧ h.value.length ≤ Config.intMax

end Sys2Proof.Claims

open Sys2Proof Sys2Proof.Machine Sys2Proof.Claims

/-! ### Encoding -/

/-- R72, R61, R63 to R67: a few words written out from the encodings. -/
def Obligations.WordsDecodeAsTheSpecWritesThem : Prop :=
  decode (.cmd 0x01 { value := 1337, n := 5, tag := 0x20 }) = .ok (.ienc 1337 5 0x20) ∧
  decode (.cmd 0x02 { str1 := [0x1f#8, 0x9a#8, 0x0a#8], pos := 1, n := 6 }) = .ok (.idec [0x1f#8, 0x9a#8, 0x0a#8] 1 6) ∧
  decode (.cmd 0x10 { str1 := [0x61#8], str2 := [0x62#8] }) = .ok (.dfind [0x61#8] [0x62#8]) ∧
  decode (.cmd 0x15 { value := 4096 }) = .ok (.dsetmax 4096) ∧
  decode (.wire .rep 0b10000010) = .ok (.repIndexed 2) ∧
  decode (.wire .rep 0b01111110) = .ok (.repLitInc 62) ∧
  decode (.wire .rep 0b00111111) = .ok (.repSizeUpd 31) ∧
  decode (.wire .rep 0b00010010) = .ok (.repLitNever 2) ∧
  decode (.wire .rep 0b00001111) = .ok (.repLitNoIdx 15) ∧
  decode (.wire .str 0b10000010) = .ok (.strHuff 2) ∧
  decode (.wire .str 0b00000011) = .ok (.strRaw 3) ∧
  decode (.wire .int5 0b11101010) = .ok (.intFirstN5 7 10) ∧
  decode (.wire .cont 0b10011010) = .ok (.intCont 1 26)

/-- R68: the five patterns partition the 256 first bytes into these ranges. -/
def Obligations.FirstByteRangesOfRepresentations : Prop :=
  ∀ b : Byte,
    (0x80 ≤ b.toNat ↔ ∃ p, decodeRep b = .indexed p) ∧
    (0x40 ≤ b.toNat ∧ b.toNat ≤ 0x7F ↔ ∃ p, decodeRep b = .litInc p) ∧
    (0x20 ≤ b.toNat ∧ b.toNat ≤ 0x3F ↔ ∃ p, decodeRep b = .sizeUpd p) ∧
    (0x10 ≤ b.toNat ∧ b.toNat ≤ 0x1F ↔ ∃ p, decodeRep b = .litNever p) ∧
    (b.toNat ≤ 0x0F ↔ ∃ p, decodeRep b = .litNoIdx p)

/-- Decoding an encoded instruction gives it back, for every constructor and every operand, legal or not. -/
def Obligations.DecodeUndoesEncode : Prop := ∀ i : Instr, decode (encode i) = .ok i

/-- In each wire format every byte has one meaning, and encoding that meaning gives the byte back. -/
def Obligations.EncodeUndoesWireDecode : Prop := ∀ (fmt : Format) (b : Byte), encode (decodeWire fmt b) = .wire fmt b

/-! ### Steps, reset, faults -/

/-- A step serves the oldest request, and does nothing when none is presented. A command's decoded instruction is
executed. A wire request executes the byte at the cursor, decoded in its format; with an input string given, that string
and offset are loaded first. Where there is no byte at the cursor, an INT or a STR takes the fault of IDEC's first read
and a continuation byte of an integer in progress that of IDEC's loop.

The model's own, not the spec's: the queue of requests and the idle step (log entry 1); that a byte of an INT is executed
by itself (log entry 3, DEDUCED); that an integer in progress ends where a request brings a string and an offset (log
entry 21, DEDUCED from R12 and R44); that a request without a string goes on at the cursor an earlier request left,
and stops where there is none (log entry 22); the faults of a missing byte asked for by itself (log entry 20, DEDUCED), and
the stops where a continuation byte continues nothing (log entry 8) or a representation is missing (log entry 9). -/
def Obligations.StepRunsTheDecodedInstruction : Prop :=
  (∀ s : State, s.port = [] → step s = .next s) ∧
  (∀ (s : State) (r : Request) (rest : List Request),
    s.port = r :: rest → step s = serve r { s with port := rest }) ∧
  (∀ (s : State) (code : Byte) (ops : Operands) (rest : List Request) (i : Instr),
    s.port = .cmd code ops :: rest → decode (.cmd code ops) = .ok i → step s = exec i { s with port := rest }) ∧
  (∀ (s t : State) (fmt : Format) (b : Byte) (i : Instr), WireReads fmt s t →
    t.inp[t.pos]? = some b → decode (.wire fmt b) = .ok i → step s = exec i t) ∧
  (∀ (s t : State) (fmt : Format), WireReads fmt s t → t.inp[t.pos]? = none →
    step s =
      match fmt with
      | .rep => .fault .pastEndOfInput
      | .cont =>
        if t.idBusy then
          .next { t with flt := .truncated, finfo := ⟨t.pos, 1, 0⟩, resp := .fault ⟨.truncated, t.pos, 1, 0⟩ }
        else .fault .strayContinuation
      | _ =>
        if t.pos ≤ t.inp.length then
          .next { t with flt := .truncated, finfo := ⟨t.pos, 1, 0⟩, resp := .fault ⟨.truncated, t.pos, 1, 0⟩ }
        else .next { t with flt := .illegalOperand, finfo := ⟨0, 0, 0⟩, resp := .fault ⟨.illegalOperand, 0, 0, 0⟩ }) ∧
  (∀ (s : State) (fmt : Format) (rest : List Request),
    s.port = .wire fmt none :: rest → s.flt = .noFault → s.cursorLive = false → step s = .fault .noCursor)

/-- R30, R260: the values the spec states for reset, in `State.reset` and after the reset input. R30 has `RX_BUF` empty and
`RX_STATE` idle when the host creates its decoder; that the reset input, too, leaves them so is the model's choice (log
entry 13). -/
def Obligations.ResetValues : Prop :=
  ∀ s : State, ∃ t, serve .reset s = .next t ∧ ∀ r ∈ [State.reset, t],
      r.ddEnt = [] ∧ r.ddTotal = 0 ∧ r.ddMax = Config.ddMaxInit ∧ r.flt = .noFault ∧ r.finfo = ⟨0, 0, 0⟩ ∧
        r.rxBuf = [] ∧ r.rxState = .idle

/-- R233: while a fault is recorded every instruction is refused with the recorded fault and changes nothing; the same
holds for FEED, DRAIN and EOF, for wire requests and for command codes, known or not (first test of R238). That the byte of
an INT is an instruction of its own, and so is refused like one, is the model's reading of the opcode table (log entry 3);
that a wire request is refused before its input is loaded is the model's, too (log entry 18). -/
def Obligations.EverythingIsRefusedWhileFaulted : Prop :=
  (∀ (i : Instr) (s : State), s.flt ≠ .noFault → exec i s = .next { s with resp := .fault ⟨s.flt, s.finfo⟩ }) ∧
  (∀ (r : Request) (s : State), s.flt ≠ .noFault →
    (r = .drain ∨ r = .eof ∨ (∃ bs, r = .feed bs) ∨ (∃ fmt src, r = .wire fmt src) ∨ (∃ code ops, r = .cmd code ops)) →
    serve r s = .next { s with resp := .fault ⟨s.flt, s.finfo⟩ })

/-- R18, R237: the first fault stays recorded and the dictionary stays as it is, whatever is presented but reset, which
clears it. -/
def Obligations.FirstFaultStaysUntilReset : Prop :=
  (∀ (r : Request) (s t : State), s.flt ≠ .noFault → r ≠ .reset → serve r s = .next t → SameArch s t) ∧
  (∀ s : State, ∃ t, serve .reset s = .next t ∧ t.flt = .noFault) ∧ State.reset.flt = .noFault

/-- R232: an instruction that takes a fault writes no dictionary register and reports what it records; one that takes
none leaves the fault registers alone and answers with a result (R73). For a byte of an INT, that it is executed by itself is
the model's reading of the opcode table (log entry 3), and that one which leaves the integer incomplete answers `Ok(more)` is
the model's choice (log entry 23). -/
def Obligations.FaultsArePrecise : Prop :=
  ∀ (i : Instr) (s t : State), s.flt = .noFault → exec i s = .next t →
    (t.flt ≠ .noFault → SameDict s t ∧ t.resp = .fault ⟨t.flt, t.finfo⟩) ∧
    (t.flt = .noFault → t.finfo = s.finfo ∧ ∃ r, t.resp = .ok r)

/-- R74: operands outside their ranges, and a command code that is none of R72's ten. -/
def Obligations.IllegalOperandsAndCodesFault : Prop :=
  ∀ s : State, s.flt = .noFault →
    (∀ value n tag, (Instr.ienc value n tag).wellFormed = false → exec (.ienc value n tag) s =
      .next { s with flt := .illegalOperand, finfo := ⟨0, 0, 0⟩, resp := .fault ⟨.illegalOperand, 0, 0, 0⟩ }) ∧
    (∀ inp pos n, (Instr.idec inp pos n).wellFormed = false → exec (.idec inp pos n) s =
      .next { s with flt := .illegalOperand, finfo := ⟨0, 0, 0⟩, resp := .fault ⟨.illegalOperand, 0, 0, 0⟩ }) ∧
    (∀ (code : Byte) (ops : Operands),
      code.toNat ∉ [0x01, 0x02, 0x03, 0x04, 0x10, 0x11, 0x12, 0x13, 0x14, 0x15] → serve (.cmd code ops) s =
      .next { s with flt := .illegalCommand, finfo := ⟨0, 0, 0⟩, resp := .fault ⟨.illegalCommand, 0, 0, 0⟩ })

/-- R235: the host may set `FLT` from 0 to a non-zero code, never otherwise. That posting code 0 does nothing is the
model's choice (log entry 17). -/
def Obligations.HostPostsAFaultOnlyOnce : Prop :=
  ∀ (s : State) (e : FaultRec),
    (s.flt = .noFault → e.code ≠ .noFault →
      serve (.post e) s = .next { s with flt := e.code, finfo := e.info, resp := .fault e }) ∧
    (s.flt ≠ .noFault ∨ e.code = .noFault → ∃ t, serve (.post e) s = .next t ∧ SameArch s t)

/-! ### Integer unit -/

/-- R92, R93: IENC's bytes. They denote the value (R69), each continuation byte but the last has C = 1, and the tail is
minimal: as long as R93 says, its last byte zero only when it is the one byte of the value `2^n - 1`. -/
def Obligations.IencEmitsTheMinimalEncoding : Prop :=
  ∀ (value n tag : Nat) (s : State), s.flt = .noFault → (Instr.ienc value n tag).wellFormed = true →
    (value < 2 ^ n - 1 →
      exec (.ienc value n tag) s = .next { s with resp := .ok (.bytes [BitVec.ofNat 8 (tag + value)]) }) ∧
    (2 ^ n - 1 ≤ value → ∃ (conts : Bytes) (last : Byte),
      exec (.ienc value n tag) s =
        .next { s with resp := .ok (.bytes (BitVec.ofNat 8 (tag + (2 ^ n - 1)) :: (conts ++ [last]))) } ∧
      AllContinue conts ∧ last.toNat < 128 ∧ 2 ^ n - 1 + tailValue (conts ++ [last]) = value ∧
      (last.toNat = 0 → conts = []) ∧ value - (2 ^ n - 1) < 128 ^ (conts.length + 1) ∧
      (conts ≠ [] → 128 ^ conts.length ≤ value - (2 ^ n - 1)))

/-- R95: a value in the prefix alone. `cursorLive`, `idTag` and `idBusy`, which it writes, are
the model's own (log entries 3 and 22). -/
def Obligations.IdecReadsAPrefixValue : Prop :=
  ∀ (inp : Bytes) (pos n : Nat) (b : Byte) (s : State), s.flt = .noFault → 4 ≤ n → n ≤ 7 →
    inp[pos]? = some b → b.toNat % 2 ^ n < 2 ^ n - 1 →
    exec (.idec inp pos n) s =
      .next { s with
        inp := inp, pos := pos + 1, cursorLive := false
        idVal := b.toNat % 2 ^ n, idI := 0, idTag := b.toNat - b.toNat % 2 ^ n
        idBusy := false
        resp := .ok (.int ⟨b.toNat % 2 ^ n, b.toNat - b.toNat % 2 ^ n, 1⟩) }

/-- R69, R95, R96: a value with continuation bytes, minimal or not. `cursorLive`, `idTag` and `idBusy`, which it writes, are
the model's own (log entries 3 and 22). -/
def Obligations.IdecReadsATail : Prop :=
  ∀ (pre conts rest : Bytes) (b last : Byte) (n : Nat) (s : State), s.flt = .noFault → 4 ≤ n → n ≤ 7 →
    b.toNat % 2 ^ n = 2 ^ n - 1 → AllContinue conts → last.toNat < 128 →
    2 ^ n - 1 + tailValue (conts ++ [last]) ≤ Config.intMax →
    exec (.idec (pre ++ b :: (conts ++ last :: rest)) pre.length n) s =
      .next { s with
        inp := pre ++ b :: (conts ++ last :: rest), pos := pre.length + conts.length + 2, cursorLive := false
        idVal := 2 ^ n - 1 + tailValue (conts ++ [last]), idI := conts.length + 1, idTag := b.toNat - (2 ^ n - 1)
        idBusy := false
        resp := .ok (.int
          ⟨2 ^ n - 1 + tailValue (conts ++ [last]), b.toNat - (2 ^ n - 1), conts.length + 2⟩) }

/-- R94, R95: IDEC's faults in stream order. The first byte, or a needed continuation byte, is beyond the end of the
input; or a continuation byte takes the value above `INT_MAX`, and then whatever follows it is not read. -/
def Obligations.IdecFaultsInStreamOrder : Prop :=
  ∀ (pre conts rest : Bytes) (b c : Byte) (n : Nat) (s : State), s.flt = .noFault → 4 ≤ n → n ≤ 7 →
    (∃ t, exec (.idec pre pre.length n) s = .next t ∧ SameDict s t ∧ SameHost s t ∧
      TookFault ⟨.truncated, pre.length, 1, 0⟩ t) ∧
    (b.toNat % 2 ^ n = 2 ^ n - 1 → AllContinue conts → 2 ^ n - 1 + tailValue conts ≤ Config.intMax →
      (∃ t, exec (.idec (pre ++ b :: conts) pre.length n) s = .next t ∧ SameDict s t ∧ SameHost s t ∧
        TookFault ⟨.truncated, pre.length + conts.length + 1, 1, 0⟩ t) ∧
      (Config.intMax < 2 ^ n - 1 + tailValue (conts ++ [c]) →
        ∃ t, exec (.idec (pre ++ b :: (conts ++ c :: rest)) pre.length n) s = .next t ∧ SameDict s t ∧ SameHost s t ∧
          TookFault
            ⟨.integerOverflow, pre.length + conts.length + 1, Config.intMax, 2 ^ n - 1 + tailValue (conts ++ [c])⟩ t))

/-- R97: IDEC undoes IENC up to the decoder's bound, whatever follows in the stream; above the bound the encoder succeeds
and the decoder faults. -/
def Obligations.IdecUndoesIenc : Prop :=
  ∀ (value n tag : Nat) (rest : Bytes) (s : State), s.flt = .noFault → (Instr.ienc value n tag).wellFormed = true →
    ∃ u out, exec (.ienc value n tag) s = .next u ∧ u.resp = .ok (.bytes out) ∧
      (value ≤ Config.intMax →
        ∃ t, exec (.idec (out ++ rest) 0 n) u = .next t ∧ t.resp = .ok (.int ⟨value, tag, out.length⟩)) ∧
      (Config.intMax < value → ∃ t, exec (.idec (out ++ rest) 0 n) u = .next t ∧ t.flt = .integerOverflow)

/-- IDEC's result and fault are those of the function `idec`, in which the statements about strings and representations
are written. -/
def Obligations.IdecFollowsItsFunction : Prop :=
  ∀ (inp : Bytes) (pos n : Nat) (s : State), s.flt = .noFault →
    ∃ t, exec (.idec inp pos n) s = .next t ∧ SameDict s t ∧ SameHost s t ∧ SameHenc s t ∧ SameHdec s t ∧
      (∀ r, idec Config.intMax inp pos n = .ok r → SameFault s t ∧ t.resp = .ok (.int r)) ∧
      (∀ e, idec Config.intMax inp pos n = .error e → TookFault e t)

/-- R61, R95: the first byte of an INT, for each prefix width. That such a byte is executed by itself is the model's
reading of the opcode table (log entry 3), and the answer `more` where it leaves the integer incomplete is the model's
choice (log entry 23), as is that a later request can go on at the cursor (`cursorLive`, log entry 22). -/
def Obligations.IntFirstByteSteps : Prop :=
  ∀ s : State, s.flt = .noFault →
    (∀ (tag : BitVec 4) (pfx : BitVec 4), exec (.intFirstN4 tag pfx) s =
      .next { s with
        pos := s.pos + 1, cursorLive := true
        idVal := pfx.toNat, idI := 0, idTag := 16 * tag.toNat, idBusy := decide (pfx.toNat = 15)
        resp := .ok (if pfx.toNat = 15 then .more else .int ⟨pfx.toNat, 16 * tag.toNat, 1⟩) }) ∧
    (∀ (tag : BitVec 3) (pfx : BitVec 5), exec (.intFirstN5 tag pfx) s =
      .next { s with
        pos := s.pos + 1, cursorLive := true
        idVal := pfx.toNat, idI := 0, idTag := 32 * tag.toNat, idBusy := decide (pfx.toNat = 31)
        resp := .ok (if pfx.toNat = 31 then .more else .int ⟨pfx.toNat, 32 * tag.toNat, 1⟩) }) ∧
    (∀ (tag : BitVec 2) (pfx : BitVec 6), exec (.intFirstN6 tag pfx) s =
      .next { s with
        pos := s.pos + 1, cursorLive := true
        idVal := pfx.toNat, idI := 0, idTag := 64 * tag.toNat, idBusy := decide (pfx.toNat = 63)
        resp := .ok (if pfx.toNat = 63 then .more else .int ⟨pfx.toNat, 64 * tag.toNat, 1⟩) }) ∧
    (∀ (tag : BitVec 1) (pfx : BitVec 7), exec (.intFirstN7 tag pfx) s =
      .next { s with
        pos := s.pos + 1, cursorLive := true
        idVal := pfx.toNat, idI := 0, idTag := 128 * tag.toNat, idBusy := decide (pfx.toNat = 127)
        resp := .ok (if pfx.toNat = 127 then .more else .int ⟨pfx.toNat, 128 * tag.toNat, 1⟩) })

/-- R95, R94: a continuation byte adds its group at `7 * ID_I`; the last one delivers the integer; above `INT_MAX` it
faults. That a continuation byte is executed by itself, with an integer in progress between two bytes, is the model's
reading of the opcode table (log entry 3), and its answer `more` where it is not the last is the model's choice (log entry
23), as is that a later request can go on at the cursor (`cursorLive`, log entry 22). With no integer in progress there is
nothing to continue, and the model stops: that clause is the model's choice (log entry 8). -/
def Obligations.IntContinuationByteSteps : Prop :=
  ∀ (c : BitVec 1) (group : BitVec 7) (s : State), s.flt = .noFault →
    (s.idBusy = true → s.idVal + group.toNat * 2 ^ (7 * s.idI) ≤ Config.intMax → exec (.intCont c group) s =
      .next { s with
        pos := s.pos + 1, cursorLive := true
        idVal := s.idVal + group.toNat * 2 ^ (7 * s.idI), idI := s.idI + 1, idBusy := decide (c = 1#1)
        resp := .ok (if c = 1#1 then .more
          else .int ⟨s.idVal + group.toNat * 2 ^ (7 * s.idI), s.idTag, s.idI + 2⟩) }) ∧
    (s.idBusy = true → Config.intMax < s.idVal + group.toNat * 2 ^ (7 * s.idI) →
      ∃ t, exec (.intCont c group) s = .next t ∧ SameDict s t ∧ SameHost s t ∧
        TookFault ⟨.integerOverflow, s.pos, Config.intMax, s.idVal + group.toNat * 2 ^ (7 * s.idI)⟩ t) ∧
    (s.idBusy = false → exec (.intCont c group) s = .fault .strayContinuation)

/-- R95, R50: an integer executed byte by byte gives what IDEC gives, result or fault, for every input whose integer
does not run off its end. Executing single bytes is the model's reading of the opcode table (log entry 3). -/
def Obligations.IntegerBytesMakeUpIdec : Prop :=
  ∀ (pre rest : Bytes) (b : Byte) (n : Nat) (s t : State), s.flt = .noFault → 4 ≤ n → n ≤ 7 →
    s.inp = pre ++ b :: rest → s.pos = pre.length →
    exec (.idec (pre ++ b :: rest) pre.length n) s = .next t → t.flt ≠ .truncated →
    ∃ u v, exec (decodeWire (intFormat n) b) s = .next u ∧
      (if u.idBusy then contBytes rest u else .next u) = .next v ∧
      v.resp = t.resp ∧ SameArch t v ∧ v.pos = t.pos

/-! ### Huffman unit -/

/-- R142: `HDEC_ROM` lists the 256 byte symbols by strictly increasing left-justified code, which is the order of length
and symbol, each with the length and code `HUFF_ROM` gives it. -/
def Obligations.DecodeTableMatchesCodeTable : Prop :=
  params.huffRom.length = 257 ∧ params.hdecRom.length = 256 ∧
  (∀ row ∈ params.hdecRom, row.symbol < 256 ∧ row.len = hlen params row.symbol ∧
    row.aligned = hcode params row.symbol * 2 ^ (32 - hlen params row.symbol)) ∧
  (params.hdecRom.Pairwise fun a b =>
    a.aligned < b.aligned ∧ (a.len < b.len ∨ (a.len = b.len ∧ a.symbol < b.symbol))) ∧
  (∃ row, params.hdecRom[0]? = some row ∧ row.aligned = 0) ∧
  (∃ row, params.hdecRom[255]? = some row ∧ row.aligned = 0xfffffff8)

/-- R139, R140, R143 (1), (2), (4): lengths 5 to 30, each code below `2^length`, prefix-free, complete, and only the end
marker's code all ones. -/
def Obligations.CodeIsPrefixFreeAndComplete : Prop :=
  (∀ s ≤ 256, 5 ≤ hlen params s ∧ hlen params s ≤ 30 ∧ hcode params s < 2 ^ hlen params s) ∧
  (∀ a ≤ 256, ∀ b ≤ 256, a ≠ b →
    ¬ codeBits (hcode params a) (hlen params a) <+: codeBits (hcode params b) (hlen params b)) ∧
  ((List.range 257).map fun s => 2 ^ (30 - hlen params s)).sum = 2 ^ 30 ∧
  (∀ s ≤ 256, hcode params s = 2 ^ hlen params s - 1 ↔ s = 256)

/-- R111, R117: HENC delivers the codes' bits padded with ones; the accumulator procedure the command runs and the
definition over bits agree, and only the hidden registers change. -/
def Obligations.HencDeliversTheDefinition : Prop :=
  ∀ (str : Bytes) (s : State), s.flt = .noFault →
    ∃ acc cnt, exec (.henc str) s =
      .next { s with heAcc := acc, heCnt := cnt, resp := .ok (.bytes (hencDef params str)) }

/-- R118: the length of HENC's output. -/
def Obligations.HencOutputLength : Prop :=
  ∀ (str : Bytes) (s : State), s.flt = .noFault →
    ∃ t out, exec (.henc str) s = .next t ∧ t.resp = .ok (.bytes out) ∧
      out.length = ((str.map fun b => hlen params b.toNat).sum + 7) / 8 ∧
      (5 * str.length + 7) / 8 ≤ out.length ∧ out.length ≤ (30 * str.length + 7) / 8

/-- R119, R129: HDEC delivers what the definition over bit positions delivers, result or fault; the window procedure the
command runs and the definition agree, and only the hidden registers change. -/
def Obligations.HdecDeliversTheDefinition : Prop :=
  ∀ (inp : Bytes) (s : State), s.flt = .noFault →
    ∃ win cnt pos,
      (∀ out, hdecDef params inp = .ok out → exec (.hdec inp) s =
        .next { s with hdWin := win, hdCnt := cnt, hdPos := pos, resp := .ok (.bytes out) }) ∧
      (∀ e, hdecDef params inp = .error e → exec (.hdec inp) s =
        .next { s with
          hdWin := win, hdCnt := cnt, hdPos := pos, flt := e.code, finfo := e.info, resp := .fault e })

/-- R130: HDEC undoes HENC on every byte string. -/
def Obligations.HdecUndoesHenc : Prop :=
  ∀ (str : Bytes) (s : State), s.flt = .noFault →
    ∃ u t coded, exec (.henc str) s = .next u ∧ u.resp = .ok (.bytes coded) ∧
      exec (.hdec coded) u = .next t ∧ t.resp = .ok (.bytes str)

/-- R131: whole symbols may be followed by the end marker and then by anything, or by one-bits of any length: HDEC
delivers the symbols before, and no fault. -/
def Obligations.HdecStopsAtEndMarkerOrPadding : Prop :=
  ∀ (str inp : Bytes) (s : State), s.flt = .noFault →
    ((∃ rest, bitStream inp = hencBits params str ++ (List.replicate 30 true ++ rest)) ∨
      ∃ k, bitStream inp = hencBits params str ++ List.replicate k true) →
    ∃ t, exec (.hdec inp) s = .next t ∧ t.resp = .ok (.bytes str) ∧ SameArch s t

/-- R119, R127: `HuffmanInvalid` reports a code that runs past the real input: it is longer than the real bits that
remain. With the default table no other fault occurs. -/
def Obligations.HdecFaultsOnlyOnAnOverrun : Prop :=
  ∀ (inp : Bytes) (s t : State), s.flt = .noFault → exec (.hdec inp) s = .next t → t.flt ≠ .noFault →
    t.flt = .huffmanInvalid ∧ t.finfo.off + t.finfo.avail = 8 * inp.length ∧ 0 < t.finfo.avail ∧
      t.finfo.avail < t.finfo.need ∧ t.finfo.need ≤ 30

/-! ### Dictionary engine -/

/-- R151, R152, R155: DFIND gives the least index whose entry matches name and value, 0 when there is none, and changes
nothing. -/
def Obligations.DfindGivesTheLeastMatch : Prop :=
  ∀ (name value : Bytes) (s : State), s.flt = .noFault →
    ∃ i, exec (.dfind name value) s = .next { s with resp := .ok (.index i) } ∧
      (i ≠ 0 → dictRead params s.ddEnt i = .ok ⟨name, value⟩) ∧
      (∀ j, 1 ≤ j → (j < i ∨ i = 0) → dictRead params s.ddEnt j ≠ .ok ⟨name, value⟩)

/-- R152, R156: DFINDN gives the least index whose entry matches the name, 0 when there is none, and changes nothing. -/
def Obligations.DfindnGivesTheLeastNameMatch : Prop :=
  ∀ (name : Bytes) (s : State), s.flt = .noFault →
    ∃ i, exec (.dfindn name) s = .next { s with resp := .ok (.index i) } ∧
      (i ≠ 0 → ∃ value, dictRead params s.ddEnt i = .ok ⟨name, value⟩) ∧
      (∀ j, 1 ≤ j → (j < i ∨ i = 0) → ∀ value, dictRead params s.ddEnt j ≠ .ok ⟨name, value⟩)

/-- R42, R157: DGET over the combined index space, and its fault outside it. Each of the indices 1 to 61 has a static row
(R180). -/
def Obligations.DgetReadsTheCombinedIndexSpace : Prop :=
  params.staticRom.length = 61 ∧
  ∀ (index : Nat) (s : State), s.flt = .noFault →
    (∀ e, 1 ≤ index → index ≤ 61 → params.staticRom[index - 1]? = some e →
      exec (.dget index) s = .next { s with resp := .ok (.entry e) }) ∧
    (∀ e, 62 ≤ index → s.ddEnt[index - 62]? = some e →
      exec (.dget index) s = .next { s with resp := .ok (.entry e) }) ∧
    (index = 0 ∨ 61 + s.ddEnt.length < index →
      exec (.dget index) s =
        .next { s with
          flt := .invalidIndex, finfo := ⟨0, index, 61 + s.ddEnt.length⟩
          resp := .fault ⟨.invalidIndex, 0, index, 61 + s.ddEnt.length⟩ })

/-- R158, R17: DPUSH, exactly, and its effect on indices. -/
def Obligations.DpushInsertsAtTheNewestPosition : Prop :=
  ∀ (name value : Bytes) (s : State), s.flt = .noFault →
    ∃ t, exec (.dpush name value) s = .next t ∧
      t = { s with
        ddEnt := ⟨name, value⟩ :: s.ddEnt, ddTotal := s.ddTotal + (32 + name.length + value.length)
        resp := .ok .unit } ∧
      dictRead params t.ddEnt 62 = .ok ⟨name, value⟩ ∧
      (∀ i e, 62 ≤ i → dictRead params s.ddEnt i = .ok e → dictRead params t.ddEnt (i + 1) = .ok e) ∧
      (∀ i, 1 ≤ i → i ≤ 61 → dictRead params t.ddEnt i = dictRead params s.ddEnt i)

/-- R159's loop, one turn at a time, in every state: while the total is above the limit the oldest entry goes and its
cost is subtracted; otherwise nothing but the response changes. Where the total is below that cost, which SUM excludes, the
spec's difference has no value; that it is 0 there is the model's choice (log entry 24). -/
def Obligations.DshrinkEvictsTheOldest : Prop :=
  ∀ (limit : Nat) (s : State), s.flt = .noFault →
    (∀ init e, limit < s.ddTotal → s.ddEnt = init ++ [e] →
      ∃ t, exec (.dshrink limit) s = .next t ∧
        exec (.dshrink limit)
          { s with ddEnt := init, ddTotal := s.ddTotal - (32 + e.name.length + e.value.length) } = .next t) ∧
    (s.ddTotal ≤ limit ∨ s.ddEnt = [] → exec (.dshrink limit) s = .next { s with resp := .ok .unit })

/-- R159, R162, R163: with SUM, DSHRINK keeps the longest run of newest entries within the limit, keeps SUM, and writes
neither `DD_MAX` nor anything else. -/
def Obligations.DshrinkKeepsTheNewestThatFit : Prop :=
  ∀ (limit : Nat) (s : State), s.flt = .noFault → SumHolds s →
    ∃ k ≤ s.ddEnt.length,
      exec (.dshrink limit) s =
        .next { s with
          ddEnt := s.ddEnt.take k, ddTotal := totalCost (s.ddEnt.take k), resp := .ok .unit } ∧
      totalCost (s.ddEnt.take k) ≤ limit ∧
      ∀ m, k < m → m ≤ s.ddEnt.length → limit < totalCost (s.ddEnt.take m)

/-- R160: DSETMAX writes `DD_MAX` and shrinks to it; above `DD_LIMIT` it faults and writes nothing else. -/
def Obligations.DsetmaxSetsTheBudgetOrFaults : Prop :=
  ∀ (v : Nat) (s : State), s.flt = .noFault →
    (v ≤ Config.ddLimit →
      ∃ t, exec (.dsetmax v) s = .next t ∧ exec (.dshrink v) { s with ddMax := v } = .next t ∧ t.ddMax = v) ∧
    (Config.ddLimit < v →
      exec (.dsetmax v) s =
        .next { s with
          flt := .sizeUpdateRange, finfo := ⟨0, v, Config.ddLimit⟩
          resp := .fault ⟨.sizeUpdateRange, 0, v, Config.ddLimit⟩ })

/-- R16, R162: with SUM, BUDGET holds after a DSHRINK to at most `DD_MAX` and after every DSETMAX that does not fault,
and then at most `DD_MAX / 32` entries remain. -/
def Obligations.BudgetHoldsAfterShrinking : Prop :=
  ∀ s t : State, s.flt = .noFault → SumHolds s →
    ((∃ limit ≤ s.ddMax, exec (.dshrink limit) s = .next t) ∨
      (∃ v ≤ Config.ddLimit, exec (.dsetmax v) s = .next t)) →
    SumHolds t ∧ BudgetHolds t ∧ t.ddEnt.length ≤ t.ddMax / 32

/-- R161: the insertion as the host performs it, DPUSH and then DSHRINK to `DD_MAX`. The new entry is at index 62 above
as many of the older ones as fit; one that costs more than `DD_MAX` leaves the dictionary empty, without a fault. -/
def Obligations.InsertionIsPushThenShrink : Prop :=
  ∀ (name value : Bytes) (s : State), s.flt = .noFault → SumHolds s →
    ∃ u t, exec (.dpush name value) s = .next u ∧ exec (.dshrink u.ddMax) u = .next t ∧
      SumHolds t ∧ BudgetHolds t ∧ t.ddMax = s.ddMax ∧ SameFault s t ∧
      (32 + name.length + value.length ≤ s.ddMax →
        ∃ k ≤ s.ddEnt.length, t.ddEnt = ⟨name, value⟩ :: s.ddEnt.take k ∧
          ∀ m, k < m → m ≤ s.ddEnt.length → s.ddMax < totalCost (⟨name, value⟩ :: s.ddEnt.take m)) ∧
      (s.ddMax < 32 + name.length + value.length → t.ddEnt = [] ∧ t.ddTotal = 0)

/-- R52: the commands that read change no architectural register when they do not fault, and answer the same when
repeated; a second identical DSHRINK or DSETMAX changes nothing; each DPUSH inserts another entry. -/
def Obligations.ReadsHaveNoEffectAndShrinksAreIdempotent : Prop :=
  (∀ (i : Instr) (s t : State),
    (match i with
      | .ienc .. | .idec .. | .henc .. | .hdec .. | .dfind .. | .dfindn .. | .dget .. => True
      | _ => False) →
    exec i s = .next t → (s.flt = .noFault → t.flt = .noFault) →
    SameArch s t ∧ ∃ u, exec i t = .next u ∧ u.resp = t.resp) ∧
  (∀ (i : Instr) (s t : State),
    (match i with
      | .dshrink .. | .dsetmax .. => True
      | _ => False) →
    exec i s = .next t → exec i t = .next t) ∧
  (∀ (name value : Bytes) (s : State), s.flt = .noFault →
    ∃ u t, exec (.dpush name value) s = .next u ∧ exec (.dpush name value) u = .next t ∧
      t.ddEnt = ⟨name, value⟩ :: ⟨name, value⟩ :: s.ddEnt)

/-! ### String literals and representations -/

/-- R191: a string literal at the cursor, with a coded or a raw body. The strings of either flag and every length are
covered by `strAt`, which reads the same bytes. Only IDEC's registers, the cursor and, for a coded body, HDEC's registers
change. Executing a first byte by itself is the model's
reading of the opcode table (log entry 3); that a later request can go on at the cursor is the model's choice (log entry
22). -/
def Obligations.StringLiteralsDecode : Prop :=
  ∀ (i : Instr) (str : Bytes) (newpos : Nat) (s : State), s.flt = .noFault →
    ((∃ pfx, i = .strHuff pfx) ∨ (∃ pfx, i = .strRaw pfx)) → AtCursor i s → strAt s.inp s.pos = .ok (str, newpos) →
    ∃ t, exec i s = .next t ∧ t.resp = .ok (.str str newpos) ∧ t.pos = newpos ∧ t.inp = s.inp ∧
      t.cursorLive = true ∧ t.idBusy = false ∧ SameArch s t ∧ SameHost s t ∧ SameHenc s t ∧ ((∃ pfx, i = .strRaw pfx) → SameHdec s t)

/-- R204: Indexed Header Field. Executing a first byte by itself is the model's
reading of the opcode table (log entry 3); that a later request can go on at the cursor is the model's choice (log entry
22). -/
def Obligations.IndexedFieldDecodes : Prop :=
  ∀ (pfx : BitVec 7) (r : IntResult) (e : Entry) (s : State), s.flt = .noFault → AtCursor (.repIndexed pfx) s →
    idec Config.intMax s.inp s.pos 7 = .ok r → dictRead params s.ddEnt r.value = .ok e →
    ∃ t, exec (.repIndexed pfx) s = .next t ∧
      t.resp = .ok (.rep (some ⟨e.name, e.value, false⟩) (s.pos + r.consumed)) ∧ t.pos = s.pos + r.consumed ∧
      t.inp = s.inp ∧ t.cursorLive = true ∧ SameArch s t ∧ SameHost s t ∧ SameHenc s t ∧ SameHdec s t

/-- R205, R208: Literal with Incremental Indexing: the field is delivered, and the dictionary is what DPUSH followed by
DSHRINK to `DD_MAX` makes of it. Executing a first byte by itself is the model's
reading of the opcode table (log entry 3); that a later request can go on at the cursor is the model's choice (log entry
22). -/
def Obligations.IncrementalLiteralDecodesAndInserts : Prop :=
  ∀ (pfx : BitVec 6) (name value : Bytes) (newpos : Nat) (s : State), s.flt = .noFault → AtCursor (.repLitInc pfx) s →
    literalAt s.ddEnt s.inp s.pos 6 = .ok (name, value, newpos) →
    ∃ t u v, exec (.repLitInc pfx) s = .next t ∧ t.resp = .ok (.rep (some ⟨name, value, false⟩) newpos) ∧
      t.pos = newpos ∧ t.inp = s.inp ∧ t.cursorLive = true ∧ SameFault s t ∧ SameHost s t ∧ SameHenc s t ∧
      exec (.dpush name value) s = .next u ∧ exec (.dshrink s.ddMax) u = .next v ∧ SameDict v t

/-- R206: Dynamic Table Size Update: no field; the dictionary is what DSETMAX makes of it. Executing a first byte by itself is the model's
reading of the opcode table (log entry 3); that a later request can go on at the cursor is the model's choice (log entry
22). -/
def Obligations.SizeUpdateDecodes : Prop :=
  ∀ (pfx : BitVec 5) (r : IntResult) (s : State), s.flt = .noFault → AtCursor (.repSizeUpd pfx) s →
    idec Config.intMax s.inp s.pos 5 = .ok r → r.value ≤ Config.ddLimit →
    ∃ t u, exec (.repSizeUpd pfx) s = .next t ∧ t.resp = .ok (.rep none (s.pos + r.consumed)) ∧
      t.pos = s.pos + r.consumed ∧ t.inp = s.inp ∧ t.cursorLive = true ∧ SameFault s t ∧ SameHost s t ∧
      SameHenc s t ∧ SameHdec s t ∧
      exec (.dsetmax r.value) s = .next u ∧ SameDict u t

/-- R207, R208: the two literals that are not indexed; bit 4 is delivered as the never-indexed flag; nothing is
inserted. Executing a first byte by itself is the model's
reading of the opcode table (log entry 3); that a later request can go on at the cursor is the model's choice (log entry
22). -/
def Obligations.PlainLiteralsDecode : Prop :=
  ∀ (pfx : BitVec 4) (never : Bool) (name value : Bytes) (newpos : Nat) (s : State), s.flt = .noFault →
    AtCursor (if never then .repLitNever pfx else .repLitNoIdx pfx) s →
    literalAt s.ddEnt s.inp s.pos 4 = .ok (name, value, newpos) →
    ∃ t, exec (if never then .repLitNever pfx else .repLitNoIdx pfx) s = .next t ∧
      t.resp = .ok (.rep (some ⟨name, value, never⟩) newpos) ∧ t.pos = newpos ∧ t.inp = s.inp ∧ t.cursorLive = true ∧
      SameArch s t ∧ SameHost s t ∧ SameHenc s t

/-- R191, R204 to R208, R238: a string literal or a representation that meets a fault reports the first one in stream
order, and inserts and resizes nothing. Executing a first byte by itself is the model's reading of the opcode table (log
entry 3). -/
def Obligations.WireFormsReportTheFirstFault : Prop :=
  ∀ (i : Instr) (e : FaultRec) (s : State), s.flt = .noFault → AtCursor i s → wireFault s i = some e →
    ∃ t, exec i s = .next t ∧ TookFault e t ∧ SameDict s t ∧ SameHost s t

/-- No instruction touches what belongs to the host, and only DSETMAX and the size update write `DD_MAX` (R15). That the byte of
a wire format is an instruction is the model's reading of the opcode table (log entry 3). -/
def Obligations.InstructionsLeaveTheHostAndTheBudgetAlone : Prop :=
  ∀ (i : Instr) (s t : State), exec i s = .next t →
    SameHost s t ∧
    ((match i with
        | .dsetmax _ | .repSizeUpd _ => False
        | _ => True) → t.ddMax = s.ddMax) ∧
    ((match i with
        | .dpush .. | .dshrink _ | .dsetmax _ | .repLitInc _ | .repSizeUpd _ => False
        | _ => True) → SameDict s t) ∧
    ((match i with
        | .henc _ => False
        | _ => True) → SameHenc s t)

/-- R10, R24: nothing but the five architectural registers survives from one instruction to the next, besides the cursor
a wire form is read at: from states that agree there, an instruction gives one response and states that agree there. A
continuation byte is the one exception, since it continues an integer (log entry 3). That an INT's first byte is executed by
itself rests on log entry 3, too, and its answer `more` on log entry 23. -/
def Obligations.HiddenRegistersDoNotMatter : Prop :=
  ∀ (i : Instr) (s t : State), SameArch s t →
    (match i with
      | .intCont .. => False
      | .repIndexed _ | .repLitInc _ | .repSizeUpd _ | .repLitNever _ | .repLitNoIdx _ | .strHuff _ | .strRaw _ =>
        t.inp = s.inp ∧ t.pos = s.pos
      | _ => True) →
    ∃ u v, exec i s = .next u ∧ exec i t = .next v ∧ SameArch u v ∧ v.resp = u.resp

/-! ### Host sequences -/

/-- R190: STRENC. -/
def Obligations.StrencPicksTheShorterForm : Prop :=
  ∀ (str : Bytes) (s : State), s.flt = .noFault →
    ∃ t, serve (.strenc str) s = .next t ∧ t.resp = .ok (.bytes (strBytes str)) ∧ SameArch s t ∧ SameHost s t

/-- R192: STRDEC undoes STRENC, whatever follows, and a string never grows by more than its length prefix. -/
def Obligations.StrdecUndoesStrenc : Prop :=
  ∀ (str rest : Bytes) (s : State), s.flt = .noFault →
    ∃ u out, serve (.strenc str) s = .next u ∧ u.resp = .ok (.bytes out) ∧
      out.length ≤ str.length + (intBytes str.length 7 0).length ∧
      (str.length ≤ Config.intMax →
        ∃ t, serve (.wire .str (some (out ++ rest, 0))) u = .next t ∧ t.resp = .ok (.str str out.length))

/-- R200: the encoder policy's four cases in their order. -/
def Obligations.EncoderPolicy : Prop :=
  ∀ (h : Header) (s : State), s.flt = .noFault →
    ∃ t, serve (.hfenc h) s = .next t ∧ SameFault s t ∧ SameHost s t ∧
      (if h.sensitive = true ∨ 3 * s.ddMax < 4 * (32 + h.name.length + h.value.length) then
        t.resp = .ok (.bytes
          (literalBytes (findName params s.ddEnt h.name) 4 (if h.sensitive then 0x10 else 0x00) h.name h.value)) ∧
        SameDict s t
      else if find params s.ddEnt h.name h.value ≠ 0 then
        t.resp = .ok (.bytes (intBytes (find params s.ddEnt h.name h.value) 7 0x80)) ∧ SameDict s t
      else
        t.resp = .ok (.bytes (literalBytes (findName params s.ddEnt h.name) 6 0x40 h.name h.value)) ∧
        ∃ u v, exec (.dpush h.name h.value) s = .next u ∧ exec (.dshrink s.ddMax) u = .next v ∧ SameDict v t)

/-- R202: the encoder laws. (a) `:method: GET` is sent as `0x82` when the budget is 56 or more; (b) a sensitive pair is
sent Never Indexed and inserts nothing; (c) SUM and BUDGET are kept. -/
def Obligations.EncoderLaws : Prop :=
  ∀ (h : Header) (s : State), s.flt = .noFault →
    ∃ t out, serve (.hfenc h) s = .next t ∧ t.resp = .ok (.bytes out) ∧
      (h = ⟨[0x3a#8, 0x6d#8, 0x65#8, 0x74#8, 0x68#8, 0x6f#8, 0x64#8], [0x47#8, 0x45#8, 0x54#8], false⟩ → 56 ≤ s.ddMax →
        out = [0x82#8] ∧ SameDict s t) ∧
      (h.sensitive = true → SameDict s t ∧ ∃ b, out.head? = some b ∧ 0x10 ≤ b.toNat ∧ b.toNat ≤ 0x1F) ∧
      (SumHolds s → BudgetHolds s → SumHolds t ∧ BudgetHolds t)

/-- R201: ENCODE is HFENC pair by pair, each against the dictionary the previous pair left, outputs concatenated; an
empty sequence gives the empty block and changes nothing but the response; no fault occurs, `DD_MAX` and what belongs to
the host stay. -/
def Obligations.EncodeRunsPairByPair : Prop :=
  ∀ (hs : List Header) (s : State), s.flt = .noFault →
    ∃ t out, serve (.encode hs) s = .next t ∧ t.resp = .ok (.bytes out) ∧ t.flt = .noFault ∧ t.ddMax = s.ddMax ∧
      SameHost s t ∧
      (match hs with
        | [] => out = [] ∧ t = { s with resp := .ok (.bytes []) }
        | h :: rest =>
          ∃ u v head tail, serve (.hfenc h) s = .next u ∧ u.resp = .ok (.bytes head) ∧
            serve (.encode rest) u = .next v ∧ v.resp = .ok (.bytes tail) ∧ out = head ++ tail ∧
              SameArch v t ∧ SameHost v t)

/-- R210: FEED appends, and chunks may be cut anywhere. R212: EOF faults while bytes remain buffered. -/
def Obligations.FeedAppendsAndEofChecks : Prop :=
  (∀ s : State, s.flt = .noFault → s.rxBuf = [] → serve (.feed []) s = .next { s with resp := .ok .unit }) ∧
  (∀ (bs : Bytes) (s : State), s.flt = .noFault → s.rxBuf ++ bs ≠ [] →
    serve (.feed bs) s =
      .next { s with rxBuf := s.rxBuf ++ bs, rxState := .feeding, resp := .ok .unit }) ∧
  (∀ (as bs : Bytes) (s u t : State), s.flt = .noFault →
    serve (.feed as) s = .next u → serve (.feed bs) u = .next t → serve (.feed (as ++ bs)) s = .next t) ∧
  (∀ s : State, s.flt = .noFault → s.rxBuf = [] → serve .eof s = .next { s with resp := .ok .unit }) ∧
  (∀ s : State, s.flt = .noFault → s.rxBuf ≠ [] → serve .eof s =
    .next { s with
      flt := .undrained, finfo := ⟨0, 0, s.rxBuf.length⟩, resp := .fault ⟨.undrained, 0, 0, s.rxBuf.length⟩ })

/-- R211: DRAIN is HFDEC over the buffer in wire order with each field handed to the callback; without a fault the
buffer is cleared and the phase is `Idle`; with one the buffer is left and the phase is `Draining`. -/
def Obligations.DrainDecodesTheBuffer : Prop :=
  ∀ s u : State, s.flt = .noFault → ∀ done, drainBy s.rxBuf s.rxBuf.length 0 s = (u, done) →
    ∃ t, serve .drain s = .next t ∧ SameArch u t ∧ t.delivered = u.delivered ∧ t.port = s.port ∧
      (done = true → t.flt = .noFault ∧ t.rxBuf = [] ∧ t.rxState = .idle ∧ t.resp = .ok .unit) ∧
      (done = false → t.flt ≠ .noFault ∧ t.rxBuf = s.rxBuf ∧ t.rxState = .draining ∧
        t.resp = .fault ⟨t.flt, t.finfo⟩)

/-- R209: every HFDEC that does not fault moves the offset forward and delivers at most one field; and HFDEC undoes HFENC
between equal dictionaries, which it leaves equal. The bound on the indices is the one R214 adds. -/
def Obligations.HfdecUndoesHfenc : Prop :=
  (∀ (inp : Bytes) (pos : Nat) (s t : State) (field : Option Field) (newpos : Nat), s.flt = .noFault →
    serve (.wire .rep (some (inp, pos))) s = .next t → t.resp = .ok (.rep field newpos) →
    pos < newpos ∧ newpos ≤ inp.length) ∧
  (∀ (h : Header) (rest : Bytes) (enc dec : State), enc.flt = .noFault → dec.flt = .noFault → SameDict enc dec →
    HeaderFits h → 61 + enc.ddEnt.length ≤ Config.intMax →
    ∃ enc' dec' out, serve (.hfenc h) enc = .next enc' ∧ enc'.resp = .ok (.bytes out) ∧ 0 < out.length ∧
      serve (.wire .rep (some (out ++ rest, 0))) dec = .next dec' ∧
      dec'.resp = .ok (.rep (some ⟨h.name, h.value, h.sensitive⟩) out.length) ∧ SameDict enc' dec')

/-- R214, R29: blocks encoded one after the other on one instance, each fed to and drained on its mirror, deliver exactly
their headers in order and leave the two mirrored after every round. Two instances after reset are mirrored. The bound on
the indices is the sufficient one R214 names. -/
def Obligations.BlocksRoundTrip : Prop :=
  (61 + Config.ddMaxInit / 32 ≤ Config.intMax → Mirrored State.reset State.reset) ∧
  ∀ (blocks : List (List Header)) (enc dec : State), Mirrored enc dec → (∀ hs ∈ blocks, ∀ h ∈ hs, HeaderFits h) →
    RoundTrip blocks enc dec

/-! ### Invariants -/

/-- R14: SUM is kept by every step. -/
def Obligations.EveryStepKeepsTheSum : Prop := ∀ s t : State, SumHolds s → step s = .next t → SumHolds t

/-- R15, R19, R30: `DD_MAX` stays legal, and `FINFO` is clear while no fault is recorded. -/
def Obligations.EveryStepKeepsTheBudgetAndFaultInfoLegal : Prop :=
  ∀ s t : State, step s = .next t → (MaxLegal s → MaxLegal t) ∧ (FaultInfoClear s → FaultInfoClear t)

/-- R213: the host decoder's phases. -/
def Obligations.EveryStepKeepsThePhase : Prop :=
  ∀ s t : State, PhaseHolds s → step s = .next t → PhaseHolds t

/-- R21, R22, R23: the ranges of the working registers. That an integer is in progress between two steps, which bounds
`ID_VAL` there, is the model's reading (log entry 3). -/
def Obligations.EveryStepKeepsTheRegistersInRange : Prop :=
  ∀ s t : State, RegistersInRange s → step s = .next t → RegistersInRange t

/-- R30, R261: the invariants hold at reset, whatever the parameters. The working registers' values there are the model's
choice (log entry 7). -/
def Obligations.InvariantsHoldAtReset : Prop :=
  SumHolds State.reset ∧ BudgetHolds State.reset ∧ MaxLegal State.reset ∧ PhaseHolds State.reset ∧
    RegistersInRange State.reset ∧ FaultInfoClear State.reset
end

