-- ==== Sys2Proof/Laws/State.lean ====
section
/-! SUPPORT. What each field of the state is after each named update of it, by `rfl`: no later proof unfolds one. -/

namespace Sys2Proof.Machine

section
variable (e : FaultRec) (s : State)

@[simp] theorem takeFault_ddEnt : (takeFault e s).ddEnt = s.ddEnt := rfl
@[simp] theorem takeFault_ddTotal : (takeFault e s).ddTotal = s.ddTotal := rfl
@[simp] theorem takeFault_ddMax : (takeFault e s).ddMax = s.ddMax := rfl
@[simp] theorem takeFault_flt : (takeFault e s).flt = e.code := rfl
@[simp] theorem takeFault_finfo : (takeFault e s).finfo = e.info := rfl
@[simp] theorem takeFault_heAcc : (takeFault e s).heAcc = s.heAcc := rfl
@[simp] theorem takeFault_heCnt : (takeFault e s).heCnt = s.heCnt := rfl
@[simp] theorem takeFault_hdWin : (takeFault e s).hdWin = s.hdWin := rfl
@[simp] theorem takeFault_hdCnt : (takeFault e s).hdCnt = s.hdCnt := rfl
@[simp] theorem takeFault_hdPos : (takeFault e s).hdPos = s.hdPos := rfl
@[simp] theorem takeFault_idVal : (takeFault e s).idVal = s.idVal := rfl
@[simp] theorem takeFault_idI : (takeFault e s).idI = s.idI := rfl
@[simp] theorem takeFault_idTag : (takeFault e s).idTag = s.idTag := rfl
@[simp] theorem takeFault_idBusy : (takeFault e s).idBusy = s.idBusy := rfl
@[simp] theorem takeFault_inp : (takeFault e s).inp = s.inp := rfl
@[simp] theorem takeFault_pos : (takeFault e s).pos = s.pos := rfl
@[simp] theorem takeFault_cursorLive : (takeFault e s).cursorLive = s.cursorLive := rfl
@[simp] theorem takeFault_rxBuf : (takeFault e s).rxBuf = s.rxBuf := rfl
@[simp] theorem takeFault_rxState : (takeFault e s).rxState = s.rxState := rfl
@[simp] theorem takeFault_delivered : (takeFault e s).delivered = s.delivered := rfl
@[simp] theorem takeFault_resp : (takeFault e s).resp = s.resp := rfl
@[simp] theorem takeFault_port : (takeFault e s).port = s.port := rfl

end

section
variable (r : Response) (s : State)

@[simp] theorem latch_ddEnt : (latch r s).ddEnt = s.ddEnt := rfl
@[simp] theorem latch_ddTotal : (latch r s).ddTotal = s.ddTotal := rfl
@[simp] theorem latch_ddMax : (latch r s).ddMax = s.ddMax := rfl
@[simp] theorem latch_flt : (latch r s).flt = s.flt := rfl
@[simp] theorem latch_finfo : (latch r s).finfo = s.finfo := rfl
@[simp] theorem latch_heAcc : (latch r s).heAcc = s.heAcc := rfl
@[simp] theorem latch_heCnt : (latch r s).heCnt = s.heCnt := rfl
@[simp] theorem latch_hdWin : (latch r s).hdWin = s.hdWin := rfl
@[simp] theorem latch_hdCnt : (latch r s).hdCnt = s.hdCnt := rfl
@[simp] theorem latch_hdPos : (latch r s).hdPos = s.hdPos := rfl
@[simp] theorem latch_idVal : (latch r s).idVal = s.idVal := rfl
@[simp] theorem latch_idI : (latch r s).idI = s.idI := rfl
@[simp] theorem latch_idTag : (latch r s).idTag = s.idTag := rfl
@[simp] theorem latch_idBusy : (latch r s).idBusy = s.idBusy := rfl
@[simp] theorem latch_inp : (latch r s).inp = s.inp := rfl
@[simp] theorem latch_pos : (latch r s).pos = s.pos := rfl
@[simp] theorem latch_cursorLive : (latch r s).cursorLive = s.cursorLive := rfl
@[simp] theorem latch_rxBuf : (latch r s).rxBuf = s.rxBuf := rfl
@[simp] theorem latch_rxState : (latch r s).rxState = s.rxState := rfl
@[simp] theorem latch_delivered : (latch r s).delivered = s.delivered := rfl
@[simp] theorem latch_resp : (latch r s).resp = r := rfl
@[simp] theorem latch_port : (latch r s).port = s.port := rfl

end

section
variable (p : Nat) (s : State)

@[simp] theorem moveCursor_ddEnt : (moveCursor p s).ddEnt = s.ddEnt := rfl
@[simp] theorem moveCursor_ddTotal : (moveCursor p s).ddTotal = s.ddTotal := rfl
@[simp] theorem moveCursor_ddMax : (moveCursor p s).ddMax = s.ddMax := rfl
@[simp] theorem moveCursor_flt : (moveCursor p s).flt = s.flt := rfl
@[simp] theorem moveCursor_finfo : (moveCursor p s).finfo = s.finfo := rfl
@[simp] theorem moveCursor_heAcc : (moveCursor p s).heAcc = s.heAcc := rfl
@[simp] theorem moveCursor_heCnt : (moveCursor p s).heCnt = s.heCnt := rfl
@[simp] theorem moveCursor_hdWin : (moveCursor p s).hdWin = s.hdWin := rfl
@[simp] theorem moveCursor_hdCnt : (moveCursor p s).hdCnt = s.hdCnt := rfl
@[simp] theorem moveCursor_hdPos : (moveCursor p s).hdPos = s.hdPos := rfl
@[simp] theorem moveCursor_idVal : (moveCursor p s).idVal = s.idVal := rfl
@[simp] theorem moveCursor_idI : (moveCursor p s).idI = s.idI := rfl
@[simp] theorem moveCursor_idTag : (moveCursor p s).idTag = s.idTag := rfl
@[simp] theorem moveCursor_idBusy : (moveCursor p s).idBusy = s.idBusy := rfl
@[simp] theorem moveCursor_inp : (moveCursor p s).inp = s.inp := rfl
@[simp] theorem moveCursor_pos : (moveCursor p s).pos = p := rfl
@[simp] theorem moveCursor_cursorLive : (moveCursor p s).cursorLive = true := rfl
@[simp] theorem moveCursor_rxBuf : (moveCursor p s).rxBuf = s.rxBuf := rfl
@[simp] theorem moveCursor_rxState : (moveCursor p s).rxState = s.rxState := rfl
@[simp] theorem moveCursor_delivered : (moveCursor p s).delivered = s.delivered := rfl
@[simp] theorem moveCursor_resp : (moveCursor p s).resp = s.resp := rfl
@[simp] theorem moveCursor_port : (moveCursor p s).port = s.port := rfl

end

section
variable (s : State)

@[simp] theorem dropCursor_ddEnt : (dropCursor s).ddEnt = s.ddEnt := rfl
@[simp] theorem dropCursor_ddTotal : (dropCursor s).ddTotal = s.ddTotal := rfl
@[simp] theorem dropCursor_ddMax : (dropCursor s).ddMax = s.ddMax := rfl
@[simp] theorem dropCursor_flt : (dropCursor s).flt = s.flt := rfl
@[simp] theorem dropCursor_finfo : (dropCursor s).finfo = s.finfo := rfl
@[simp] theorem dropCursor_heAcc : (dropCursor s).heAcc = s.heAcc := rfl
@[simp] theorem dropCursor_heCnt : (dropCursor s).heCnt = s.heCnt := rfl
@[simp] theorem dropCursor_hdWin : (dropCursor s).hdWin = s.hdWin := rfl
@[simp] theorem dropCursor_hdCnt : (dropCursor s).hdCnt = s.hdCnt := rfl
@[simp] theorem dropCursor_hdPos : (dropCursor s).hdPos = s.hdPos := rfl
@[simp] theorem dropCursor_idVal : (dropCursor s).idVal = s.idVal := rfl
@[simp] theorem dropCursor_idI : (dropCursor s).idI = s.idI := rfl
@[simp] theorem dropCursor_idTag : (dropCursor s).idTag = s.idTag := rfl
@[simp] theorem dropCursor_idBusy : (dropCursor s).idBusy = s.idBusy := rfl
@[simp] theorem dropCursor_inp : (dropCursor s).inp = s.inp := rfl
@[simp] theorem dropCursor_pos : (dropCursor s).pos = s.pos := rfl
@[simp] theorem dropCursor_cursorLive : (dropCursor s).cursorLive = false := rfl
@[simp] theorem dropCursor_rxBuf : (dropCursor s).rxBuf = s.rxBuf := rfl
@[simp] theorem dropCursor_rxState : (dropCursor s).rxState = s.rxState := rfl
@[simp] theorem dropCursor_delivered : (dropCursor s).delivered = s.delivered := rfl
@[simp] theorem dropCursor_resp : (dropCursor s).resp = s.resp := rfl
@[simp] theorem dropCursor_port : (dropCursor s).port = s.port := rfl

end

section
variable (b : Bytes) (p : Nat) (s : State)

@[simp] theorem loadInput_ddEnt : (loadInput b p s).ddEnt = s.ddEnt := rfl
@[simp] theorem loadInput_ddTotal : (loadInput b p s).ddTotal = s.ddTotal := rfl
@[simp] theorem loadInput_ddMax : (loadInput b p s).ddMax = s.ddMax := rfl
@[simp] theorem loadInput_flt : (loadInput b p s).flt = s.flt := rfl
@[simp] theorem loadInput_finfo : (loadInput b p s).finfo = s.finfo := rfl
@[simp] theorem loadInput_heAcc : (loadInput b p s).heAcc = s.heAcc := rfl
@[simp] theorem loadInput_heCnt : (loadInput b p s).heCnt = s.heCnt := rfl
@[simp] theorem loadInput_hdWin : (loadInput b p s).hdWin = s.hdWin := rfl
@[simp] theorem loadInput_hdCnt : (loadInput b p s).hdCnt = s.hdCnt := rfl
@[simp] theorem loadInput_hdPos : (loadInput b p s).hdPos = s.hdPos := rfl
@[simp] theorem loadInput_idVal : (loadInput b p s).idVal = s.idVal := rfl
@[simp] theorem loadInput_idI : (loadInput b p s).idI = s.idI := rfl
@[simp] theorem loadInput_idTag : (loadInput b p s).idTag = s.idTag := rfl
@[simp] theorem loadInput_idBusy : (loadInput b p s).idBusy = false := rfl
@[simp] theorem loadInput_inp : (loadInput b p s).inp = b := rfl
@[simp] theorem loadInput_pos : (loadInput b p s).pos = p := rfl
@[simp] theorem loadInput_cursorLive : (loadInput b p s).cursorLive = true := rfl
@[simp] theorem loadInput_rxBuf : (loadInput b p s).rxBuf = s.rxBuf := rfl
@[simp] theorem loadInput_rxState : (loadInput b p s).rxState = s.rxState := rfl
@[simp] theorem loadInput_delivered : (loadInput b p s).delivered = s.delivered := rfl
@[simp] theorem loadInput_resp : (loadInput b p s).resp = s.resp := rfl
@[simp] theorem loadInput_port : (loadInput b p s).port = s.port := rfl

end

section
variable (b : Bytes) (t : Nat) (w : Bool) (r : IdRegs) (s : State)

@[simp] theorem storeInt_ddEnt : (storeInt b t w r s).ddEnt = s.ddEnt := rfl
@[simp] theorem storeInt_ddTotal : (storeInt b t w r s).ddTotal = s.ddTotal := rfl
@[simp] theorem storeInt_ddMax : (storeInt b t w r s).ddMax = s.ddMax := rfl
@[simp] theorem storeInt_flt : (storeInt b t w r s).flt = s.flt := rfl
@[simp] theorem storeInt_finfo : (storeInt b t w r s).finfo = s.finfo := rfl
@[simp] theorem storeInt_heAcc : (storeInt b t w r s).heAcc = s.heAcc := rfl
@[simp] theorem storeInt_heCnt : (storeInt b t w r s).heCnt = s.heCnt := rfl
@[simp] theorem storeInt_hdWin : (storeInt b t w r s).hdWin = s.hdWin := rfl
@[simp] theorem storeInt_hdCnt : (storeInt b t w r s).hdCnt = s.hdCnt := rfl
@[simp] theorem storeInt_hdPos : (storeInt b t w r s).hdPos = s.hdPos := rfl
@[simp] theorem storeInt_idVal : (storeInt b t w r s).idVal = r.val := rfl
@[simp] theorem storeInt_idI : (storeInt b t w r s).idI = r.i := rfl
@[simp] theorem storeInt_idTag : (storeInt b t w r s).idTag = t := rfl
@[simp] theorem storeInt_idBusy : (storeInt b t w r s).idBusy = w := rfl
@[simp] theorem storeInt_inp : (storeInt b t w r s).inp = b := rfl
@[simp] theorem storeInt_pos : (storeInt b t w r s).pos = r.pos := rfl
@[simp] theorem storeInt_cursorLive : (storeInt b t w r s).cursorLive = false := rfl
@[simp] theorem storeInt_rxBuf : (storeInt b t w r s).rxBuf = s.rxBuf := rfl
@[simp] theorem storeInt_rxState : (storeInt b t w r s).rxState = s.rxState := rfl
@[simp] theorem storeInt_delivered : (storeInt b t w r s).delivered = s.delivered := rfl
@[simp] theorem storeInt_resp : (storeInt b t w r s).resp = s.resp := rfl
@[simp] theorem storeInt_port : (storeInt b t w r s).port = s.port := rfl

end

section
variable (t : Nat) (w : Bool) (r : IdRegs) (s : State)

@[simp] theorem storeByte_ddEnt : (storeByte t w r s).ddEnt = s.ddEnt := rfl
@[simp] theorem storeByte_ddTotal : (storeByte t w r s).ddTotal = s.ddTotal := rfl
@[simp] theorem storeByte_ddMax : (storeByte t w r s).ddMax = s.ddMax := rfl
@[simp] theorem storeByte_flt : (storeByte t w r s).flt = s.flt := rfl
@[simp] theorem storeByte_finfo : (storeByte t w r s).finfo = s.finfo := rfl
@[simp] theorem storeByte_heAcc : (storeByte t w r s).heAcc = s.heAcc := rfl
@[simp] theorem storeByte_heCnt : (storeByte t w r s).heCnt = s.heCnt := rfl
@[simp] theorem storeByte_hdWin : (storeByte t w r s).hdWin = s.hdWin := rfl
@[simp] theorem storeByte_hdCnt : (storeByte t w r s).hdCnt = s.hdCnt := rfl
@[simp] theorem storeByte_hdPos : (storeByte t w r s).hdPos = s.hdPos := rfl
@[simp] theorem storeByte_idVal : (storeByte t w r s).idVal = r.val := rfl
@[simp] theorem storeByte_idI : (storeByte t w r s).idI = r.i := rfl
@[simp] theorem storeByte_idTag : (storeByte t w r s).idTag = t := rfl
@[simp] theorem storeByte_idBusy : (storeByte t w r s).idBusy = w := rfl
@[simp] theorem storeByte_inp : (storeByte t w r s).inp = s.inp := rfl
@[simp] theorem storeByte_pos : (storeByte t w r s).pos = r.pos := rfl
@[simp] theorem storeByte_cursorLive : (storeByte t w r s).cursorLive = true := rfl
@[simp] theorem storeByte_rxBuf : (storeByte t w r s).rxBuf = s.rxBuf := rfl
@[simp] theorem storeByte_rxState : (storeByte t w r s).rxState = s.rxState := rfl
@[simp] theorem storeByte_delivered : (storeByte t w r s).delivered = s.delivered := rfl
@[simp] theorem storeByte_resp : (storeByte t w r s).resp = s.resp := rfl
@[simp] theorem storeByte_port : (storeByte t w r s).port = s.port := rfl

end

section
variable (r : HeRegs) (s : State)

@[simp] theorem storeHenc_ddEnt : (storeHenc r s).ddEnt = s.ddEnt := rfl
@[simp] theorem storeHenc_ddTotal : (storeHenc r s).ddTotal = s.ddTotal := rfl
@[simp] theorem storeHenc_ddMax : (storeHenc r s).ddMax = s.ddMax := rfl
@[simp] theorem storeHenc_flt : (storeHenc r s).flt = s.flt := rfl
@[simp] theorem storeHenc_finfo : (storeHenc r s).finfo = s.finfo := rfl
@[simp] theorem storeHenc_heAcc : (storeHenc r s).heAcc = r.acc := rfl
@[simp] theorem storeHenc_heCnt : (storeHenc r s).heCnt = r.cnt := rfl
@[simp] theorem storeHenc_hdWin : (storeHenc r s).hdWin = s.hdWin := rfl
@[simp] theorem storeHenc_hdCnt : (storeHenc r s).hdCnt = s.hdCnt := rfl
@[simp] theorem storeHenc_hdPos : (storeHenc r s).hdPos = s.hdPos := rfl
@[simp] theorem storeHenc_idVal : (storeHenc r s).idVal = s.idVal := rfl
@[simp] theorem storeHenc_idI : (storeHenc r s).idI = s.idI := rfl
@[simp] theorem storeHenc_idTag : (storeHenc r s).idTag = s.idTag := rfl
@[simp] theorem storeHenc_idBusy : (storeHenc r s).idBusy = s.idBusy := rfl
@[simp] theorem storeHenc_inp : (storeHenc r s).inp = s.inp := rfl
@[simp] theorem storeHenc_pos : (storeHenc r s).pos = s.pos := rfl
@[simp] theorem storeHenc_cursorLive : (storeHenc r s).cursorLive = s.cursorLive := rfl
@[simp] theorem storeHenc_rxBuf : (storeHenc r s).rxBuf = s.rxBuf := rfl
@[simp] theorem storeHenc_rxState : (storeHenc r s).rxState = s.rxState := rfl
@[simp] theorem storeHenc_delivered : (storeHenc r s).delivered = s.delivered := rfl
@[simp] theorem storeHenc_resp : (storeHenc r s).resp = s.resp := rfl
@[simp] theorem storeHenc_port : (storeHenc r s).port = s.port := rfl

end

section
variable (r : HdRegs) (s : State)

@[simp] theorem storeHdec_ddEnt : (storeHdec r s).ddEnt = s.ddEnt := rfl
@[simp] theorem storeHdec_ddTotal : (storeHdec r s).ddTotal = s.ddTotal := rfl
@[simp] theorem storeHdec_ddMax : (storeHdec r s).ddMax = s.ddMax := rfl
@[simp] theorem storeHdec_flt : (storeHdec r s).flt = s.flt := rfl
@[simp] theorem storeHdec_finfo : (storeHdec r s).finfo = s.finfo := rfl
@[simp] theorem storeHdec_heAcc : (storeHdec r s).heAcc = s.heAcc := rfl
@[simp] theorem storeHdec_heCnt : (storeHdec r s).heCnt = s.heCnt := rfl
@[simp] theorem storeHdec_hdWin : (storeHdec r s).hdWin = r.win := rfl
@[simp] theorem storeHdec_hdCnt : (storeHdec r s).hdCnt = r.cnt := rfl
@[simp] theorem storeHdec_hdPos : (storeHdec r s).hdPos = r.pos := rfl
@[simp] theorem storeHdec_idVal : (storeHdec r s).idVal = s.idVal := rfl
@[simp] theorem storeHdec_idI : (storeHdec r s).idI = s.idI := rfl
@[simp] theorem storeHdec_idTag : (storeHdec r s).idTag = s.idTag := rfl
@[simp] theorem storeHdec_idBusy : (storeHdec r s).idBusy = s.idBusy := rfl
@[simp] theorem storeHdec_inp : (storeHdec r s).inp = s.inp := rfl
@[simp] theorem storeHdec_pos : (storeHdec r s).pos = s.pos := rfl
@[simp] theorem storeHdec_cursorLive : (storeHdec r s).cursorLive = s.cursorLive := rfl
@[simp] theorem storeHdec_rxBuf : (storeHdec r s).rxBuf = s.rxBuf := rfl
@[simp] theorem storeHdec_rxState : (storeHdec r s).rxState = s.rxState := rfl
@[simp] theorem storeHdec_delivered : (storeHdec r s).delivered = s.delivered := rfl
@[simp] theorem storeHdec_resp : (storeHdec r s).resp = s.resp := rfl
@[simp] theorem storeHdec_port : (storeHdec r s).port = s.port := rfl

end

section
variable (e : Entry) (s : State)

@[simp] theorem insertEntry_ddEnt : (insertEntry e s).ddEnt = e :: s.ddEnt := rfl
@[simp] theorem insertEntry_ddTotal : (insertEntry e s).ddTotal = s.ddTotal + cost e := rfl
@[simp] theorem insertEntry_ddMax : (insertEntry e s).ddMax = s.ddMax := rfl
@[simp] theorem insertEntry_flt : (insertEntry e s).flt = s.flt := rfl
@[simp] theorem insertEntry_finfo : (insertEntry e s).finfo = s.finfo := rfl
@[simp] theorem insertEntry_heAcc : (insertEntry e s).heAcc = s.heAcc := rfl
@[simp] theorem insertEntry_heCnt : (insertEntry e s).heCnt = s.heCnt := rfl
@[simp] theorem insertEntry_hdWin : (insertEntry e s).hdWin = s.hdWin := rfl
@[simp] theorem insertEntry_hdCnt : (insertEntry e s).hdCnt = s.hdCnt := rfl
@[simp] theorem insertEntry_hdPos : (insertEntry e s).hdPos = s.hdPos := rfl
@[simp] theorem insertEntry_idVal : (insertEntry e s).idVal = s.idVal := rfl
@[simp] theorem insertEntry_idI : (insertEntry e s).idI = s.idI := rfl
@[simp] theorem insertEntry_idTag : (insertEntry e s).idTag = s.idTag := rfl
@[simp] theorem insertEntry_idBusy : (insertEntry e s).idBusy = s.idBusy := rfl
@[simp] theorem insertEntry_inp : (insertEntry e s).inp = s.inp := rfl
@[simp] theorem insertEntry_pos : (insertEntry e s).pos = s.pos := rfl
@[simp] theorem insertEntry_cursorLive : (insertEntry e s).cursorLive = s.cursorLive := rfl
@[simp] theorem insertEntry_rxBuf : (insertEntry e s).rxBuf = s.rxBuf := rfl
@[simp] theorem insertEntry_rxState : (insertEntry e s).rxState = s.rxState := rfl
@[simp] theorem insertEntry_delivered : (insertEntry e s).delivered = s.delivered := rfl
@[simp] theorem insertEntry_resp : (insertEntry e s).resp = s.resp := rfl
@[simp] theorem insertEntry_port : (insertEntry e s).port = s.port := rfl

end

section
variable (l : Nat) (s : State)

@[simp] theorem shrink_ddEnt : (shrink l s).ddEnt = (evict l s.ddEnt.reverse s.ddTotal).1.reverse := rfl
@[simp] theorem shrink_ddTotal : (shrink l s).ddTotal = (evict l s.ddEnt.reverse s.ddTotal).2 := rfl
@[simp] theorem shrink_ddMax : (shrink l s).ddMax = s.ddMax := rfl
@[simp] theorem shrink_flt : (shrink l s).flt = s.flt := rfl
@[simp] theorem shrink_finfo : (shrink l s).finfo = s.finfo := rfl
@[simp] theorem shrink_heAcc : (shrink l s).heAcc = s.heAcc := rfl
@[simp] theorem shrink_heCnt : (shrink l s).heCnt = s.heCnt := rfl
@[simp] theorem shrink_hdWin : (shrink l s).hdWin = s.hdWin := rfl
@[simp] theorem shrink_hdCnt : (shrink l s).hdCnt = s.hdCnt := rfl
@[simp] theorem shrink_hdPos : (shrink l s).hdPos = s.hdPos := rfl
@[simp] theorem shrink_idVal : (shrink l s).idVal = s.idVal := rfl
@[simp] theorem shrink_idI : (shrink l s).idI = s.idI := rfl
@[simp] theorem shrink_idTag : (shrink l s).idTag = s.idTag := rfl
@[simp] theorem shrink_idBusy : (shrink l s).idBusy = s.idBusy := rfl
@[simp] theorem shrink_inp : (shrink l s).inp = s.inp := rfl
@[simp] theorem shrink_pos : (shrink l s).pos = s.pos := rfl
@[simp] theorem shrink_cursorLive : (shrink l s).cursorLive = s.cursorLive := rfl
@[simp] theorem shrink_rxBuf : (shrink l s).rxBuf = s.rxBuf := rfl
@[simp] theorem shrink_rxState : (shrink l s).rxState = s.rxState := rfl
@[simp] theorem shrink_delivered : (shrink l s).delivered = s.delivered := rfl
@[simp] theorem shrink_resp : (shrink l s).resp = s.resp := rfl
@[simp] theorem shrink_port : (shrink l s).port = s.port := rfl

end

section
variable (v : Nat) (s : State)

@[simp] theorem setMax_ddEnt : (setMax v s).ddEnt = s.ddEnt := rfl
@[simp] theorem setMax_ddTotal : (setMax v s).ddTotal = s.ddTotal := rfl
@[simp] theorem setMax_ddMax : (setMax v s).ddMax = v := rfl
@[simp] theorem setMax_flt : (setMax v s).flt = s.flt := rfl
@[simp] theorem setMax_finfo : (setMax v s).finfo = s.finfo := rfl
@[simp] theorem setMax_heAcc : (setMax v s).heAcc = s.heAcc := rfl
@[simp] theorem setMax_heCnt : (setMax v s).heCnt = s.heCnt := rfl
@[simp] theorem setMax_hdWin : (setMax v s).hdWin = s.hdWin := rfl
@[simp] theorem setMax_hdCnt : (setMax v s).hdCnt = s.hdCnt := rfl
@[simp] theorem setMax_hdPos : (setMax v s).hdPos = s.hdPos := rfl
@[simp] theorem setMax_idVal : (setMax v s).idVal = s.idVal := rfl
@[simp] theorem setMax_idI : (setMax v s).idI = s.idI := rfl
@[simp] theorem setMax_idTag : (setMax v s).idTag = s.idTag := rfl
@[simp] theorem setMax_idBusy : (setMax v s).idBusy = s.idBusy := rfl
@[simp] theorem setMax_inp : (setMax v s).inp = s.inp := rfl
@[simp] theorem setMax_pos : (setMax v s).pos = s.pos := rfl
@[simp] theorem setMax_cursorLive : (setMax v s).cursorLive = s.cursorLive := rfl
@[simp] theorem setMax_rxBuf : (setMax v s).rxBuf = s.rxBuf := rfl
@[simp] theorem setMax_rxState : (setMax v s).rxState = s.rxState := rfl
@[simp] theorem setMax_delivered : (setMax v s).delivered = s.delivered := rfl
@[simp] theorem setMax_resp : (setMax v s).resp = s.resp := rfl
@[simp] theorem setMax_port : (setMax v s).port = s.port := rfl

end

section
variable (b : Bytes) (x : RxState) (s : State)

@[simp] theorem setRx_ddEnt : (setRx b x s).ddEnt = s.ddEnt := rfl
@[simp] theorem setRx_ddTotal : (setRx b x s).ddTotal = s.ddTotal := rfl
@[simp] theorem setRx_ddMax : (setRx b x s).ddMax = s.ddMax := rfl
@[simp] theorem setRx_flt : (setRx b x s).flt = s.flt := rfl
@[simp] theorem setRx_finfo : (setRx b x s).finfo = s.finfo := rfl
@[simp] theorem setRx_heAcc : (setRx b x s).heAcc = s.heAcc := rfl
@[simp] theorem setRx_heCnt : (setRx b x s).heCnt = s.heCnt := rfl
@[simp] theorem setRx_hdWin : (setRx b x s).hdWin = s.hdWin := rfl
@[simp] theorem setRx_hdCnt : (setRx b x s).hdCnt = s.hdCnt := rfl
@[simp] theorem setRx_hdPos : (setRx b x s).hdPos = s.hdPos := rfl
@[simp] theorem setRx_idVal : (setRx b x s).idVal = s.idVal := rfl
@[simp] theorem setRx_idI : (setRx b x s).idI = s.idI := rfl
@[simp] theorem setRx_idTag : (setRx b x s).idTag = s.idTag := rfl
@[simp] theorem setRx_idBusy : (setRx b x s).idBusy = s.idBusy := rfl
@[simp] theorem setRx_inp : (setRx b x s).inp = s.inp := rfl
@[simp] theorem setRx_pos : (setRx b x s).pos = s.pos := rfl
@[simp] theorem setRx_cursorLive : (setRx b x s).cursorLive = s.cursorLive := rfl
@[simp] theorem setRx_rxBuf : (setRx b x s).rxBuf = b := rfl
@[simp] theorem setRx_rxState : (setRx b x s).rxState = x := rfl
@[simp] theorem setRx_delivered : (setRx b x s).delivered = s.delivered := rfl
@[simp] theorem setRx_resp : (setRx b x s).resp = s.resp := rfl
@[simp] theorem setRx_port : (setRx b x s).port = s.port := rfl

end

section
variable (f : Option Field) (s : State)

@[simp] theorem deliver_ddEnt : (deliver f s).ddEnt = s.ddEnt := rfl
@[simp] theorem deliver_ddTotal : (deliver f s).ddTotal = s.ddTotal := rfl
@[simp] theorem deliver_ddMax : (deliver f s).ddMax = s.ddMax := rfl
@[simp] theorem deliver_flt : (deliver f s).flt = s.flt := rfl
@[simp] theorem deliver_finfo : (deliver f s).finfo = s.finfo := rfl
@[simp] theorem deliver_heAcc : (deliver f s).heAcc = s.heAcc := rfl
@[simp] theorem deliver_heCnt : (deliver f s).heCnt = s.heCnt := rfl
@[simp] theorem deliver_hdWin : (deliver f s).hdWin = s.hdWin := rfl
@[simp] theorem deliver_hdCnt : (deliver f s).hdCnt = s.hdCnt := rfl
@[simp] theorem deliver_hdPos : (deliver f s).hdPos = s.hdPos := rfl
@[simp] theorem deliver_idVal : (deliver f s).idVal = s.idVal := rfl
@[simp] theorem deliver_idI : (deliver f s).idI = s.idI := rfl
@[simp] theorem deliver_idTag : (deliver f s).idTag = s.idTag := rfl
@[simp] theorem deliver_idBusy : (deliver f s).idBusy = s.idBusy := rfl
@[simp] theorem deliver_inp : (deliver f s).inp = s.inp := rfl
@[simp] theorem deliver_pos : (deliver f s).pos = s.pos := rfl
@[simp] theorem deliver_cursorLive : (deliver f s).cursorLive = s.cursorLive := rfl
@[simp] theorem deliver_rxBuf : (deliver f s).rxBuf = s.rxBuf := rfl
@[simp] theorem deliver_rxState : (deliver f s).rxState = s.rxState := rfl
@[simp] theorem deliver_delivered : (deliver f s).delivered = s.delivered ++ f.toList := rfl
@[simp] theorem deliver_resp : (deliver f s).resp = s.resp := rfl
@[simp] theorem deliver_port : (deliver f s).port = s.port := rfl

end

end Sys2Proof.Machine
end

