-- ==== Sys2Proof/Laws/Ops.lean ====
section
/-! SUPPORT. Everything the shared operations of Machine/Ops.lean can do, said once. -/

namespace Sys2Proof.Machine

variable {α β : Type}

/-! ### command -/

theorem command_refused {s : State} (h : s.flt ≠ .noFault) (run : Run α) :
    command s run = (s, .error (recorded s)) := by
  simp [command, h]

@[simp] theorem command_ok {s t : State} (h : s.flt = .noFault) (a : α) :
    command s (t, .ok a) = (t, .ok a) := by
  simp [command, h]

@[simp] theorem command_error {s t : State} (h : s.flt = .noFault) (e : FaultRec) :
    command s ((t, .error e) : Run α) = (takeFault e t, .error e) := by
  simp [command, h]

/-- A command is refused, or it completes, or it takes the fault its effect ends in. -/
theorem command_cases (s : State) (run : Run α) :
    (s.flt ≠ .noFault ∧ command s run = (s, .error (recorded s))) ∨
    (s.flt = .noFault ∧ ∃ a, run.2 = .ok a ∧ command s run = (run.1, .ok a)) ∨
    (s.flt = .noFault ∧ ∃ e, run.2 = .error e ∧ command s run = (takeFault e run.1, .error e)) := by
  obtain ⟨t, a | a⟩ := run <;> by_cases h : s.flt = .noFault <;> simp [h, command_refused]

theorem hostRaise_ready {s : State} (h : s.flt = .noFault) (e : FaultRec) :
    (hostRaise e s : Run α) = (takeFault e s, .error e) := by
  simp [hostRaise, h]

theorem hostRaise_refused {s : State} (h : s.flt ≠ .noFault) (e : FaultRec) :
    (hostRaise e s : Run α) = (s, .error (recorded s)) := command_refused h _

/-! ### andThen -/

@[simp] theorem andThen_ok (s : State) (a : α) (next : α → State → Run β) :
    andThen (s, .ok a) next = next a s := rfl

@[simp] theorem andThen_error (s : State) (e : FaultRec) (next : α → State → Run β) :
    andThen ((s, .error e) : Run α) next = (s, .error e) := rfl

/-- A sequence completes when its first command does and the rest does from there. -/
theorem andThen_eq_ok {r : Run α} {next : α → State → Run β} {t : State} {b : β} :
    andThen r next = (t, .ok b) ↔ ∃ a u, r = (u, .ok a) ∧ next a u = (t, .ok b) := by
  obtain ⟨u, a | a⟩ := r <;> simp

/-- A sequence ends in a fault when its first command does, or when that completes and the rest does from there. -/
theorem andThen_eq_error {r : Run α} {next : α → State → Run β} {t : State} {e : FaultRec} :
    andThen r next = (t, .error e) ↔ r = (t, .error e) ∨ ∃ a u, r = (u, .ok a) ∧ next a u = (t, .error e) := by
  obtain ⟨u, a | a⟩ := r <;> simp

theorem andThen_assoc {γ : Type} (r : Run α) (f : α → State → Run β) (g : β → State → Run γ) :
    andThen (andThen r f) g = andThen r fun a s => andThen (f a s) g := by
  obtain ⟨u, a | a⟩ := r <;> simp

/-! ### respond -/

@[simp] theorem respond_ok (f : α → Result) (s : State) (a : α) :
    respond f (s, .ok a) = .next (latch (.ok (f a)) s) := rfl

@[simp] theorem respond_error (f : α → Result) (s : State) (e : FaultRec) :
    respond f ((s, .error e) : Run α) = .next (latch (.fault e) s) := rfl

@[simp] theorem response_ok (f : α → Result) (a : α) : response f (.ok a) = .ok (f a) := rfl

@[simp] theorem response_error (f : α → Result) (e : FaultRec) :
    response f (.error e : Except FaultRec α) = .fault e := rfl

@[simp] theorem latch_latch (r r' : Response) (s : State) : latch r (latch r' s) = latch r s := rfl

/-- A transaction always ends in a next state: the run's, with the response latched. -/
theorem respond_next (f : α → Result) (r : Run α) : respond f r = .next (latch (response f r.2) r.1) := rfl

/-! ### What a run keeps -/

/-- A property of the state that a run leaves true. -/
def Keeps (P : State → Prop) (r : Run α) : Prop := P r.1

theorem command_keeps {P : State → Prop} {s : State} {run : Run α} (hs : P s) (hrun : s.flt = .noFault → P run.1)
    (hfault : ∀ e, s.flt = .noFault → run.2 = .error e → P (takeFault e run.1)) : Keeps P (command s run) := by
  obtain ⟨-, h⟩ | ⟨h0, a, -, h⟩ | ⟨h0, e, he, h⟩ := command_cases s run <;> rw [h]
  · exact hs
  · exact hrun h0
  · exact hfault e h0 he

theorem command_ok_keeps {P : State → Prop} {s t : State} {a : α} (hs : P s) (ht : P t) :
    Keeps P (command s (t, .ok a)) :=
  command_keeps hs (fun _ => ht) fun e' _ h => by cases h

theorem andThen_keeps {P : State → Prop} {r : Run α} {next : α → State → Run β} (hr : Keeps P r)
    (hnext : ∀ a u, r = (u, .ok a) → P u → Keeps P (next a u)) : Keeps P (andThen r next) := by
  obtain ⟨u, e | a⟩ := r
  · exact hr
  · exact hnext a u rfl hr

end Sys2Proof.Machine
end

