-- ==== Sys2Proof/Laws/Agree.lean ====
section
/-! SUPPORT. What a command or a host sequence does depends on its operands and the five architectural registers alone:
from two states that agree there, it ends in two that agree there, with one result (10_state.md R10, R24). The relation
`R` in which the states agree may say more, as long as the named updates keep it: two states that differ in the last
response only end in two that do (`congruent_resp`). -/

namespace Sys2Proof.Machine

variable {α β : Type}

/-- A relation under which two states have the same architectural registers, kept by the updates the commands make. -/
structure Congruent (R : State → State → Prop) : Prop where
  arch : ∀ {s t}, R s t → SameArch s t
  fault : ∀ {s t} e, R s t → R (takeFault e s) (takeFault e t)
  int : ∀ {s t} inp tag busy r, R s t → R (storeInt inp tag busy r s) (storeInt inp tag busy r t)
  henc : ∀ {s t} r, R s t → R (storeHenc r s) (storeHenc r t)
  hdec : ∀ {s t} r, R s t → R (storeHdec r s) (storeHdec r t)
  insert : ∀ {s t} e, R s t → R (insertEntry e s) (insertEntry e t)
  shrink : ∀ {s t} l, R s t → R (shrink l s) (shrink l t)
  setMax : ∀ {s t} v, R s t → R (setMax v s) (setMax v t)

/-- Agreement on the architectural registers alone. -/
theorem congruent_arch : Congruent SameArch where
  arch h := h
  fault _ h := ⟨h.1, rfl, rfl⟩
  int _ _ _ _ h := h
  henc _ h := h
  hdec _ h := h
  insert _ h := ⟨⟨by simp [h.1.1], by simp [h.1.2.1], h.1.2.2⟩, h.2⟩
  shrink _ h := ⟨⟨by simp [h.1.1, h.1.2.1], by simp [h.1.1, h.1.2.1], h.1.2.2⟩, h.2⟩
  setMax _ h := ⟨⟨h.1.1, h.1.2.1, rfl⟩, h.2⟩

/-- Agreement on everything but the last response. -/
theorem congruent_resp : Congruent fun s t => ∃ r, t = latch r s where
  arch := by rintro s _ ⟨r, rfl⟩; exact ⟨⟨rfl, rfl, rfl⟩, rfl, rfl⟩
  fault := by rintro s _ e ⟨r, rfl⟩; exact ⟨r, rfl⟩
  int := by rintro s _ _ _ _ _ ⟨r, rfl⟩; exact ⟨r, rfl⟩
  henc := by rintro s _ _ ⟨r, rfl⟩; exact ⟨r, rfl⟩
  hdec := by rintro s _ _ ⟨r, rfl⟩; exact ⟨r, rfl⟩
  insert := by rintro s _ _ ⟨r, rfl⟩; exact ⟨r, rfl⟩
  shrink := by rintro s _ _ ⟨r, rfl⟩; exact ⟨r, rfl⟩
  setMax := by rintro s _ _ ⟨r, rfl⟩; exact ⟨r, rfl⟩

variable {R : State → State → Prop} {p : Params} {s t : State}

/-- Two runs give one result, and leave states that are related. -/
def Agree (R : State → State → Prop) (r r' : Run α) : Prop := R r.1 r'.1 ∧ r'.2 = r.2

theorem agree_intro {x y : State} {e : Except FaultRec α} (h : R x y) : Agree R (x, e) (y, e) := ⟨h, rfl⟩

theorem command_agree (c : Congruent R) (h : R s t) {r r' : Run α} (hr : Agree R r r') :
    Agree R (command s r) (command t r') := by
  obtain ⟨-, hf, hi⟩ := c.arch h
  obtain ⟨x, e⟩ := r
  obtain ⟨y, e'⟩ := r'
  obtain ⟨ha, rfl⟩ : R x y ∧ e' = e := hr
  unfold command
  rw [hf]
  split
  · cases e'
    · exact ⟨c.fault _ ha, rfl⟩
    · exact ⟨ha, rfl⟩
  · exact ⟨h, by simp [recorded, hf, hi]⟩

theorem andThen_agree {r r' : Run α} {n n' : α → State → Run β} (hr : Agree R r r')
    (hn : ∀ a u v, R u v → Agree R (n a u) (n' a v)) : Agree R (andThen r n) (andThen r' n') := by
  obtain ⟨x, e⟩ := r
  obtain ⟨y, e'⟩ := r'
  obtain ⟨ha, rfl⟩ : R x y ∧ e' = e := hr
  cases e'
  · exact ⟨ha, rfl⟩
  · exact hn _ _ _ ha

namespace Congruent

variable (c : Congruent R) (h : R s t)
include c h

theorem hostRaise (e : FaultRec) : Agree R (hostRaise e s : Run α) (hostRaise e t) :=
  command_agree c h (agree_intro h)

theorem runIenc (v n tag : Nat) : Agree R (runIenc v n tag s) (runIenc v n tag t) :=
  command_agree c h (agree_intro h)

theorem runIdecFrom (inp : Bytes) (pos n tag pfx : Nat) :
    Agree R (runIdecFrom p inp pos n tag pfx s) (runIdecFrom p inp pos n tag pfx t) :=
  command_agree c h (agree_intro (c.int _ _ _ _ h))

theorem runIdec (inp : Bytes) (pos n : Nat) : Agree R (runIdec p inp pos n s) (runIdec p inp pos n t) := by
  refine command_agree c h ?_
  split
  · split
    · exact agree_intro h
    · exact agree_intro (c.int _ _ _ _ h)
  · exact agree_intro h

theorem runHenc (str : Bytes) : Agree R (runHenc p str s) (runHenc p str t) :=
  command_agree c h (agree_intro (c.henc _ h))

theorem runHdec (inp : Bytes) : Agree R (runHdec p inp s) (runHdec p inp t) :=
  command_agree c h (agree_intro (c.hdec _ h))

theorem runDfind (n v : Bytes) : Agree R (runDfind p n v s) (runDfind p n v t) :=
  command_agree c h ⟨h, by rw [(c.arch h).1.1]⟩

theorem runDfindn (n : Bytes) : Agree R (runDfindn p n s) (runDfindn p n t) :=
  command_agree c h ⟨h, by rw [(c.arch h).1.1]⟩

theorem runDget (i : Nat) : Agree R (runDget p i s) (runDget p i t) :=
  command_agree c h ⟨h, by rw [(c.arch h).1.1]⟩

theorem runDpush (n v : Bytes) : Agree R (runDpush n v s) (runDpush n v t) :=
  command_agree c h (agree_intro (c.insert _ h))

theorem runDshrink (l : Nat) : Agree R (runDshrink l s) (runDshrink l t) :=
  command_agree c h (agree_intro (c.shrink _ h))

theorem runDsetmax (v : Nat) : Agree R (runDsetmax p v s) (runDsetmax p v t) := by
  refine command_agree c h ?_
  split
  · exact agree_intro h
  · exact agree_intro (c.shrink _ (c.setMax _ h))

/-! ### Strings -/

theorem runStrenc (str : Bytes) : Agree R (runStrenc p str s) (runStrenc p str t) := by
  refine andThen_agree (c.runHenc h _) fun a u v huv => ?_
  split
  · exact andThen_agree (c.runIenc huv _ _ _) fun _ _ _ h => agree_intro h
  · exact andThen_agree (c.runIenc huv _ _ _) fun _ _ _ h => agree_intro h

theorem runStrBody (inp : Bytes) (pos len : Nat) (huff : Bool) :
    Agree R (runStrBody p inp pos len huff s) (runStrBody p inp pos len huff t) := by
  unfold Machine.runStrBody
  split
  · exact c.hostRaise h _
  · dsimp only
    split
    · exact andThen_agree (c.runHdec h _) fun _ _ _ h => agree_intro h
    · exact agree_intro h

theorem runStrdec (inp : Bytes) (pos : Nat) : Agree R (runStrdec p inp pos s) (runStrdec p inp pos t) :=
  andThen_agree (c.runIdec h _ _ _) fun _ _ _ h => c.runStrBody h _ _ _ _

/-! ### Representations -/

theorem runInsert (n v : Bytes) : Agree R (runInsert n v s) (runInsert n v t) :=
  andThen_agree (c.runDpush h _ _) fun _ u v huv => by
    have hm : v.ddMax = u.ddMax := (c.arch huv).1.2.2
    rw [hm]
    exact c.runDshrink huv _

theorem runLiteral (inp : Bytes) (pos n tag pfx : Nat) :
    Agree R (runLiteral p inp pos n tag pfx s) (runLiteral p inp pos n tag pfx t) := by
  refine andThen_agree (c.runIdecFrom h _ _ _ _ _) fun r u v huv => andThen_agree ?_ fun _ _ _ h =>
    andThen_agree (c.runStrdec h _ _) fun _ _ _ h => agree_intro h
  unfold runLiteralName
  split
  · exact c.runStrdec huv _ _
  · exact andThen_agree (c.runDget huv _) fun _ _ _ h => agree_intro h

theorem runRep (rep : Rep) (inp : Bytes) (pos : Nat) : Agree R (runRep p rep inp pos s) (runRep p rep inp pos t) := by
  cases rep
  · exact andThen_agree (c.runIdecFrom h _ _ _ _ _) fun _ _ _ h =>
      andThen_agree (c.runDget h _) fun _ _ _ h => agree_intro h
  · exact andThen_agree (c.runLiteral h _ _ _ _ _) fun _ _ _ h =>
      andThen_agree (c.runInsert h _ _) fun _ _ _ h => agree_intro h
  · exact andThen_agree (c.runIdecFrom h _ _ _ _ _) fun _ _ _ h =>
      andThen_agree (c.runDsetmax h _) fun _ _ _ h => agree_intro h
  · exact andThen_agree (c.runLiteral h _ _ _ _ _) fun _ _ _ h => agree_intro h
  · exact andThen_agree (c.runLiteral h _ _ _ _ _) fun _ _ _ h => agree_intro h

/-! ### The encoder's sequences -/

theorem runEncLiteral (i n tag : Nat) (name value : Bytes) :
    Agree R (runEncLiteral p i n tag name value s) (runEncLiteral p i n tag name value t) := by
  refine andThen_agree (andThen_agree (c.runIenc h _ _ _) fun _ u v huv => ?_) fun _ _ _ h =>
    andThen_agree (c.runStrenc h _) fun _ _ _ h => agree_intro h
  split
  · exact andThen_agree (c.runStrenc huv _) fun _ _ _ h => agree_intro h
  · exact agree_intro huv

theorem runHfenc (x : Header) : Agree R (runHfenc p x s) (runHfenc p x t) := by
  have hm : t.ddMax = s.ddMax := (c.arch h).1.2.2
  unfold Machine.runHfenc
  rw [hm]
  split
  · exact andThen_agree (c.runDfindn h _) fun _ _ _ h => c.runEncLiteral h _ _ _ _ _
  · refine andThen_agree (c.runDfind h _ _) fun i u v huv => ?_
    split
    · exact c.runIenc huv _ _ _
    · exact andThen_agree (c.runDfindn huv _) fun _ _ _ h =>
        andThen_agree (c.runEncLiteral h _ _ _ _ _) fun _ _ _ h =>
          andThen_agree (c.runInsert h _ _) fun _ _ _ h => agree_intro h

theorem runEncode (hs : List Header) : Agree R (runEncode p hs s) (runEncode p hs t) := by
  induction hs generalizing s t with
  | nil => exact agree_intro h
  | cons x xs ih =>
    exact andThen_agree (c.runHfenc h x) fun _ _ _ h => andThen_agree (ih h) fun _ _ _ h => agree_intro h

end Congruent

end Sys2Proof.Machine
end

