-- ==== Sys2Proof/Laws/Bits.lean ====
section
/-! SUPPORT. Bit streams and byte strings: packing and unpacking undo each other, and what numbers bit strings denote. -/

namespace Sys2Proof.Machine

@[simp] theorem bitStream_nil : bitStream [] = [] := rfl

@[simp] theorem bitStream_cons (b : Byte) (s : Bytes) : bitStream (b :: s) = byteBits b ++ bitStream s := rfl

@[simp] theorem bitStream_append (a b : Bytes) : bitStream (a ++ b) = bitStream a ++ bitStream b := by
  simp [bitStream]

@[simp] theorem bitStream_length (s : Bytes) : (bitStream s).length = 8 * s.length := by
  induction s with
  | nil => rfl
  | cons b s ih => simp [byteBits, ih]; omega

@[simp] theorem codeBits_length (code len : Nat) : (codeBits code len).length = len := by simp [codeBits]

/-- A byte made of eight bits has these bits. -/
theorem byteBits_bitsToNat (b7 b6 b5 b4 b3 b2 b1 b0 : Bool) :
    byteBits (BitVec.ofNat 8 (bitsToNat [b7, b6, b5, b4, b3, b2, b1, b0])) = [b7, b6, b5, b4, b3, b2, b1, b0] := by
  revert b7 b6 b5 b4 b3 b2 b1 b0; decide +kernel

/-- A byte is made of its bits. -/
theorem bitsToNat_byteBits (b : Byte) : BitVec.ofNat 8 (bitsToNat (byteBits b)) = b := by
  revert b; decide +kernel

theorem packBits_cons (b : Byte) (l : List Bool) : packBits (byteBits b ++ l) = b :: packBits l := by
  simp only [byteBits, List.cons_append, List.nil_append, packBits]
  exact congrArg (· :: packBits l) (bitsToNat_byteBits b)

/-- Packing a byte string's bit stream gives the byte string. -/
@[simp] theorem packBits_bitStream (s : Bytes) : packBits (bitStream s) = s := by
  induction s with
  | nil => rfl
  | cons b s ih => rw [bitStream_cons, packBits_cons, ih]

/-- The bit stream of packed whole bytes is the bits packed. -/
theorem bitStream_packBits : ∀ (l : List Bool), l.length % 8 = 0 → bitStream (packBits l) = l
  | b7 :: b6 :: b5 :: b4 :: b3 :: b2 :: b1 :: b0 :: rest, h => by
    rw [packBits, bitStream_cons, byteBits_bitsToNat, bitStream_packBits rest (by simp at h; omega)]
    rfl
  | [], _ => rfl
  | [_], h | [_, _], h | [_, _, _], h | [_, _, _, _], h | [_, _, _, _, _], h | [_, _, _, _, _, _], h
  | [_, _, _, _, _, _, _], h => by simp at h

/-- The number of a bit string in two parts. -/
theorem bitsToNat_append (a b : List Bool) : bitsToNat (a ++ b) = bitsToNat a * 2 ^ b.length + bitsToNat b := by
  induction b using List.reverseRecOn with
  | nil => simp [bitsToNat]
  | append_singleton b x ih =>
    have snoc : ∀ l : List Bool, bitsToNat (l ++ [x]) = 2 * bitsToNat l + x.toNat := fun l => by simp [bitsToNat]
    rw [← List.append_assoc, snoc, snoc, ih, List.length_append, List.length_singleton, Nat.pow_succ]
    ring

theorem bitsToNat_lt (l : List Bool) : bitsToNat l < 2 ^ l.length := by
  induction l using List.reverseRecOn with
  | nil => decide
  | append_singleton l x ih =>
    rw [bitsToNat_append]
    have hx : bitsToNat [x] < 2 := by cases x <;> decide
    simp only [List.length_append, List.length_singleton, Nat.pow_succ, Nat.pow_zero, Nat.one_mul]
    omega

/-- A code's bits denote the code. -/
theorem bitsToNat_codeBits {code len : Nat} (h : code < 2 ^ len) : bitsToNat (codeBits code len) = code := by
  induction len generalizing code with
  | zero =>
    obtain rfl : code = 0 := by simpa using h
    rfl
  | succ len ih =>
    have split : codeBits code (len + 1) = codeBits (code / 2) len ++ [code.testBit 0] := by
      simp only [codeBits, List.range_succ, List.map_append, List.map_cons, List.map_nil]
      congr 1
      · refine List.map_congr_left fun i hi => ?_
        have hlt := List.mem_range.1 hi
        rw [Nat.testBit_div_two]
        congr 1
        omega
      · simp
    rw [split, bitsToNat_append, ih (by rw [Nat.pow_succ] at h; omega)]
    have hb : bitsToNat [code.testBit 0] = code % 2 := by
      rw [Nat.testBit_zero]
      rcases Nat.mod_two_eq_zero_or_one code with h | h <;> rw [h] <;> decide
    rw [hb, List.length_singleton]
    omega

end Sys2Proof.Machine
end

