-- ==== Sys2Proof/Laws/Dictionary.lean ====
section
/-! SUPPORT. What a search and an eviction can do, said once. -/

namespace Sys2Proof.Machine

@[simp] theorem totalCost_nil : totalCost [] = 0 := rfl

@[simp] theorem totalCost_cons (e : Entry) (l : List Entry) : totalCost (e :: l) = cost e + totalCost l := by
  simp [totalCost]

@[simp] theorem totalCost_append (a b : List Entry) : totalCost (a ++ b) = totalCost a + totalCost b := by
  simp [totalCost]

@[simp] theorem totalCost_reverse (l : List Entry) : totalCost l.reverse = totalCost l := by
  simp [totalCost, List.sum_reverse]

/-- Every entry costs at least 32. -/
theorem length_mul_le_totalCost (l : List Entry) : 32 * l.length ≤ totalCost l := by
  induction l with
  | nil => simp
  | cons e l ih => simp only [List.length_cons, totalCost_cons, cost]; omega

/-! ### Eviction -/

theorem evict_stop {limit total : Nat} {l : List Entry} (h : total ≤ limit ∨ l = []) :
    evict limit l total = (l, total) := by
  cases l
  · rfl
  · rw [evict, if_neg (by simp at h; omega)]

theorem evict_turn {limit total : Nat} {e : Entry} {l : List Entry} (h : limit < total) :
    evict limit (e :: l) total = evict limit l (total - cost e) := by
  rw [evict, if_pos h]

/-- With the true sum as the total, an eviction drops the fewest oldest entries that bring the sum within the limit, and
its total is the sum of what is left. -/
theorem evict_sum (limit : Nat) (l : List Entry) :
    ∃ k ≤ l.length, evict limit l (totalCost l) = (l.drop k, totalCost (l.drop k)) ∧
      totalCost (l.drop k) ≤ limit ∧ ∀ j < k, limit < totalCost (l.drop j) := by
  induction l with
  | nil => exact ⟨0, by simp [evict]⟩
  | cons e l ih =>
    by_cases h : limit < totalCost (e :: l)
    · obtain ⟨k, hk, he, hle, hlt⟩ := ih
      refine ⟨k + 1, by simpa using hk, ?_, hle, fun j hj => ?_⟩
      · rw [evict_turn h, totalCost_cons, Nat.add_sub_cancel_left, he]; rfl
      · cases j
        · exact h
        · exact hlt _ (by omega)
    · exact ⟨0, by simp, evict_stop (.inl (by omega)), by simpa using h, by simp⟩

/-- DSHRINK keeps SUM, and with it the total ends within the limit. -/
theorem shrink_sum {limit : Nat} {s : State} (h : SumHolds s) :
    SumHolds (shrink limit s) ∧ (shrink limit s).ddTotal ≤ limit := by
  obtain ⟨k, -, he, hle, -⟩ := evict_sum limit s.ddEnt.reverse
  rw [totalCost_reverse, ← (h : s.ddTotal = _)] at he
  constructor
  · change (evict _ _ _).2 = totalCost (evict _ _ _).1.reverse
    rw [he, totalCost_reverse]
  · change (evict _ _ _).2 ≤ limit
    rw [he]; exact hle

/-- DPUSH keeps SUM. -/
theorem insertEntry_sum {e : Entry} {s : State} (h : SumHolds s) : SumHolds (insertEntry e s) := by
  change s.ddTotal + cost e = totalCost (e :: s.ddEnt)
  rw [totalCost_cons, (h : s.ddTotal = _), Nat.add_comm]

/-! ### The combined index space -/

theorem staticRom_length : params.staticRom.length = 61 := by decide +kernel

theorem dictRead_static {ent : List Entry} {i : Nat} {e : Entry} (h1 : 1 ≤ i) (h : staticRom[i - 1]? = some e) :
    dictRead params ent i = .ok e := by
  have hlt := (List.getElem?_eq_some_iff.1 h).1
  have hl : staticRom.length = 61 := staticRom_length
  have h61 : i ≤ 61 := by omega
  rw [dictRead, if_pos ⟨h1, h61⟩, List.getD_eq_getElem?_getD]
  change Except.ok (staticRom[i - 1]?.getD _) = _
  rw [h]; rfl

theorem dictRead_dynamic {ent : List Entry} {i : Nat} {e : Entry} (h1 : 62 ≤ i) (h : ent[i - 62]? = some e) :
    dictRead params ent i = .ok e := by
  have hlt := (List.getElem?_eq_some_iff.1 h).1
  rw [dictRead, if_neg (by omega), if_pos ⟨h1, by omega⟩, List.getD_eq_getElem?_getD, h]
  rfl

theorem dictRead_outside {ent : List Entry} {i : Nat} (h : i = 0 ∨ 61 + ent.length < i) :
    dictRead params ent i = .error (invalidIndex i (61 + ent.length)) := by
  rw [dictRead, if_neg (by omega), if_neg (by omega)]

/-- What can be read at an index, exactly. -/
theorem dictRead_eq_ok {ent : List Entry} {i : Nat} {e : Entry} :
    dictRead params ent i = .ok e ↔
      (1 ≤ i ∧ staticRom[i - 1]? = some e) ∨ (62 ≤ i ∧ ent[i - 62]? = some e) := by
  constructor
  · intro h
    have hl : staticRom.length = 61 := staticRom_length
    unfold dictRead at h
    split at h
    · rename_i hc
      refine .inl ⟨hc.1, ?_⟩
      have hlt : i - 1 < staticRom.length := by omega
      rw [List.getElem?_eq_getElem hlt]
      rw [List.getD_eq_getElem?_getD] at h
      change Except.ok (staticRom[i - 1]?.getD _) = _ at h
      rw [List.getElem?_eq_getElem hlt] at h
      simpa using h
    · split at h
      · rename_i hc
        refine .inr ⟨hc.1, ?_⟩
        have hlt : i - 62 < ent.length := by omega
        rw [List.getElem?_eq_getElem hlt]
        rw [List.getD_eq_getElem?_getD, List.getElem?_eq_getElem hlt] at h
        simpa using h
      · cases h
  · rintro (⟨h1, h⟩ | ⟨h1, h⟩)
    · exact dictRead_static h1 h
    · exact dictRead_dynamic h1 h

/-- Everything a search can answer (R152): the least index whose entry passes the test, or 0 when none does. -/
theorem search_spec (ent : List Entry) (hit : Entry → Bool) :
    (search params ent hit ≠ 0 → ∃ e, dictRead params ent (search params ent hit) = .ok e ∧ hit e = true) ∧
    ∀ j e, j < search params ent hit ∨ search params ent hit = 0 → dictRead params ent j = .ok e →
      hit e = false := by
  have hl : staticRom.length = 61 := staticRom_length
  unfold search
  cases hs : params.staticRom.findIdx? hit with
  | some k =>
    obtain ⟨hk, hhit, hless⟩ := List.findIdx?_eq_some_iff_getElem.1 hs
    refine ⟨fun _ => ⟨params.staticRom[k], dictRead_static (Nat.le_add_right 1 k) ?_, hhit⟩, fun j e hj he => ?_⟩
    · rw [Nat.add_sub_cancel_left]; exact List.getElem?_eq_getElem hk
    · have hk' : k < staticRom.length := hk
      have hj' : j < 1 + k := by simpa using hj
      obtain ⟨h1, h⟩ | ⟨h1, h⟩ := dictRead_eq_ok.1 he
      · obtain ⟨hlt, rfl⟩ := List.getElem?_eq_some_iff.1 h
        exact Bool.not_eq_true _ ▸ hless (j - 1) (by omega)
      · omega
  | none =>
    have hnone : ∀ e ∈ staticRom, hit e = false := List.findIdx?_eq_none_iff.1 hs
    have hstat : ∀ j e, staticRom[j]? = some e → hit e = false := fun j e h => hnone e (List.mem_of_getElem? h)
    cases hd : ent.findIdx? hit with
    | some k =>
      obtain ⟨hk, hhit, hless⟩ := List.findIdx?_eq_some_iff_getElem.1 hd
      refine ⟨fun _ => ⟨ent[k], dictRead_dynamic (Nat.le_add_right 62 k) ?_, hhit⟩, fun j e hj he => ?_⟩
      · rw [Nat.add_sub_cancel_left]; exact List.getElem?_eq_getElem hk
      · have hj' : j < 62 + k := by simpa using hj
        obtain ⟨-, h⟩ | ⟨h1, h⟩ := dictRead_eq_ok.1 he
        · exact hstat _ _ h
        · obtain ⟨hlt, rfl⟩ := List.getElem?_eq_some_iff.1 h
          exact Bool.not_eq_true _ ▸ hless (j - 62) (by omega)
    | none =>
      refine ⟨by simp, fun j e _ he => ?_⟩
      obtain ⟨-, h⟩ | ⟨-, h⟩ := dictRead_eq_ok.1 he
      · exact hstat _ _ h
      · exact List.findIdx?_eq_none_iff.1 hd e (List.mem_of_getElem? h)

end Sys2Proof.Machine
end

