-- ==== Sys2Proof/Laws/Keeps.lean ====
section
/-! SUPPORT. Everything the machine can do to its state, said once: a property that the named updates keep is kept by
every instruction (`exec_keeps`), every host sequence, and every step (`step_keeps`). -/

namespace Sys2Proof.Machine

/-! ### Faults have a non-zero code -/

theorem idecByte_code {m : Nat} {more : Bool} {g : Nat} {r r' : IdRegs} {e : FaultRec}
    (h : idecByte m more g r = (r', .error e)) : e.code ≠ .noFault := by
  simp only [idecByte] at h
  split at h
  · simp only [Prod.mk.injEq, Except.error.injEq] at h
    rw [← h.2]; simp [integerOverflow]
  · simp at h

/-- An accepted continuation byte leaves the value within the bound. -/
theorem idecByte_val {m : Nat} {more b : Bool} {g : Nat} {r r' : IdRegs}
    (h : idecByte m more g r = (r', .ok b)) : r'.val ≤ m := by
  simp only [idecByte] at h
  split at h
  · simp at h
  · simp only [Prod.mk.injEq] at h
    rw [← h.1]; exact Nat.le_of_not_lt ‹_›

theorem idecLoop_code {m : Nat} {l : Bytes} {r r' : IdRegs} {e : FaultRec}
    (h : idecLoop m l r = (r', .error e)) : e.code ≠ .noFault := by
  induction l generalizing r with
  | nil =>
    simp only [idecLoop, Prod.mk.injEq, Except.error.injEq] at h
    rw [← h.2]; simp [truncatedByte]
  | cons c rest ih =>
    rw [idecLoop] at h
    split at h
    · exact ih h
    · simp at h
    · rename_i heq
      simp only [Prod.mk.injEq, Except.error.injEq] at h
      exact h.2 ▸ idecByte_code heq

theorem idecFrom_code {m : Nat} {inp : Bytes} {pos n pfx : Nat} {r : IdRegs} {e : FaultRec}
    (h : idecFrom m inp pos n pfx = (r, .error e)) : e.code ≠ .noFault := by
  unfold idecFrom at h
  split at h
  · simp at h
  · exact idecLoop_code h

theorem ienc_code {v n tag : Nat} {e : FaultRec} (h : ienc v n tag = .error e) : e.code ≠ .noFault := by
  unfold ienc at h
  split at h
  · split at h <;> cases h
  · cases h; simp [illegalOperand]

theorem dictRead_code {p : Params} {ent : List Entry} {i : Nat} {e : FaultRec}
    (h : dictRead p ent i = .error e) : e.code ≠ .noFault := by
  unfold dictRead at h
  split at h
  · cases h
  · split at h
    · cases h
    · cases h; simp [invalidIndex]

theorem hdLoop_code {p : Params} {inp : Bytes} {fuel : Nat} {r r' : HdRegs} {out : Bytes} {e : FaultRec}
    (h : hdLoop p inp fuel r out = (r', .error e)) : e.code ≠ .noFault := by
  induction fuel generalizing r out with
  | zero => simp [hdLoop] at h
  | succ fuel ih =>
    simp only [hdLoop] at h
    split at h
    · simp at h
    · split at h
      · simp at h
      · split at h
        · cases h; simp [huffmanInvalid]
        · split at h
          · cases h; simp [huffmanInvalid]
          · exact ih h

theorem hdecProc_code {p : Params} {inp : Bytes} {e : FaultRec}
    (h : (hdecProc p inp).2 = .error e) : e.code ≠ .noFault :=
  hdLoop_code (r' := (hdecProc p inp).1) (Prod.ext rfl h)

/-! ### The updates a property must survive -/

/-- The updates the units and the header field codec make of the state. -/
structure KeptByCodec (p : Params) (P : State → Prop) : Prop where
  fault : ∀ e s, s.flt = .noFault → e.code ≠ .noFault → P s → P (takeFault e s)
  int : ∀ inp tag busy r s, (busy = true → r.val ≤ p.intMax) → P s → P (storeInt inp tag busy r s)
  henc : ∀ str s, P s → P (storeHenc (hencProc p str) s)
  hdec : ∀ inp s, P s → P (storeHdec (hdecProc p inp).1 s)
  insert : ∀ e s, P s → P (insertEntry e s)
  shrink : ∀ limit s, P s → P (shrink limit s)
  setMax : ∀ v s, v ≤ p.ddLimit → P s → P (setMax v s)
  cursor : ∀ pos s, P s → P (moveCursor pos s)
  latch : ∀ r s, P s → P (latch r s)

/-- The updates the host's part of the machine makes besides. -/
structure KeptByHost (P : State → Prop) : Prop where
  source : ∀ inp pos s, P s → P (loadInput inp pos s)
  drop : ∀ s, P s → P (dropCursor s)
  rx : ∀ buf x s, P s → P (setRx buf x s)
  deliver : ∀ f s, P s → P (deliver f s)
  reset : ∀ s, P s → P { State.reset with port := s.port }
  port : ∀ l s, P s → P { s with port := l }

namespace KeptByCodec

variable {p : Params} {P : State → Prop} (k : KeptByCodec p P)
include k

theorem error {α : Type} {s t : State} {e : FaultRec} (hs : P s) (ht : P t) (he : e.code ≠ .noFault)
    (hf : s.flt = .noFault → t.flt = .noFault) : Keeps P (command s ((t, .error e) : Run α)) :=
  command_keeps hs (fun _ => ht) fun e' h0 h => by cases h; exact k.fault _ _ (hf h0) he ht

theorem hostRaise {α : Type} {s : State} (hs : P s) {e : FaultRec} (he : e.code ≠ .noFault) :
    Keeps P (hostRaise e s : Run α) := k.error hs hs he id

theorem runIenc {v n tag : Nat} {s : State} (hs : P s) : Keeps P (runIenc v n tag s) :=
  command_keeps hs (fun _ => hs) fun _ h0 h => k.fault _ _ h0 (ienc_code h) hs

theorem idecRun {inp : Bytes} {tag : Nat} {m : Nat} {pos n pfx : Nat} {s : State} (hs : P s) :
    Keeps P (command s (idecRun inp tag (idecFrom m inp pos n pfx) s)) := by
  have ht : ∀ r, P (storeInt inp tag false r s) := fun r => k.int _ _ _ _ _ (by simp) hs
  refine command_keeps hs (fun _ => ht _) fun e h0 h => k.fault _ _ h0 ?_ (ht _)
  unfold Machine.idecRun at h
  generalize hx : idecFrom m inp pos n pfx = x at h
  obtain ⟨r, e' | a⟩ := x
  · simp only [Except.error.injEq] at h
    exact h ▸ idecFrom_code hx
  · simp at h

theorem runIdecFrom {inp : Bytes} {pos n tag pfx : Nat} {s : State} (hs : P s) :
    Keeps P (runIdecFrom p inp pos n tag pfx s) := k.idecRun hs

theorem runIdec {inp : Bytes} {pos n : Nat} {s : State} (hs : P s) : Keeps P (runIdec p inp pos n s) := by
  unfold Machine.runIdec
  split
  · split
    · exact k.error hs hs (by simp [truncatedByte]) id
    · exact k.idecRun hs
  · exact k.error hs hs (by simp [illegalOperand]) id

theorem storeByte {tag : Nat} {busy : Bool} {r : IdRegs} {s : State} (hr : busy = true → r.val ≤ p.intMax)
    (hs : P s) : P (storeByte tag busy r s) := k.cursor _ _ (k.int _ _ _ _ _ hr hs)

theorem runIntFirst {n tag pfx : Nat} {s : State} (hs : P s) (hp : pfx ≤ p.intMax) :
    Keeps P (runIntFirst n tag pfx s) := by
  unfold Machine.runIntFirst
  split
  · exact command_ok_keeps hs (k.storeByte (by simp) hs)
  · exact command_ok_keeps hs (k.storeByte (fun _ => hp) hs)

theorem runIntCont {more : Bool} {group : Nat} {s : State} (hs : P s) : Keeps P (runIntCont p more group s) := by
  unfold Machine.runIntCont
  split
  · rename_i r heq
    refine command_ok_keeps hs (k.storeByte (fun _ => ?_) hs)
    exact idecByte_val heq
  · exact command_ok_keeps hs (k.storeByte (by simp) hs)
  · rename_i heq
    exact k.error hs (k.storeByte (by simp) hs) (idecByte_code heq) id

theorem runHenc {str : Bytes} {s : State} (hs : P s) : Keeps P (runHenc p str s) := command_ok_keeps hs (k.henc _ _ hs)

theorem runHdec {inp : Bytes} {s : State} (hs : P s) : Keeps P (runHdec p inp s) :=
  command_keeps hs (fun _ => k.hdec _ _ hs) fun _ h0 h => k.fault _ _ h0 (hdecProc_code h) (k.hdec _ _ hs)

theorem runDget {i : Nat} {s : State} (hs : P s) : Keeps P (runDget p i s) :=
  command_keeps hs (fun _ => hs) fun _ h0 h => k.fault _ _ h0 (dictRead_code h) hs

theorem runDpush {n v : Bytes} {s : State} (hs : P s) : Keeps P (runDpush n v s) :=
  command_ok_keeps hs (k.insert _ _ hs)

theorem runDshrink {l : Nat} {s : State} (hs : P s) : Keeps P (runDshrink l s) := command_ok_keeps hs (k.shrink _ _ hs)

theorem runDsetmax {v : Nat} {s : State} (hs : P s) : Keeps P (runDsetmax p v s) := by
  unfold Machine.runDsetmax
  split
  · exact k.error hs hs (by simp [sizeUpdateRange]) id
  · exact command_ok_keeps hs (k.shrink _ _ (k.setMax _ _ (by omega) hs))

theorem runInsert {n v : Bytes} {s : State} (hs : P s) : Keeps P (runInsert n v s) :=
  andThen_keeps (k.runDpush hs) fun _ _ _ h => k.runDshrink h

/-! #### Strings -/

theorem runStrenc {str : Bytes} {s : State} (hs : P s) : Keeps P (runStrenc p str s) := by
  refine andThen_keeps (k.runHenc hs) fun h t _ ht => ?_
  split
  · exact andThen_keeps (k.runIenc ht) fun _ _ _ hu => hu
  · exact andThen_keeps (k.runIenc ht) fun _ _ _ hu => hu

theorem runStrBody {inp : Bytes} {pos len : Nat} {huff : Bool} {s : State} (hs : P s) :
    Keeps P (runStrBody p inp pos len huff s) := by
  unfold Machine.runStrBody
  split
  · exact k.hostRaise hs (by simp [truncatedBody])
  · dsimp only
    split
    · exact andThen_keeps (k.runHdec hs) fun _ _ _ hu => hu
    · exact hs

theorem runStrdec {inp : Bytes} {pos : Nat} {s : State} (hs : P s) : Keeps P (runStrdec p inp pos s) :=
  andThen_keeps (k.runIdec hs) fun _ _ _ ht => k.runStrBody ht

theorem runStrAt {tag pfx : Nat} {s : State} (hs : P s) : Keeps P (runStrAt p tag pfx s) :=
  andThen_keeps (k.runIdecFrom hs) fun _ _ _ ht => andThen_keeps (k.runStrBody ht) fun _ _ _ hu => k.cursor _ _ hu

/-! #### Representations -/

theorem runRepIndexed {inp : Bytes} {pos pfx : Nat} {s : State} (hs : P s) : Keeps P (runRepIndexed p inp pos pfx s) :=
  andThen_keeps (k.runIdecFrom hs) fun _ _ _ ht => andThen_keeps (k.runDget ht) fun _ _ _ hu => hu

theorem runLiteral {inp : Bytes} {pos n tag pfx : Nat} {s : State} (hs : P s) :
    Keeps P (runLiteral p inp pos n tag pfx s) := by
  refine andThen_keeps (k.runIdecFrom hs) fun r t _ ht => andThen_keeps ?_ fun _ _ _ hu =>
    andThen_keeps (k.runStrdec hu) fun _ _ _ hv => hv
  unfold runLiteralName
  split
  · exact k.runStrdec ht
  · exact andThen_keeps (k.runDget ht) fun _ _ _ hu => hu

theorem runRepLitInc {inp : Bytes} {pos pfx : Nat} {s : State} (hs : P s) : Keeps P (runRepLitInc p inp pos pfx s) :=
  andThen_keeps (k.runLiteral hs) fun _ _ _ ht => andThen_keeps (k.runInsert ht) fun _ _ _ hu => hu

theorem runRepSizeUpd {inp : Bytes} {pos pfx : Nat} {s : State} (hs : P s) : Keeps P (runRepSizeUpd p inp pos pfx s) :=
  andThen_keeps (k.runIdecFrom hs) fun _ _ _ ht => andThen_keeps (k.runDsetmax ht) fun _ _ _ hu => hu

theorem runRepLitPlain {never : Bool} {inp : Bytes} {pos pfx : Nat} {s : State} (hs : P s) :
    Keeps P (runRepLitPlain p never inp pos pfx s) :=
  andThen_keeps (k.runLiteral hs) fun _ _ _ ht => ht

theorem runRep {rep : Rep} {inp : Bytes} {pos : Nat} {s : State} (hs : P s) : Keeps P (runRep p rep inp pos s) := by
  cases rep
  · exact k.runRepIndexed hs
  · exact k.runRepLitInc hs
  · exact k.runRepSizeUpd hs
  · exact k.runRepLitPlain hs
  · exact k.runRepLitPlain hs

/-! #### The encoder's sequences -/

theorem runEncLiteral {i n tag : Nat} {name value : Bytes} {s : State} (hs : P s) :
    Keeps P (runEncLiteral p i n tag name value s) := by
  refine andThen_keeps (andThen_keeps (k.runIenc hs) fun _ _ _ ht => ?_) fun _ _ _ hu =>
    andThen_keeps (k.runStrenc hu) fun _ _ _ hv => hv
  split
  · exact andThen_keeps (k.runStrenc ht) fun _ _ _ hu => hu
  · exact ht

theorem runHfenc {h : Header} {s : State} (hs : P s) : Keeps P (runHfenc p h s) := by
  unfold Machine.runHfenc
  split
  · exact andThen_keeps (command_ok_keeps hs hs) fun _ _ _ ht => k.runEncLiteral ht
  · refine andThen_keeps (command_ok_keeps hs hs) fun i _ _ ht => ?_
    split
    · exact k.runIenc ht
    · exact andThen_keeps (command_ok_keeps ht ht) fun _ _ _ hu => andThen_keeps (k.runEncLiteral hu) fun _ _ _ hv =>
        andThen_keeps (k.runInsert hv) fun _ _ _ hw => hw

theorem runEncode {hs : List Header} {s : State} (h : P s) : Keeps P (runEncode p hs s) := by
  induction hs generalizing s with
  | nil => exact h
  | cons x xs ih =>
    exact andThen_keeps (k.runHfenc h) fun _ _ _ ht => andThen_keeps (ih ht) fun _ _ _ hu => hu

/-! #### Transactions -/

theorem respond {α : Type} {f : α → Result} {r : Run α} (hr : Keeps P r) {t : State} (h : respond f r = .next t) :
    P t := by
  rw [respond_next] at h
  cases h
  exact k.latch _ _ hr

theorem respondRep {r : Run (Option Field × Nat)} (hr : Keeps P r) {t : State} (h : respondRep r = .next t) : P t := by
  refine k.respond (andThen_keeps hr fun x u _ hu => ?_) h
  exact k.cursor x.2 u hu

end KeptByCodec

/-- A property that the updates of `KeptByCodec` keep is kept by every instruction. -/
theorem exec_keeps {P : State → Prop} (k : KeptByCodec params P) (i : Instr) {s t : State} (hs : P s)
    (h : exec i s = .next t) : P t := by
  have hm : ∀ m : Nat, m < 128 → m ≤ params.intMax := fun m hm => by
    simp only [params, Config.intMax]; omega
  cases i with
  | ienc => exact k.respond (k.runIenc hs) h
  | idec => exact k.respond (k.runIdec hs) h
  | henc => exact k.respond (k.runHenc hs) h
  | hdec => exact k.respond (k.runHdec hs) h
  | dfind => exact k.respond (command_ok_keeps hs hs) h
  | dfindn => exact k.respond (command_ok_keeps hs hs) h
  | dget => exact k.respond (k.runDget hs) h
  | dpush => exact k.respond (k.runDpush hs) h
  | dshrink => exact k.respond (k.runDshrink hs) h
  | dsetmax => exact k.respond (k.runDsetmax hs) h
  | repIndexed => exact k.respondRep (k.runRepIndexed hs) h
  | repLitInc => exact k.respondRep (k.runRepLitInc hs) h
  | repSizeUpd => exact k.respondRep (k.runRepSizeUpd hs) h
  | repLitNever => exact k.respondRep (k.runRepLitPlain hs) h
  | repLitNoIdx => exact k.respondRep (k.runRepLitPlain hs) h
  | strHuff => exact k.respond (k.runStrAt hs) h
  | strRaw => exact k.respond (k.runStrAt hs) h
  | intFirstN4 _ pfx => exact k.respond (k.runIntFirst hs (hm _ (by have := pfx.isLt; omega))) h
  | intFirstN5 _ pfx => exact k.respond (k.runIntFirst hs (hm _ (by have := pfx.isLt; omega))) h
  | intFirstN6 _ pfx => exact k.respond (k.runIntFirst hs (hm _ (by have := pfx.isLt; omega))) h
  | intFirstN7 _ pfx => exact k.respond (k.runIntFirst hs (hm _ (by have := pfx.isLt; omega))) h
  | intCont =>
    simp only [exec, execIntCont] at h
    split at h
    · cases h
    · exact k.respond (k.runIntCont hs) h

/-- A property that the host's updates keep as well is kept by DRAIN's loop. -/
theorem drainLoop_keeps {p : Params} {P : State → Prop} (k : KeptByCodec p P) (kh : KeptByHost P)
    {buf : Bytes} {fuel pos : Nat} {s : State} (hs : P s) : Keeps P (drainLoop p buf fuel pos s) := by
  induction fuel generalizing pos s with
  | zero => exact hs
  | succ fuel ih =>
    unfold drainLoop
    split
    · exact hs
    · exact andThen_keeps (k.runRep hs) fun _ _ _ ht => ih (kh.drop _ (kh.deliver _ _ ht))

theorem missingByte_keeps {P : State → Prop} (k : KeptByCodec params P) {fmt : Format} {s t : State} (hs : P s)
    (h : missingByte fmt s = .next t) : P t := by
  unfold missingByte at h
  split at h
  · cases h
  · split at h
    · exact k.respond (k.hostRaise hs (by simp [truncatedByte])) h
    · cases h
  · refine k.respond (k.hostRaise hs ?_) h
    split <;> simp [truncatedByte, illegalOperand]

theorem fetchWire_keeps {P : State → Prop} (k : KeptByCodec params P) {fmt : Format} {src : Option (Bytes × Nat)}
    {s t : State} (hs : P s) (hsrc : P (loadSource src s)) (h : fetchWire fmt src s = .next t) : P t := by
  unfold fetchWire at h
  split at h
  · dsimp only at h
    split at h
    · split at h
      · exact exec_keeps k _ hsrc h
      · exact missingByte_keeps k hsrc h
    · cases h
  · exact k.respond (α := Unit) (r := (s, .error (recorded s))) hs h

theorem fetchCmd_keeps {P : State → Prop} (k : KeptByCodec params P) {code : Byte} {ops : Operands} {s t : State}
    (hs : P s) (h : fetchCmd code ops s = .next t) : P t := by
  unfold fetchCmd at h
  split at h
  · exact exec_keeps k _ hs h
  · exact k.respond (k.hostRaise hs (by simp [illegalCommand])) h

/-- A property that every named update keeps is kept by every request. -/
theorem serve_keeps {P : State → Prop} (k : KeptByCodec params P) (kh : KeptByHost P) (r : Request) {s t : State}
    (hs : P s) (h : serve r s = .next t) : P t := by
  cases r with
  | cmd => exact fetchCmd_keeps k hs h
  | wire fmt src =>
    refine fetchWire_keeps k hs ?_ h
    cases src
    · exact hs
    · exact kh.source _ _ _ hs
  | strenc => exact k.respond (k.runStrenc hs) h
  | hfenc => exact k.respond (k.runHfenc hs) h
  | encode => exact k.respond (k.runEncode hs) h
  | feed => exact k.respond (command_ok_keeps hs (kh.rx _ _ _ hs)) h
  | drain =>
    refine k.respond ?_ h
    unfold runDrain
    split
    · exact andThen_keeps (drainLoop_keeps k kh (kh.rx _ _ _ hs)) fun _ _ _ hu => kh.rx _ _ _ hu
    · exact hs
  | eof =>
    refine k.respond (command_keeps hs (fun _ => hs) fun e h0 he => k.fault _ _ h0 ?_ hs) h
    dsimp only at he
    split at he <;> cases he
    simp [undrained]
  | post e =>
    refine k.respond ?_ h
    unfold runPost
    split
    · exact hs
    · exact k.hostRaise hs ‹_›
  | reset => cases h; exact kh.reset _ hs

/-- A property that every named update keeps is kept by every step. -/
theorem step_keeps {P : State → Prop} (k : KeptByCodec params P) (kh : KeptByHost P) {s t : State} (hs : P s)
    (h : step s = .next t) : P t := by
  unfold step at h
  split at h
  · cases h; exact hs
  · exact serve_keeps k kh _ (kh.port _ _ hs) h

end Sys2Proof.Machine
end

