-- ==== Sys2Proof/Laws/Faults.lean ====
section
/-! SUPPORT. How a run that starts with no fault recorded can end (60_exceptions.md R232): with a result and the fault
registers as they were, or with a fault that the fault registers now hold. -/

namespace Sys2Proof.Machine

variable {α β : Type} {p : Params} {s : State}

/-- A run's end fits the fault registers it leaves. -/
def Precise (s : State) (r : Run α) : Prop :=
  match r.2 with
  | .ok _ => SameFault s r.1
  | .error e => e.code ≠ .noFault ∧ r.1.flt = e.code ∧ r.1.finfo = e.info

theorem precise_ok {t : State} {a : α} (h : SameFault s t) : Precise s ((t, .ok a) : Run α) := h

theorem Precise.of_ok {r : Run α} {t : State} {a : α} (h : Precise s r) (hr : r = (t, .ok a)) : SameFault s t := by
  subst hr; exact h

theorem Precise.of_error {r : Run α} {t : State} {e : FaultRec} (h : Precise s r) (hr : r = (t, .error e)) :
    e.code ≠ .noFault ∧ t.flt = e.code ∧ t.finfo = e.info := by
  subst hr; exact h

theorem command_precise (h : s.flt = .noFault) {run : Run α} (hs : SameFault s run.1)
    (he : ∀ e, run.2 = .error e → e.code ≠ .noFault) : Precise s (command s run) := by
  obtain ⟨t, e | a⟩ := run
  · rw [command_error h]; exact ⟨he e rfl, rfl, rfl⟩
  · rw [command_ok h]; exact hs

theorem andThen_precise (h : s.flt = .noFault) {r : Run α} {next : α → State → Run β} (hr : Precise s r)
    (hn : ∀ a u, u.flt = .noFault → Precise u (next a u)) : Precise s (andThen r next) := by
  obtain ⟨u, e | a⟩ := r
  · exact hr
  · have hu : SameFault s u := hr
    have := hn a u (hu.1.trans h)
    change Precise s (next a u)
    unfold Precise at this ⊢
    split at this
    · exact ⟨this.1.trans hu.1, this.2.trans hu.2⟩
    · exact this

section Runs

variable (h : s.flt = .noFault)
include h

theorem hostRaise_precise {e : FaultRec} (he : e.code ≠ .noFault) : Precise s (hostRaise e s : Run α) :=
  command_precise h ⟨rfl, rfl⟩ fun e' h' => by cases h'; exact he

theorem runIenc_precise (v n tag : Nat) : Precise s (runIenc v n tag s) :=
  command_precise h ⟨rfl, rfl⟩ fun _ h => ienc_code h

theorem idecRun_precise {inp : Bytes} {tag m pos n pfx : Nat} :
    Precise s (command s (idecRun inp tag (idecFrom m inp pos n pfx) s)) := by
  refine command_precise h ⟨rfl, rfl⟩ fun e he => ?_
  generalize hx : idecFrom m inp pos n pfx = x at he
  obtain ⟨r, e' | a⟩ := x
  · cases he; exact idecFrom_code hx
  · cases he

theorem runIdecFrom_precise (inp : Bytes) (pos n tag pfx : Nat) : Precise s (runIdecFrom p inp pos n tag pfx s) :=
  idecRun_precise h

theorem runIdec_precise (inp : Bytes) (pos n : Nat) : Precise s (runIdec p inp pos n s) := by
  unfold runIdec
  split
  · split
    · exact hostRaise_precise h (by simp [truncatedByte])
    · exact idecRun_precise h
  · exact hostRaise_precise h (by simp [illegalOperand])

theorem runHenc_precise (str : Bytes) : Precise s (runHenc p str s) :=
  command_precise h ⟨rfl, rfl⟩ fun _ h => by cases h

theorem runHdec_precise (inp : Bytes) : Precise s (runHdec p inp s) :=
  command_precise h ⟨rfl, rfl⟩ fun _ h => hdecProc_code h

theorem runDget_precise (i : Nat) : Precise s (runDget p i s) :=
  command_precise h ⟨rfl, rfl⟩ fun _ h => dictRead_code h

theorem runInsert_precise (n v : Bytes) : Precise s (runInsert n v s) :=
  andThen_precise h (command_precise h ⟨rfl, rfl⟩ fun _ h => by cases h) fun _ _ h =>
    command_precise h ⟨rfl, rfl⟩ fun _ h => by cases h

theorem runDsetmax_precise (v : Nat) : Precise s (runDsetmax p v s) := by
  unfold runDsetmax
  split
  · exact hostRaise_precise h (by simp [sizeUpdateRange])
  · exact command_precise h ⟨rfl, rfl⟩ fun _ h => by cases h

theorem runStrenc_precise (str : Bytes) : Precise s (runStrenc p str s) := by
  refine andThen_precise h (runHenc_precise h _) fun a u hu => ?_
  split
  · exact andThen_precise hu (runIenc_precise hu _ _ _) fun _ _ _ => ⟨rfl, rfl⟩
  · exact andThen_precise hu (runIenc_precise hu _ _ _) fun _ _ _ => ⟨rfl, rfl⟩

theorem runStrBody_precise (inp : Bytes) (pos len : Nat) (huff : Bool) :
    Precise s (runStrBody p inp pos len huff s) := by
  unfold runStrBody
  split
  · exact hostRaise_precise h (by simp [truncatedBody])
  · dsimp only
    split
    · exact andThen_precise h (runHdec_precise h _) fun _ _ _ => ⟨rfl, rfl⟩
    · exact ⟨rfl, rfl⟩

theorem runStrdec_precise (inp : Bytes) (pos : Nat) : Precise s (runStrdec p inp pos s) :=
  andThen_precise h (runIdec_precise h _ _ _) fun _ _ h => runStrBody_precise h _ _ _ _

theorem runStrAt_precise (tag pfx : Nat) : Precise s (runStrAt p tag pfx s) :=
  andThen_precise h (runIdecFrom_precise h _ _ _ _ _) fun _ _ h =>
    andThen_precise h (runStrBody_precise h _ _ _ _) fun _ _ _ => ⟨rfl, rfl⟩

theorem runLiteral_precise (inp : Bytes) (pos n tag pfx : Nat) : Precise s (runLiteral p inp pos n tag pfx s) := by
  refine andThen_precise h (runIdecFrom_precise h _ _ _ _ _) fun r u hu => andThen_precise hu ?_ fun _ _ h =>
    andThen_precise h (runStrdec_precise h _ _) fun _ _ _ => ⟨rfl, rfl⟩
  unfold runLiteralName
  split
  · exact runStrdec_precise hu _ _
  · exact andThen_precise hu (runDget_precise hu _) fun _ _ _ => ⟨rfl, rfl⟩

theorem runRep_precise (rep : Rep) (inp : Bytes) (pos : Nat) : Precise s (runRep p rep inp pos s) := by
  cases rep
  · exact andThen_precise h (runIdecFrom_precise h _ _ _ _ _) fun _ _ h =>
      andThen_precise h (runDget_precise h _) fun _ _ _ => ⟨rfl, rfl⟩
  · exact andThen_precise h (runLiteral_precise h _ _ _ _ _) fun _ _ h =>
      andThen_precise h (runInsert_precise h _ _) fun _ _ _ => ⟨rfl, rfl⟩
  · exact andThen_precise h (runIdecFrom_precise h _ _ _ _ _) fun _ _ h =>
      andThen_precise h (runDsetmax_precise h _) fun _ _ _ => ⟨rfl, rfl⟩
  · exact andThen_precise h (runLiteral_precise h _ _ _ _ _) fun _ _ _ => ⟨rfl, rfl⟩
  · exact andThen_precise h (runLiteral_precise h _ _ _ _ _) fun _ _ _ => ⟨rfl, rfl⟩

end Runs

theorem drainLoop_precise {buf : Bytes} {fuel pos : Nat} {s : State} (h : s.flt = .noFault) :
    Precise s (drainLoop p buf fuel pos s) := by
  induction fuel generalizing pos s with
  | zero => exact ⟨rfl, rfl⟩
  | succ fuel ih =>
    unfold drainLoop
    split
    · exact ⟨rfl, rfl⟩
    · exact andThen_precise h (runRep_precise h _ _ _) fun a u hu => ih (s := dropCursor (deliver a.1 u)) hu

end Sys2Proof.Machine
end

