-- ==== Sys2Proof/Laws/Integer.lean ====
section
/-! SUPPORT. What the loops of the integer unit do in one turn, and the operand tests as conditions on numbers. -/

namespace Sys2Proof.Machine

theorem legalWidth_iff {n : Nat} : legalWidth n = true ↔ 4 ≤ n ∧ n ≤ 7 := by
  simp only [legalWidth, Bool.or_eq_true, beq_iff_eq]
  omega

/-- The continuation bit and the group of a byte, as numbers. -/
theorem contFlag_iff (c : Byte) : contFlag (c.extractLsb' 7 1) = true ↔ 128 ≤ c.toNat := by
  revert c; decide +kernel

theorem group_toNat (c : Byte) : (c.extractLsb' 0 7).toNat = c.toNat % 128 := by
  simp

/-- R95's loop: a byte with C = 1 whose group keeps the value within the bound. -/
theorem idecLoop_continue {m : Nat} {c : Byte} {rest : Bytes} {r : IdRegs} (hc : 128 ≤ c.toNat)
    (hv : r.val + c.toNat % 128 * 2 ^ (7 * r.i) ≤ m) :
    idecLoop m (c :: rest) r = idecLoop m rest ⟨r.val + c.toNat % 128 * 2 ^ (7 * r.i), r.i + 1, r.pos + 1⟩ := by
  rw [idecLoop, group_toNat, (contFlag_iff c).2 hc, idecByte, if_neg (by omega)]

/-- R95's loop: a byte with C = 0 whose group keeps the value within the bound. -/
theorem idecLoop_last {m : Nat} {c : Byte} {rest : Bytes} {r : IdRegs} (hc : c.toNat < 128)
    (hv : r.val + c.toNat % 128 * 2 ^ (7 * r.i) ≤ m) :
    idecLoop m (c :: rest) r = (⟨r.val + c.toNat % 128 * 2 ^ (7 * r.i), r.i + 1, r.pos + 1⟩, .ok ()) := by
  have hf : contFlag (c.extractLsb' 7 1) = false := by
    rw [← Bool.not_eq_true, contFlag_iff]; omega
  rw [idecLoop, group_toNat, hf, idecByte, if_neg (by omega)]

/-- R95's loop: a byte whose group takes the value above the bound, whatever its C. -/
theorem idecLoop_overflow {m : Nat} {c : Byte} {rest : Bytes} {r : IdRegs}
    (hv : m < r.val + c.toNat % 128 * 2 ^ (7 * r.i)) :
    idecLoop m (c :: rest) r =
      (⟨r.val + c.toNat % 128 * 2 ^ (7 * r.i), r.i, r.pos + 1⟩,
        .error (integerOverflow r.pos m (r.val + c.toNat % 128 * 2 ^ (7 * r.i)))) := by
  rw [idecLoop, group_toNat, idecByte, if_pos hv]

/-- IENC's tail: a group that is not the last. -/
theorem iencTail_continue {fuel rest : Nat} (h : 128 ≤ rest) :
    iencTail (fuel + 1) rest = BitVec.ofNat 8 (128 + rest % 128) :: iencTail fuel (rest / 128) := by
  rw [iencTail, if_pos h]

/-- IENC's tail: the last group. -/
theorem iencTail_last {fuel rest : Nat} (h : rest < 128) : iencTail fuel rest = [BitVec.ofNat 8 rest] := by
  cases fuel
  · rfl
  · rw [iencTail, if_neg (by omega)]

/-- IENC never faults on operands in range. -/
theorem ienc_legal {value n tag : Nat} (h : (legalWidth n && legalTag n tag) = true) :
    ∃ out, ienc value n tag = .ok out := by
  rw [ienc, if_pos h]
  split <;> exact ⟨_, rfl⟩

/-- Everything IDEC can do when no fault is recorded: `idec` is its result, and only the integer unit's
registers, the input and the cursor change. -/
theorem runIdec_ready {p : Params} {inp : Bytes} {pos n : Nat} {s : State} (h : s.flt = .noFault) :
    ∃ t, SameDict s t ∧ SameHost s t ∧ SameHenc s t ∧ SameHdec s t ∧ SameFault s t ∧
      (∀ r, idec p.intMax inp pos n = .ok r → runIdec p inp pos n s = (t, .ok r)) ∧
      (∀ e, idec p.intMax inp pos n = .error e → runIdec p inp pos n s = (takeFault e t, .error e)) := by
  unfold runIdec idec SameDict SameHost SameHenc SameHdec SameFault
  split
  · cases hb : inp[pos]? with
    | none => exact ⟨s, by simp [h, eq_comm]⟩
    | some b =>
      dsimp only
      generalize idecFrom p.intMax inp pos n (prefixOf n b) = x
      obtain ⟨r, e | u⟩ := x
      · exact ⟨storeInt inp (tagOf n b) false r s, by simp [idecRun, h, eq_comm]⟩
      · exact ⟨storeInt inp (tagOf n b) false r s, by simp [idecRun, h, eq_comm]⟩
  · exact ⟨s, by simp [h, eq_comm]⟩

end Sys2Proof.Machine
end

