-- ==== Sys2Proof/Laws/PerInstr.lean ====
section
/-! SUPPORT. One fact about every instruction as syntax: its encoded byte has the fixed bits of its row of
spec/opcode_table.json. -/

namespace Sys2Proof.Laws.RowPattern

/-- Mask and match of the instruction's row of the opcode table; an INT byte has no fixed bits. -/
def row : Instr → Byte × Byte
  | .ienc _ _ _ => (0xff, 0x01)
  | .idec _ _ _ => (0xff, 0x02)
  | .henc _ => (0xff, 0x03)
  | .hdec _ => (0xff, 0x04)
  | .dfind _ _ => (0xff, 0x10)
  | .dfindn _ => (0xff, 0x11)
  | .dget _ => (0xff, 0x12)
  | .dpush _ _ => (0xff, 0x13)
  | .dshrink _ => (0xff, 0x14)
  | .dsetmax _ => (0xff, 0x15)
  | .repIndexed _ => (0x80, 0x80)
  | .repLitInc _ => (0xc0, 0x40)
  | .repSizeUpd _ => (0xe0, 0x20)
  | .repLitNever _ => (0xf0, 0x10)
  | .repLitNoIdx _ => (0xf0, 0x00)
  | .strHuff _ => (0x80, 0x80)
  | .strRaw _ => (0x80, 0x00)
  | .intFirstN4 _ _ => (0x00, 0x00)
  | .intFirstN5 _ _ => (0x00, 0x00)
  | .intFirstN6 _ _ => (0x00, 0x00)
  | .intFirstN7 _ _ => (0x00, 0x00)
  | .intCont _ _ => (0x00, 0x00)

/-- The byte of a port word: the command code, or the wire byte. -/
def byteOf : PortWord → Byte
  | .cmd code _ => code
  | .wire _ b => b

/-- The byte under the row's mask is the row's match. -/
def Statement (i : Instr) : Prop := byteOf (encode i) &&& (row i).1 = (row i).2

theorem ienc (value : Nat) (n : Nat) (tag : Nat) : Statement (.ienc value n tag) := by
  simp [Statement, byteOf, encode, row]

theorem idec (inp : Bytes) (pos : Nat) (n : Nat) : Statement (.idec inp pos n) := by
  simp [Statement, byteOf, encode, row]

theorem henc (str : Bytes) : Statement (.henc str) := by
  simp [Statement, byteOf, encode, row]

theorem hdec (inp : Bytes) : Statement (.hdec inp) := by
  simp [Statement, byteOf, encode, row]

theorem dfind (name : Bytes) (value : Bytes) : Statement (.dfind name value) := by
  simp [Statement, byteOf, encode, row]

theorem dfindn (name : Bytes) : Statement (.dfindn name) := by
  simp [Statement, byteOf, encode, row]

theorem dget (index : Nat) : Statement (.dget index) := by
  simp [Statement, byteOf, encode, row]

theorem dpush (name : Bytes) (value : Bytes) : Statement (.dpush name value) := by
  simp [Statement, byteOf, encode, row]

theorem dshrink (limit : Nat) : Statement (.dshrink limit) := by
  simp [Statement, byteOf, encode, row]

theorem dsetmax (v : Nat) : Statement (.dsetmax v) := by
  simp [Statement, byteOf, encode, row]

theorem repIndexed (a : BitVec 7) : Statement (.repIndexed a) := by
  unfold Statement
  revert a
  decide +kernel

theorem repLitInc (a : BitVec 6) : Statement (.repLitInc a) := by
  unfold Statement
  revert a
  decide +kernel

theorem repSizeUpd (a : BitVec 5) : Statement (.repSizeUpd a) := by
  unfold Statement
  revert a
  decide +kernel

theorem repLitNever (a : BitVec 4) : Statement (.repLitNever a) := by
  unfold Statement
  revert a
  decide +kernel

theorem repLitNoIdx (a : BitVec 4) : Statement (.repLitNoIdx a) := by
  unfold Statement
  revert a
  decide +kernel

theorem strHuff (a : BitVec 7) : Statement (.strHuff a) := by
  unfold Statement
  revert a
  decide +kernel

theorem strRaw (a : BitVec 7) : Statement (.strRaw a) := by
  unfold Statement
  revert a
  decide +kernel

theorem intFirstN4 (a : BitVec 4) (b : BitVec 4) : Statement (.intFirstN4 a b) := BitVec.and_zero

theorem intFirstN5 (a : BitVec 3) (b : BitVec 5) : Statement (.intFirstN5 a b) := BitVec.and_zero

theorem intFirstN6 (a : BitVec 2) (b : BitVec 6) : Statement (.intFirstN6 a b) := BitVec.and_zero

theorem intFirstN7 (a : BitVec 1) (b : BitVec 7) : Statement (.intFirstN7 a b) := BitVec.and_zero

theorem intCont (a : BitVec 1) (b : BitVec 7) : Statement (.intCont a b) := BitVec.and_zero

end Sys2Proof.Laws.RowPattern
end

