-- ==== Sys2Proof/Tests/Slice0.lean ====
section
/-! SUPPORT. The model's own tests: ill-formed operands, a word of each encoding, vectors of spec/95_test_vectors.md, and
for each statement with hypotheses a witness that meets them. -/

namespace Sys2Proof.Tests

open Sys2Proof.Machine Sys2Proof.Claims

/-! ### Well-formedness: each check refuses a term (30_encoding.md R72, R74) -/

theorem test_ienc_width_too_small : (Instr.ienc 1 3 0).wellFormed = false := by decide
theorem test_ienc_width_too_big : (Instr.ienc 42 8 0).wellFormed = false := by decide
theorem test_ienc_tag_in_prefix : (Instr.ienc 1 5 0x10).wellFormed = false := by decide
theorem test_ienc_tag_not_a_byte : (Instr.ienc 1 5 0x100).wellFormed = false := by decide
theorem test_idec_width_too_small : (Instr.idec [0x1f#8] 0 3).wellFormed = false := by decide
theorem test_idec_width_too_big : (Instr.idec [0x1f#8] 0 8).wellFormed = false := by decide
theorem test_idec_pos_past_end : (Instr.idec [0x1f#8, 0x9a#8, 0x0a#8] 4 5).wellFormed = false := by decide
theorem test_well_formed_limits :
    (Instr.ienc 0 4 0xf0).wellFormed = true ∧ (Instr.ienc 0 7 0x80).wellFormed = true ∧
      (Instr.idec [0x1f#8] 1 5).wellFormed = true := by decide

/-! ### Decoding: a word of each encoding, written out from R72 (commands) and R61, R63 to R67 (wire formats) -/

theorem test_decode_ienc : decode (.cmd 0x01 { value := 10, n := 5, tag := 0xe0 }) = .ok (.ienc 10 5 0xe0) := by decide
theorem test_decode_idec : decode (.cmd 0x02 { str1 := [0x0a#8], pos := 1, n := 6 }) = .ok (.idec [0x0a#8] 1 6) := by decide
theorem test_decode_henc : decode (.cmd 0x03 { str1 := [0x61#8] }) = .ok (.henc [0x61#8]) := by decide
theorem test_decode_hdec : decode (.cmd 0x04 { str1 := [0x1f#8] }) = .ok (.hdec [0x1f#8]) := by decide
theorem test_decode_dfind :
    decode (.cmd 0x10 { str1 := [0x61#8], str2 := [0x62#8] }) = .ok (.dfind [0x61#8] [0x62#8]) := by decide
theorem test_decode_dfindn : decode (.cmd 0x11 { str1 := [0x61#8] }) = .ok (.dfindn [0x61#8]) := by decide
theorem test_decode_dget : decode (.cmd 0x12 { value := 62 }) = .ok (.dget 62) := by decide
theorem test_decode_dpush :
    decode (.cmd 0x13 { str1 := [0x61#8], str2 := [0x62#8] }) = .ok (.dpush [0x61#8] [0x62#8]) := by decide
theorem test_decode_dshrink : decode (.cmd 0x14 { value := 100 }) = .ok (.dshrink 100) := by decide
theorem test_decode_dsetmax : decode (.cmd 0x15 { value := 70 }) = .ok (.dsetmax 70) := by decide
theorem test_decode_unknown : decode (.cmd 0x05 {}) = .error (.unknownCommand 0x05) := by decide
theorem test_decode_rep :
    decode (.wire .rep 0b11000001) = .ok (.repIndexed 0b1000001) ∧
    decode (.wire .rep 0b01100001) = .ok (.repLitInc 0b100001) ∧
    decode (.wire .rep 0b00110001) = .ok (.repSizeUpd 0b10001) ∧
    decode (.wire .rep 0b00011001) = .ok (.repLitNever 0b1001) ∧
    decode (.wire .rep 0b00001001) = .ok (.repLitNoIdx 0b1001) := by decide
theorem test_decode_str :
    decode (.wire .str 0b10000001) = .ok (.strHuff 1) ∧ decode (.wire .str 0b01000001) = .ok (.strRaw 0b1000001) := by
  decide
theorem test_decode_int :
    decode (.wire .int4 0b11010110) = .ok (.intFirstN4 0b1101 0b0110) ∧
    decode (.wire .int5 0b11010110) = .ok (.intFirstN5 0b110 0b10110) ∧
    decode (.wire .int6 0b11010110) = .ok (.intFirstN6 0b11 0b010110) ∧
    decode (.wire .int7 0b11010110) = .ok (.intFirstN7 0b1 0b1010110) ∧
    decode (.wire .cont 0b11010110) = .ok (.intCont 0b1 0b1010110) := by decide

/-! ### Vectors of spec/95_test_vectors.md -/

/-- The parameters of the spec's vectors. -/
def vectorParams : Params := { params with intMax := 4294967295, ddLimit := 4096 }

/-- The response of a transaction. -/
def respOf : Host.Outcome State Fault Refusal → Option Response
  | .next s => some s.resp
  | _ => none

/-- The dictionary after a transaction. -/
def dictOf : Host.Outcome State Fault Refusal → Option (List Entry × Nat)
  | .next s => some (s.ddEnt, s.ddTotal)
  | _ => none

/-- The bytes of `a`, `1`, `b`, `2`: the entries of vector K1, `[(b,2), (a,1)]`. -/
def small : State :=
  { State.reset with ddEnt := [⟨[0x62#8], [0x32#8]⟩, ⟨[0x61#8], [0x31#8]⟩], ddTotal := 68, ddMax := 100 }

/-- A state whose cursor stands at the head of an input. -/
def reading (l : List Nat) : State := { small with inp := bytes l, pos := 0, cursorLive := true }

/-- A state in which `1f` has been read with N = 5, the first byte of the integer `1f 00`. -/
def inProgress : State := { reading [0x1f, 0x00] with pos := 1, idVal := 31, idBusy := true }

/-- A state that has recorded a fault. -/
def faulted : State := { small with flt := .invalidIndex, finfo := ⟨0, 64, 63⟩ }

-- section 1, S1
theorem test_ienc_1337 : respOf (exec (.ienc 1337 5 0) small) = some (.ok (.bytes (bytes [0x1f, 0x9a, 0x0a]))) := by decide
-- section 2.1, N = 7, tag 0x80, max + 128
theorem test_ienc_two_groups :
    respOf (exec (.ienc 255 7 0x80) small) = some (.ok (.bytes (bytes [0xff, 0x80, 0x01]))) := by decide
-- section 1, S1, and section 2.2
theorem test_idec_1337 : idec 4294967295 (bytes [0x1f, 0x9a, 0x0a]) 0 5 = .ok ⟨1337, 0, 3⟩ := by decide
theorem test_idec_overflow :
    idec 4294967295 (bytes [0x7f, 0x81, 0xff, 0xff, 0xff, 0x0f]) 0 7 =
      .error ⟨.integerOverflow, 5, 4294967295, 4294967296⟩ := by decide
-- section 3.1: the 24-bit split
theorem test_henc_c7 :
    respOf (exec (.henc [0xc7#8]) small) = some (.ok (.bytes (bytes [0xff, 0xff, 0xf6, 0x7f]))) := by decide +kernel
theorem test_henc_302 :
    respOf (exec (.henc (bytes [0x33, 0x30, 0x32])) small) = some (.ok (.bytes (bytes [0x64, 0x02]))) := by decide +kernel
-- section 3.2
theorem test_hdec_padding :
    respOf (exec (.hdec (bytes [0x07, 0xff, 0xff, 0xff, 0xff])) small) = some (.ok (.bytes [0x30#8])) := by decide +kernel
theorem test_hdec_overrun :
    respOf (exec (.hdec (bytes [0x64, 0x0e])) small) = some (.fault ⟨.huffmanInvalid, 11, 6, 5⟩) := by decide +kernel
-- section 4, K2: `:method`, `PUT`; `:authority`, empty
theorem test_dfind_value_differs :
    respOf (exec (.dfind (bytes [0x3a, 0x6d, 0x65, 0x74, 0x68, 0x6f, 0x64]) (bytes [0x50, 0x55, 0x54])) small) =
      some (.ok (.index 0)) := by decide +kernel
theorem test_dfind_empty_value :
    respOf (exec (.dfind (bytes [0x3a, 0x61, 0x75, 0x74, 0x68, 0x6f, 0x72, 0x69, 0x74, 0x79]) []) small) =
      some (.ok (.index 1)) := by decide +kernel
-- K2: `:path` is row 4; R152: a dynamic name, the oldest of two
theorem test_dfindn_path :
    respOf (exec (.dfindn (bytes [0x3a, 0x70, 0x61, 0x74, 0x68])) small) = some (.ok (.index 4)) := by decide +kernel
theorem test_dfindn_dynamic : respOf (exec (.dfindn [0x61#8]) small) = some (.ok (.index 63)) := by decide +kernel
-- R42: newest at 62; one past the end
theorem test_dget_newest :
    respOf (exec (.dget 62) small) = some (.ok (.entry ⟨[0x62#8], [0x32#8]⟩)) := by decide
theorem test_dget_past_end : respOf (exec (.dget 64) small) = some (.fault ⟨.invalidIndex, 0, 64, 63⟩) := by decide
-- K1: over budget until the shrink; then the oldest goes
theorem test_dpush_third :
    dictOf (exec (.dpush [0x63#8] [0x33#8]) small) =
      some ([⟨[0x63#8], [0x33#8]⟩, ⟨[0x62#8], [0x32#8]⟩, ⟨[0x61#8], [0x31#8]⟩], 102) := by decide
theorem test_dshrink_oldest_goes : dictOf (exec (.dshrink 67) small) = some ([⟨[0x62#8], [0x32#8]⟩], 34) := by decide
theorem test_dshrink_exact_fit_stays : dictOf (exec (.dshrink 68) small) = dictOf (.next small) := by decide
-- K4: above the limit; to a smaller budget
theorem test_dsetmax_above_limit : (runDsetmax vectorParams 4097 small).2 = .error ⟨.sizeUpdateRange, 0, 4097, 4096⟩ := by
  decide
theorem test_dsetmax_evicts :
    (runDsetmax vectorParams 34 small).1.ddEnt = [⟨[0x62#8], [0x32#8]⟩] ∧
      (runDsetmax vectorParams 34 small).1.ddMax = 34 := by decide
-- section 5.3: `82` is `:method`, `GET`; R204 on a dynamic index
theorem test_rep_indexed_static :
    respOf (exec (.repIndexed 2) (reading [0x82])) = some (.ok (.rep (some ⟨bytes [0x3a, 0x6d, 0x65, 0x74, 0x68, 0x6f, 0x64],
      bytes [0x47, 0x45, 0x54], false⟩) 1)) := by decide +kernel
theorem test_rep_indexed_zero :
    respOf (exec (.repIndexed 0) (reading [0x80])) = some (.fault ⟨.invalidIndex, 0, 0, 63⟩) := by decide
-- section 5.3: `40 04 pass 03 val`, here with a budget of 100 and 68 in use: the insertion evicts `(a,1)`
theorem test_rep_litinc_inserts :
    dictOf (exec (.repLitInc 0) (reading [0x40, 0x04, 0x70, 0x61, 0x73, 0x73, 0x03, 0x76, 0x61, 0x6c])) =
      some ([⟨bytes [0x70, 0x61, 0x73, 0x73], bytes [0x76, 0x61, 0x6c]⟩, ⟨[0x62#8], [0x32#8]⟩], 73) := by decide +kernel
-- section 5.3: value body missing, nothing inserted
theorem test_rep_litinc_truncated :
    dictOf (exec (.repLitInc 0) (reading [0x40, 0x01, 0x61, 0x01])) = dictOf (.next small) ∧
      respOf (exec (.repLitInc 0) (reading [0x40, 0x01, 0x61, 0x01])) = some (.fault ⟨.truncated, 4, 1, 0⟩) := by
  decide +kernel
-- section 5.3: `3f e2 1f`; `20`
theorem test_rep_sizeupd_above_limit :
    (runRep vectorParams (.sizeUpd 31) (bytes [0x3f, 0xe2, 0x1f]) 0 small).2 =
      .error ⟨.sizeUpdateRange, 0, 4097, 4096⟩ := by decide
theorem test_rep_sizeupd_zero :
    (runRep vectorParams (.sizeUpd 0) (bytes [0x20]) 0 small).2 = .ok (none, 1) ∧
      (runRep vectorParams (.sizeUpd 0) (bytes [0x20]) 0 small).1.ddEnt = [] := by decide
-- section 5.3: `10 04 pass 03 val` and `00 04 pass 03 val`
theorem test_rep_litnever :
    respOf (exec (.repLitNever 0) (reading [0x10, 0x04, 0x70, 0x61, 0x73, 0x73, 0x03, 0x76, 0x61, 0x6c])) =
      some (.ok (.rep (some ⟨bytes [0x70, 0x61, 0x73, 0x73], bytes [0x76, 0x61, 0x6c], true⟩) 10)) := by decide +kernel
theorem test_rep_litnoidx :
    respOf (exec (.repLitNoIdx 0) (reading [0x00, 0x04, 0x70, 0x61, 0x73, 0x73, 0x03, 0x76, 0x61, 0x6c])) =
      some (.ok (.rep (some ⟨bytes [0x70, 0x61, 0x73, 0x73], bytes [0x76, 0x61, 0x6c], false⟩) 10)) := by decide +kernel
-- section 5.1: `82 64 02`; `84 07`, the length test before HDEC
theorem test_str_huff : respOf (exec (.strHuff 2) (reading [0x82, 0x64, 0x02])) =
    some (.ok (.str (bytes [0x33, 0x30, 0x32]) 3)) := by decide +kernel
theorem test_str_huff_truncated :
    respOf (exec (.strHuff 4) (reading [0x84, 0x07])) = some (.fault ⟨.truncated, 1, 4, 1⟩) := by decide
-- section 5.1: `03 61 62 63`; `03 61`
theorem test_str_raw : respOf (exec (.strRaw 3) (reading [0x03, 0x61, 0x62, 0x63])) =
    some (.ok (.str (bytes [0x61, 0x62, 0x63]) 4)) := by decide
theorem test_str_raw_truncated :
    respOf (exec (.strRaw 3) (reading [0x03, 0x61])) = some (.fault ⟨.truncated, 1, 3, 1⟩) := by decide
-- section 2.2: `ea` with N = 5, `82` with N = 7, `1f` with N = 4, and R61 for N = 6
theorem test_int_first :
    respOf (exec (.intFirstN5 0b111 0b01010) (reading [0xea])) = some (.ok (.int ⟨10, 0xe0, 1⟩)) ∧
    respOf (exec (.intFirstN7 1 2) (reading [0x82])) = some (.ok (.int ⟨2, 0x80, 1⟩)) ∧
    respOf (exec (.intFirstN4 1 0b1111) (reading [0x1f, 0x00])) = some (.ok .more) ∧
    respOf (exec (.intFirstN6 0b11 0b000001) (reading [0xc1])) = some (.ok (.int ⟨1, 0xc0, 1⟩)) := by decide
-- section 2.2: the last byte of `1f 9a 0a` with N = 5, after `1f 9a`
theorem test_int_cont :
    (runIntCont vectorParams (contFlag 0) 0x0a { small with idVal := 31 + 0x1a, idI := 1, idBusy := true }).2 =
      .ok (some ⟨1337, 0, 3⟩) := by decide
-- R30: no cursor is read before a request has brought an input; R95: the next element of the same string
theorem test_no_cursor_after_reset : serve (.wire .int5 none) State.reset = .fault .noCursor := rfl
theorem test_next_element_of_the_string :
    respOf (serve (.wire .int5 none) { reading [0xea, 0x1e] with pos := 1 }) = some (.ok (.int ⟨30, 0, 1⟩)) := by decide
-- R12, R44: the integer goes on at its own cursor; a new string has nothing of it to continue
theorem test_cont_goes_on_at_the_cursor :
    respOf (serve (.wire .cont none) inProgress) = some (.ok (.int ⟨31, 0, 2⟩)) := by
  have bound : ¬ params.intMax < 31 := by simp only [params, Config.intMax]; omega
  show respOf (respond intAnswer (runIntCont params false 0 inProgress)) = _
  simp [runIntCont, idecByte, inProgress, reading, small, State.reset, bound, command, respOf, respond, intAnswer, intResult,
    response]
theorem test_cont_on_a_new_string_is_stray :
    serve (.wire .cont (some (bytes [0x00], 0))) inProgress = .fault .strayContinuation := rfl
theorem test_int_cont_stray : respOf (exec (.intCont 0 0x0a) small) = none := by decide
-- section 5.2: case 4, `ab: cd` with a budget of 64
theorem test_hfenc_case_4 :
    respOf (serve (.hfenc ⟨bytes [0x61, 0x62], bytes [0x63, 0x64], false⟩) { State.reset with ddMax := 64 }) =
      some (.ok (.bytes (bytes [0x40, 0x02, 0x61, 0x62, 0x02, 0x63, 0x64]))) := by decide +kernel
-- section 5.3, the last row: the first field is delivered before the fault
theorem test_drain_delivers_before_the_fault :
    respOf (serve .drain { State.reset with rxBuf := bytes [0x82, 0x80], rxState := .feeding }) =
      some (.fault ⟨.invalidIndex, 0, 0, 61⟩) ∧
    (runDrain vectorParams { State.reset with rxBuf := bytes [0x82, 0x80], rxState := .feeding }).1.delivered.length = 1 := by
  decide +kernel
-- section 5.3: `FEED [82] ; EOF`
theorem test_eof_undrained :
    respOf (serve .eof { State.reset with rxBuf := [0x82#8], rxState := .feeding }) =
      some (.fault ⟨.undrained, 0, 0, 1⟩) := by decide
-- R233
theorem test_refused_while_faulted :
    respOf (exec (.dget 1) faulted) = some (.fault ⟨.invalidIndex, 0, 64, 63⟩) := by decide
-- the interface: row REP.INDEXED with index 2 runs as the first instruction after reset
theorem test_step_runs_the_first_word :
    respOf (step (State.reset.withFetchWord 8 0x82)) = respOf (exec (.repIndexed 2) (reading [0x82])) := by decide +kernel

/-! ### Witnesses: states and operands that meet the hypotheses of the statements -/

theorem witness_StepRunsTheDecodedInstruction :
    State.reset.port = [] ∧
    ({ small with port := [.eof] } : State).port = .eof :: [] ∧
    ({ small with port := [.cmd 0x12 { value := 62 }] } : State).port = .cmd 0x12 { value := 62 } :: [] ∧
    decode (.cmd 0x12 { value := 62 }) = .ok (.dget 62) ∧
    ({ small with port := [.wire .rep none] } : State).port = .wire .rep none :: [] ∧
    small.flt = .noFault ∧ small.cursorLive = false := by decide

/-- A byte is read: from the string the request brings, from an earlier one's cursor, and, for a continuation byte, at the
cursor of the integer in progress, or from a new string, which ends it. -/
theorem witness_StepRunsTheByteAtTheCursor :
    (WireReads .rep { small with port := [.wire .rep (some (bytes [0x82], 0))] } (reading [0x82]) ∧
      (reading [0x82]).inp[(reading [0x82]).pos]? = some 0x82#8 ∧ decode (.wire .rep 0x82#8) = .ok (.repIndexed 2)) ∧
    WireReads .rep { reading [0x82] with port := [.wire .rep none] } (reading [0x82]) ∧
    (WireReads .cont { inProgress with port := [.wire .cont none] } inProgress ∧
      inProgress.inp[inProgress.pos]? = some 0x00#8 ∧ decode (.wire .cont 0x00#8) = .ok (.intCont 0 0)) ∧
    WireReads .cont { inProgress with port := [.wire .cont (some (bytes [0x00], 0))] }
      { reading [0x00] with idVal := 31 } :=
  ⟨⟨⟨rfl, _, [], rfl, rfl⟩, by decide, by decide⟩, ⟨rfl, _, [], rfl, rfl, rfl⟩,
    ⟨⟨rfl, _, [], rfl, rfl, rfl⟩, by decide, by decide⟩, rfl, _, [], rfl, rfl⟩

/-- No byte is there: at the end of the string, beyond it, and with and without an integer in progress. -/
theorem witness_StepFindsNoByte :
    WireReads .int5 { small with port := [.wire .int5 (some ([], 0))] } (reading []) ∧
      (reading []).inp[(reading []).pos]? = none ∧ (reading []).pos ≤ (reading []).inp.length ∧
    WireReads .str { small with port := [.wire .str (some ([], 1))] } { reading [] with pos := 1 } ∧
      ([] : Bytes)[1]? = none ∧ ¬ 1 ≤ ([] : Bytes).length ∧
    WireReads .rep { small with port := [.wire .rep (some ([], 0))] } (reading []) ∧
    WireReads .cont { small with port := [.wire .cont (some ([], 0))] } (reading []) ∧ (reading []).idBusy = false ∧
    WireReads .cont { reading [] with idBusy := true, port := [.wire .cont none] } { reading [] with idBusy := true } :=
  ⟨⟨rfl, _, [], rfl, rfl⟩, rfl, by decide, ⟨rfl, _, [], rfl, rfl⟩, rfl, by decide, ⟨rfl, _, [], rfl, rfl⟩,
    ⟨rfl, _, [], rfl, rfl⟩, rfl, rfl, _, [], rfl, rfl, rfl⟩

theorem witness_EverythingIsRefusedWhileFaulted : faulted.flt ≠ .noFault := by decide

theorem witness_FirstFaultStaysUntilReset :
    faulted.flt ≠ .noFault ∧ Request.eof ≠ .reset ∧ ∃ t, serve .eof faulted = .next t := ⟨by decide, by decide, _, rfl⟩

theorem witness_FaultsArePrecise :
    small.flt = .noFault ∧ (∃ t, exec (.dget 64) small = .next t ∧ t.flt ≠ .noFault) ∧
      ∃ t, exec (.dget 63) small = .next t ∧ t.flt = .noFault :=
  ⟨by decide, ⟨_, rfl, by decide⟩, ⟨_, rfl, by decide⟩⟩

theorem witness_IllegalOperandsAndCodesFault :
    small.flt = .noFault ∧ (Instr.ienc 42 8 0).wellFormed = false ∧ (Instr.idec [] 1 5).wellFormed = false ∧
      (0x05#8).toNat ∉ [0x01, 0x02, 0x03, 0x04, 0x10, 0x11, 0x12, 0x13, 0x14, 0x15] := by decide

theorem witness_HostPostsAFaultOnlyOnce :
    (small.flt = .noFault ∧ (undrained 1).code ≠ .noFault) ∧ (faulted.flt ≠ .noFault ∨ (undrained 1).code = .noFault) := by
  decide

theorem witness_IencEmitsTheMinimalEncoding :
    small.flt = .noFault ∧ (Instr.ienc 30 5 0xe0).wellFormed = true ∧ 30 < 2 ^ 5 - 1 ∧
      (Instr.ienc 31 5 0xe0).wellFormed = true ∧ 2 ^ 5 - 1 ≤ 31 := by decide

theorem witness_IdecReadsAPrefixValue :
    small.flt = .noFault ∧ [0x1e#8][0]? = some 0x1e#8 ∧ (0x1e#8).toNat % 2 ^ 5 < 2 ^ 5 - 1 := by decide

theorem witness_IdecReadsATail :
    small.flt = .noFault ∧ (0x1f#8).toNat % 2 ^ 5 = 2 ^ 5 - 1 ∧ AllContinue [0x80#8] ∧ (0x00#8).toNat < 128 ∧
      2 ^ 5 - 1 + tailValue ([0x80#8] ++ [0x00#8]) ≤ Config.intMax := by
  refine ⟨by decide, by decide, by simp [AllContinue], by decide, ?_⟩
  have : 2 ^ 5 - 1 + tailValue ([0x80#8] ++ [0x00#8]) = 31 := by decide
  unfold Config.intMax
  omega

/-- A tail of `k` zero groups and then a one denotes `128^k`, so it exceeds any bound. -/
theorem tailValue_replicate (k : Nat) : tailValue (List.replicate k 0x80#8 ++ [0x01#8]) = 128 ^ k := by
  induction k with
  | zero => rfl
  | succ k ih => simp [List.replicate_succ, tailValue] at ih ⊢; omega

theorem witness_IdecFaultsInStreamOrder :
    small.flt = .noFault ∧ (0x1f#8).toNat % 2 ^ 5 = 2 ^ 5 - 1 ∧
      AllContinue (List.replicate Config.intMax 0x80#8) ∧
      2 ^ 5 - 1 + tailValue (List.replicate Config.intMax 0x80#8) ≤ Config.intMax ∧
      Config.intMax < 2 ^ 5 - 1 + tailValue (List.replicate Config.intMax 0x80#8 ++ [0x01#8]) := by
  have zero : ∀ k, tailValue (List.replicate k 0x80#8) = 0 := fun k => by
    induction k with
    | zero => rfl
    | succ k ih => simp [List.replicate_succ, tailValue, ih]
  have big := Nat.lt_pow_self (a := 128) (n := Config.intMax) (by decide)
  refine ⟨by decide, by decide, by simp [AllContinue], ?_, ?_⟩
  · rw [zero]; unfold Config.intMax; omega
  · rw [tailValue_replicate]; omega

theorem witness_IdecUndoesIenc :
    small.flt = .noFault ∧ (Instr.ienc 127 7 0x80).wellFormed = true ∧ 127 ≤ Config.intMax ∧
      (Instr.ienc (Config.intMax + 1) 7 0x80).wellFormed = true ∧ Config.intMax < Config.intMax + 1 :=
  ⟨by decide, by decide, by unfold Config.intMax; omega, rfl, Nat.lt_succ_self _⟩

/-- Statements with no hypothesis but that no fault is recorded: IdecFollowsItsFunction, IntFirstByteSteps,
HencDeliversTheDefinition, HencOutputLength, HdecUndoesHenc, DfindGivesTheLeastMatch, DfindnGivesTheLeastNameMatch,
DpushInsertsAtTheNewestPosition, StrencPicksTheShorterForm, EncodeRunsPairByPair. -/
theorem witness_no_fault_recorded : small.flt = .noFault := by decide

theorem witness_IdecFollowsItsFunction :
    idec Config.intMax [0x1e#8] 0 5 = .ok ⟨30, 0, 1⟩ ∧ idec Config.intMax [] 0 5 = .error ⟨.truncated, 0, 1, 0⟩ := ⟨rfl, rfl⟩

theorem witness_IntContinuationByteSteps :
    small.flt = .noFault ∧ ({ small with idVal := Config.intMax - 1, idBusy := true } : State).idBusy = true ∧
      Config.intMax - 1 + (1#7).toNat * 2 ^ (7 * 0) ≤ Config.intMax ∧
      Config.intMax < Config.intMax + (1#7).toNat * 2 ^ (7 * 0) ∧ small.idBusy = false := by
  refine ⟨by decide, by decide, ?_, by simp, by decide⟩
  simp only [Config.intMax, BitVec.toNat_ofNat]
  omega

theorem witness_IntegerBytesMakeUpIdec :
    small.flt = .noFault ∧ (reading [0x1e, 0x00]).inp = [] ++ 0x1e#8 :: [0x00#8] ∧ (reading [0x1e, 0x00]).pos = 0 ∧
      ∃ t, exec (.idec ([] ++ 0x1e#8 :: [0x00#8]) 0 5) (reading [0x1e, 0x00]) = .next t ∧ t.flt ≠ .truncated :=
  ⟨by decide, by decide, by decide, _, rfl, by decide⟩

theorem witness_HdecDeliversTheDefinition :
    hdecDef params [0x1f#8] = .ok [0x61#8] ∧ hdecDef params [0x00#8] = .error ⟨.huffmanInvalid, 5, 5, 3⟩ := by
  decide +kernel

theorem witness_HdecStopsAtEndMarkerOrPadding :
    bitStream [0xff#8, 0xff#8, 0xff#8, 0xfc#8] =
        hencBits params [] ++ (List.replicate 30 true ++ [false, false]) ∧
      bitStream [0x1f#8] = hencBits params [0x61#8] ++ List.replicate 3 true := by decide +kernel

theorem witness_HdecFaultsOnlyOnAnOverrun :
    ∃ t, exec (.hdec [0x00#8]) small = .next t ∧ small.flt = .noFault ∧ t.flt ≠ .noFault :=
  ⟨_, rfl, by decide, by decide +kernel⟩

theorem witness_DfindGivesTheLeastMatch :
    dictRead params small.ddEnt 63 = .ok ⟨[0x61#8], [0x31#8]⟩ ∧ dictRead params [] 62 ≠ .ok ⟨[0x61#8], [0x31#8]⟩ := by
  decide

theorem witness_DgetReadsTheCombinedIndexSpace :
    small.flt = .noFault ∧ (∃ e, params.staticRom[1 - 1]? = some e) ∧ (∃ e, params.staticRom[61 - 1]? = some e) ∧
      (∃ e, small.ddEnt[62 - 62]? = some e) ∧ (∃ e, small.ddEnt[63 - 62]? = some e) ∧
      61 + small.ddEnt.length < 64 :=
  ⟨by decide, ⟨_, rfl⟩, ⟨_, rfl⟩, ⟨_, rfl⟩, ⟨_, rfl⟩, by decide⟩

theorem witness_DshrinkEvictsTheOldest :
    small.flt = .noFault ∧ (67 < small.ddTotal ∧ small.ddEnt = [⟨[0x62#8], [0x32#8]⟩] ++ [⟨[0x61#8], [0x31#8]⟩]) ∧
      (small.ddTotal ≤ 68 ∨ small.ddEnt = []) := by decide

theorem witness_DshrinkKeepsTheNewestThatFit : small.flt = .noFault ∧ SumHolds small := by decide

theorem witness_DsetmaxSetsTheBudgetOrFaults :
    small.flt = .noFault ∧ Config.ddLimit ≤ Config.ddLimit ∧ Config.ddLimit < Config.ddLimit + 1 :=
  ⟨by decide, Nat.le_refl _, Nat.lt_succ_self _⟩

theorem witness_BudgetHoldsAfterShrinking :
    small.flt = .noFault ∧ SumHolds small ∧ (∃ t, ∃ limit ≤ small.ddMax, exec (.dshrink limit) small = .next t) ∧
      ∃ t, ∃ v ≤ Config.ddLimit, exec (.dsetmax v) small = .next t :=
  ⟨by decide, by decide, ⟨_, 100, by decide, rfl⟩, ⟨_, 0, Nat.zero_le _, rfl⟩⟩

theorem witness_InsertionIsPushThenShrink :
    small.flt = .noFault ∧ SumHolds small ∧
      32 + ([] : Bytes).length + (List.replicate 68 0x76#8).length ≤ small.ddMax ∧
      small.ddMax < 32 + ([] : Bytes).length + (List.replicate 69 0x76#8).length := by decide

theorem witness_ReadsHaveNoEffectAndShrinksAreIdempotent :
    (∃ t, exec (.dget 62) small = .next t ∧ (small.flt = .noFault → t.flt = .noFault)) ∧
      ∃ t, exec (.dshrink 67) small = .next t := ⟨⟨_, rfl, by decide⟩, ⟨_, rfl⟩⟩

theorem witness_StringLiteralsDecode :
    (AtCursor (.strHuff 1) (reading [0x81, 0x1f]) ∧
      strAt (reading [0x81, 0x1f]).inp (reading [0x81, 0x1f]).pos = .ok ([0x61#8], 2)) ∧
    AtCursor (.strRaw 0) (reading [0x00]) ∧ strAt (reading [0x00]).inp (reading [0x00]).pos = .ok ([], 1) := by
  refine ⟨⟨⟨.str, 0x81, by decide, by decide⟩, by decide +kernel⟩, ⟨.str, 0x00, by decide, by decide⟩, rfl⟩

theorem witness_IndexedFieldDecodes :
    AtCursor (.repIndexed 62) (reading [0xbe]) ∧ idec Config.intMax (bytes [0xbe]) 0 7 = .ok ⟨62, 0x80, 1⟩ ∧
      dictRead params (reading [0xbe]).ddEnt 62 = .ok ⟨[0x62#8], [0x32#8]⟩ :=
  ⟨⟨.rep, 0xbe, by decide, by decide⟩, rfl, rfl⟩

theorem witness_IncrementalLiteralDecodesAndInserts :
    AtCursor (.repLitInc 0) (reading [0x40, 0x01, 0x63, 0x00]) ∧
      literalAt small.ddEnt (bytes [0x40, 0x01, 0x63, 0x00]) 0 6 = .ok ([0x63#8], [], 4) :=
  ⟨⟨.rep, 0x40, by decide, by decide⟩, rfl⟩

theorem witness_SizeUpdateDecodes :
    AtCursor (.repSizeUpd 0) (reading [0x20]) ∧ idec Config.intMax (bytes [0x20]) 0 5 = .ok ⟨0, 0x20, 1⟩ ∧
      0 ≤ Config.ddLimit :=
  ⟨⟨.rep, 0x20, by decide, by decide⟩, rfl, Nat.zero_le _⟩

theorem witness_PlainLiteralsDecode :
    (AtCursor (.repLitNever 0) (reading [0x10, 0x01, 0x63, 0x00]) ∧
      literalAt small.ddEnt (bytes [0x10, 0x01, 0x63, 0x00]) 0 4 = .ok ([0x63#8], [], 4)) ∧
    AtCursor (.repLitNoIdx 2) (reading [0x02, 0x00]) ∧
      literalAt small.ddEnt (bytes [0x02, 0x00]) 0 4 = .ok (bytes [0x3a, 0x6d, 0x65, 0x74, 0x68, 0x6f, 0x64], [], 2) :=
  ⟨⟨⟨.rep, 0x10, by decide, by decide⟩, rfl⟩, ⟨.rep, 0x02, by decide, by decide⟩, rfl⟩

theorem witness_WireFormsReportTheFirstFault :
    (AtCursor (.repIndexed 0) (reading [0x80]) ∧
      wireFault (reading [0x80]) (.repIndexed 0) = some ⟨.invalidIndex, 0, 0, 63⟩) ∧
    (AtCursor (.repLitInc 0) (reading [0x40]) ∧
      wireFault (reading [0x40]) (.repLitInc 0) = some ⟨.truncated, 1, 1, 0⟩) ∧
    AtCursor (.strRaw 3) (reading [0x03, 0x61]) ∧
      wireFault (reading [0x03, 0x61]) (.strRaw 3) = some ⟨.truncated, 1, 3, 1⟩ :=
  ⟨⟨⟨.rep, 0x80, by decide, by decide⟩, rfl⟩, ⟨⟨.rep, 0x40, by decide, by decide⟩, rfl⟩,
    ⟨.str, 0x03, by decide, by decide⟩, rfl⟩

theorem witness_InstructionsLeaveTheHostAndTheBudgetAlone : ∃ t, exec (.dget 62) small = .next t := ⟨_, rfl⟩

theorem witness_HiddenRegistersDoNotMatter :
    SameArch small { small with heCnt := 7, idVal := 3 } ∧ SameArch (reading [0x82]) { reading [0x82] with hdCnt := 5 } ∧
      ({ reading [0x82] with hdCnt := 5 } : State).pos = (reading [0x82]).pos := by decide

theorem witness_StrdecUndoesStrenc : small.flt = .noFault ∧ [0x61#8].length ≤ Config.intMax :=
  ⟨by decide, by unfold Config.intMax; simp; omega⟩

theorem witness_EncoderPolicy :
    (3 * small.ddMax < 4 * (32 + ([] : Bytes).length + (List.replicate 44 0x61#8).length)) ∧
      ¬ 3 * small.ddMax < 4 * (32 + ([] : Bytes).length + (List.replicate 43 0x61#8).length) ∧
      find params small.ddEnt [0x61#8] [0x31#8] ≠ 0 ∧ find params small.ddEnt [0x63#8] [0x31#8] = 0 := by decide +kernel

theorem witness_EncoderLaws :
    (56 ≤ ({ small with ddMax := 56 } : State).ddMax) ∧ SumHolds small ∧ BudgetHolds small := by decide

theorem witness_FeedAppendsAndEofChecks :
    small.rxBuf ++ [0x82#8] ≠ [] ∧ (∃ u, serve (.feed [0x82#8]) small = .next u ∧ ∃ t, serve (.feed []) u = .next t) ∧
      small.rxBuf = [] ∧ ({ small with rxBuf := [0x82#8] } : State).rxBuf ≠ [] :=
  ⟨by decide, ⟨_, rfl, _, rfl⟩, by decide, by decide⟩

theorem witness_DrainDecodesTheBuffer :
    (drainBy [] 0 0 small).2 = true ∧
      (drainBy [0x80#8] 1 0 { small with rxBuf := [0x80#8] }).2 = false := by decide +kernel

theorem witness_HfdecUndoesHfenc :
    (∃ t, serve (.wire .rep (some ([0xbe#8], 0))) small = .next t ∧
      t.resp = .ok (.rep (some ⟨[0x62#8], [0x32#8], false⟩) 1)) ∧
    small.flt = .noFault ∧ SameDict small { small with heCnt := 7 } ∧ HeaderFits ⟨[0x61#8], [0x31#8], true⟩ ∧
      61 + small.ddEnt.length ≤ Config.intMax := by
  refine ⟨⟨_, rfl, by decide +kernel⟩, by decide, by decide, ?_, ?_⟩
  · unfold HeaderFits Config.intMax; simp; omega
  · unfold Config.intMax; simp [small]; omega

theorem witness_BlocksRoundTrip :
    Mirrored { State.reset with ddMax := 100 } { State.reset with ddMax := 100 } ∧
      ∀ hs ∈ [[(⟨[0x61#8], [0x31#8], true⟩ : Header)]], ∀ h ∈ hs, HeaderFits h := by
  refine ⟨⟨by decide, by decide, by decide, by decide, by decide, ?_, by decide, by decide⟩, ?_⟩
  · unfold Config.intMax; simp; omega
  · simp only [List.mem_singleton, forall_eq]; unfold HeaderFits Config.intMax; simp; omega

theorem witness_EveryStepKeepsTheInvariants :
    SumHolds small ∧ FaultInfoClear small ∧ PhaseHolds small ∧ MaxLegal State.reset ∧ RegistersInRange small ∧
      ∃ t, step { small with port := [.cmd 0x14 { value := 67 }] } = .next t :=
  ⟨by decide, by decide, by decide, by simp [MaxLegal, State.reset, Config.ddLimit],
    by simp [RegistersInRange, small, State.reset], _, rfl⟩

end Sys2Proof.Tests
end

section
/-! PROOFS. What a step does (00_scope.md R7): fetch, decode, execute, and what happens where there is nothing to fetch. -/

namespace Sys2Proof.Machine

open Sys2Proof.Claims

/-! ### step and serve -/

theorem step_idle {s : State} (h : s.port = []) : step s = .next s := by
  simp [step, h]

theorem step_serves {s : State} {r : Request} {rest : List Request} (h : s.port = r :: rest) :
    step s = serve r { s with port := rest } := by
  simp [step, h]

theorem serve_cmd {code : Byte} {ops : Operands} {i : Instr} (h : decode (.cmd code ops) = .ok i) (s : State) :
    serve (.cmd code ops) s = exec i s := by
  simp [serve, fetchCmd, h]

/-- A fault the host raises at the port while none is recorded: it is recorded and is the response (R232, R235). -/
theorem respondUnit_hostRaise {s : State} (h : s.flt = .noFault) (e : FaultRec) :
    respondUnit (hostRaise e s) = .next (latch (.fault e) (takeFault e s)) := by
  simp [respondUnit, hostRaise_ready h]

/-! ### fetchWire -/

section
variable {s : State} {fmt : Format} {src : Option (Bytes × Nat)}

theorem fetchWire_byte {b : Byte} (hf : s.flt = .noFault) (hl : (loadSource src s).cursorLive = true)
    (hb : (loadSource src s).inp[(loadSource src s).pos]? = some b) :
    fetchWire fmt src s = exec (decodeWire fmt b) (loadSource src s) := by
  simp [fetchWire, hf, hl, hb]

theorem fetchWire_missing (hf : s.flt = .noFault) (hl : (loadSource src s).cursorLive = true)
    (hb : (loadSource src s).inp[(loadSource src s).pos]? = none) :
    fetchWire fmt src s = missingByte fmt (loadSource src s) := by
  simp [fetchWire, hf, hl, hb]

theorem fetchWire_noCursor (hf : s.flt = .noFault) (hl : (loadSource src s).cursorLive = false) :
    fetchWire fmt src s = .fault .noCursor := by
  simp [fetchWire, hf, hl]

end

/-! ### A wire request that reads -/

@[simp] theorem loadSource_flt (src : Option (Bytes × Nat)) (s : State) : (loadSource src s).flt = s.flt := by
  cases src <;> rfl

/-- `WireReads` in the machine's own words: `t` is the state after the request's input is loaded, with a live cursor. -/
theorem wireReads_loadSource {fmt : Format} {s t : State} (h : WireReads fmt s t) :
    s.flt = .noFault ∧ ∃ src rest, s.port = .wire fmt src :: rest ∧ t = loadSource src { s with port := rest } ∧
      t.cursorLive = true := by
  obtain ⟨hf, src, rest, hport, ht⟩ := h
  cases src with
  | some p => exact ⟨hf, some p, rest, hport, ht, by rw [ht]⟩
  | none =>
    obtain ⟨hl, rfl⟩ := ht
    exact ⟨hf, none, rest, hport, rfl, hl⟩

theorem wireReads_flt {fmt : Format} {s t : State} (h : WireReads fmt s t) : t.flt = .noFault := by
  obtain ⟨hf, src, rest, -, rfl, -⟩ := wireReads_loadSource h
  rwa [loadSource_flt]

theorem step_wire_byte {fmt : Format} {s t : State} {b : Byte} (h : WireReads fmt s t) (hb : t.inp[t.pos]? = some b) :
    step s = exec (decodeWire fmt b) t := by
  obtain ⟨hf, src, rest, hport, rfl, hl⟩ := wireReads_loadSource h
  rw [step_serves hport]
  exact fetchWire_byte hf hl hb

theorem step_wire_missing {fmt : Format} {s t : State} (h : WireReads fmt s t) (hb : t.inp[t.pos]? = none) :
    step s = missingByte fmt t := by
  obtain ⟨hf, src, rest, hport, rfl, hl⟩ := wireReads_loadSource h
  rw [step_serves hport]
  exact fetchWire_missing hf hl hb

/-! ### missingByte -/

/-- IDEC's first read past the input (R95, R236): `Truncated` up to the end of the input, `IllegalOperand` beyond it. -/
theorem missingFirstByte_takes {t : State} (hf : t.flt = .noFault) :
    respondUnit (hostRaise (if t.pos ≤ t.inp.length then truncatedByte t.pos else illegalOperand) t) =
      if t.pos ≤ t.inp.length then
        .next { t with flt := .truncated, finfo := ⟨t.pos, 1, 0⟩, resp := .fault ⟨.truncated, t.pos, 1, 0⟩ }
      else .next { t with flt := .illegalOperand, finfo := ⟨0, 0, 0⟩, resp := .fault ⟨.illegalOperand, 0, 0, 0⟩ } := by
  rw [respondUnit_hostRaise hf]
  split <;> rfl

/-- Settles O5: each clause is the equation of the branch of `step`, `fetchCmd`, `fetchWire` or `missingByte` it names. -/
theorem stepRunsTheDecodedInstruction : Obligations.StepRunsTheDecodedInstruction := by
  refine ⟨fun s => step_idle, fun s r rest => step_serves, ?command, ?byte, ?missing, ?noCursor⟩
  case command =>
    intro s code ops rest i hport hdec
    rw [step_serves hport, serve_cmd hdec]
  case byte =>
    intro s t fmt b i hreads hb hdec
    obtain rfl : decodeWire fmt b = i := Except.ok.inj hdec
    exact step_wire_byte hreads hb
  case missing =>
    intro s t fmt hreads hb
    have hf : t.flt = .noFault := wireReads_flt hreads
    rw [step_wire_missing hreads hb]
    cases fmt with
    | rep => rfl
    | cont =>
      simp only [missingByte, respondUnit_hostRaise hf]
      rfl
    | str | int4 | int5 | int6 | int7 => exact missingFirstByte_takes hf
  case noCursor =>
    intro s fmt rest hport hf hl
    rw [step_serves hport]
    exact fetchWire_noCursor (src := none) hf hl

end Sys2Proof.Machine
end

section
/-! PROOFS. The invariants of the block (10_state.md R14 to R23): each named update of the state keeps them, so every step
does (`step_keeps`); and they hold at reset. -/

namespace Sys2Proof.Machine

/-! ### SUM, the legal budget, the clear fault context -/

theorem keptByCodec_sumHolds : KeptByCodec params SumHolds where
  fault _ _ _ _ h := h
  int _ _ _ _ _ _ h := h
  henc _ _ h := h
  hdec _ _ h := h
  insert _ _ h := insertEntry_sum h
  shrink _ _ h := (shrink_sum h).1
  setMax _ _ _ h := h
  cursor _ _ h := h
  latch _ _ h := h

theorem keptByHost_sumHolds : KeptByHost SumHolds where
  source _ _ _ h := h
  drop _ h := h
  rx _ _ _ h := h
  deliver _ _ h := h
  reset _ _ := rfl
  port _ _ h := h

/-- Settles O56: DPUSH adds the cost of what it inserts, DSHRINK subtracts the cost of what it evicts, and nothing else
writes `DD_ENT` or `DD_TOTAL` but reset. -/
theorem everyStepKeepsTheSum : Obligations.EveryStepKeepsTheSum :=
  fun _ _ => step_keeps keptByCodec_sumHolds keptByHost_sumHolds

theorem maxLegal_reset : MaxLegal State.reset := Nat.le_add_right _ _

theorem keptByCodec_maxLegal : KeptByCodec params MaxLegal where
  fault _ _ _ _ h := h
  int _ _ _ _ _ _ h := h
  henc _ _ h := h
  hdec _ _ h := h
  insert _ _ h := h
  shrink _ _ h := h
  setMax _ _ hv _ := hv
  cursor _ _ h := h
  latch _ _ h := h

theorem keptByHost_maxLegal : KeptByHost MaxLegal where
  source _ _ _ h := h
  drop _ h := h
  rx _ _ _ h := h
  deliver _ _ h := h
  reset _ _ := maxLegal_reset
  port _ _ h := h

theorem keptByCodec_faultInfoClear : KeptByCodec params FaultInfoClear where
  fault _ _ _ he _ := fun h => absurd h he
  int _ _ _ _ _ _ h := h
  henc _ _ h := h
  hdec _ _ h := h
  insert _ _ h := h
  shrink _ _ h := h
  setMax _ _ _ h := h
  cursor _ _ h := h
  latch _ _ h := h

theorem keptByHost_faultInfoClear : KeptByHost FaultInfoClear where
  source _ _ _ h := h
  drop _ h := h
  rx _ _ _ h := h
  deliver _ _ h := h
  reset _ _ := fun _ => rfl
  port _ _ h := h

/-- Settles O57: `DD_MAX` is written only with a value that passed DSETMAX's test or at reset, and `FINFO` only with a
non-zero `FLT` or at reset. -/
theorem everyStepKeepsTheBudgetAndFaultInfoLegal : Obligations.EveryStepKeepsTheBudgetAndFaultInfoLegal :=
  fun _ _ h =>
    ⟨fun hs => step_keeps keptByCodec_maxLegal keptByHost_maxLegal hs h,
      fun hs => step_keeps keptByCodec_faultInfoClear keptByHost_faultInfoClear hs h⟩

/-! ### The ranges of the working registers -/

/-- HENC leaves no bit buffered (R116). -/
@[simp] theorem hencProc_cnt (p : Params) (str : Bytes) : (hencProc p str).cnt = 0 := by
  unfold hencProc heEnd
  split
  · rfl
  · omega

/-- HDEC's window within its range (R22): at most 37 bits buffered, zeros below them. -/
def WindowInRange (r : HdRegs) : Prop := r.cnt ≤ 37 ∧ 2 ^ (64 - r.cnt) ∣ r.win.toNat

theorem windowInRange_start : WindowInRange ⟨0, 0, 0⟩ := ⟨by decide, by simp⟩

/-- One byte pulled in by the refill (R121): below the bits it adds, the window stays zero. -/
theorem windowInRange_pull {r : HdRegs} {q : Nat} (b : Byte) (h : WindowInRange r) (hc : r.cnt < 30) :
    WindowInRange ⟨r.win + BitVec.ofNat 64 (b.toNat * 2 ^ (56 - r.cnt)), r.cnt + 8, q⟩ := by
  obtain ⟨-, hwin⟩ := h
  have hlow : 64 - (r.cnt + 8) = 56 - r.cnt := by omega
  refine ⟨by simp only; omega, ?_⟩
  simp only [BitVec.toNat_add, BitVec.toNat_ofNat, Nat.add_mod_mod, hlow]
  exact (Nat.dvd_mod_iff (Nat.pow_dvd_pow 2 (by omega))).2
    (Nat.dvd_add ((Nat.pow_dvd_pow 2 (by omega)).trans hwin) (Nat.dvd_mul_left _ _))

theorem windowInRange_refillLoop {inp : Bytes} {fuel : Nat} {r : HdRegs} (h : WindowInRange r) :
    WindowInRange (hdRefillLoop inp fuel r) := by
  induction fuel generalizing r with
  | zero => exact h
  | succ fuel ih =>
    unfold hdRefillLoop
    split
    · exact ih (windowInRange_pull _ h ‹_›)
    · exact h

/-- A code taken from the buffered bits (R128): the shift brings zeros in below those that remain. -/
theorem windowInRange_consume {r : HdRegs} {len : Nat} (h : WindowInRange r) (hlen : len ≤ r.cnt) :
    WindowInRange ⟨r.win <<< len, r.cnt - len, r.pos⟩ := by
  obtain ⟨hcnt, hwin⟩ := h
  have hlow : 64 - (r.cnt - len) = 64 - r.cnt + len := by omega
  refine ⟨by simp only; omega, ?_⟩
  simp only [BitVec.toNat_shiftLeft, Nat.shiftLeft_eq, hlow]
  refine (Nat.dvd_mod_iff (Nat.pow_dvd_pow 2 (by omega))).2 ?_
  rw [Nat.pow_add]
  exact Nat.mul_dvd_mul_right hwin _

theorem windowInRange_loop {p : Params} {inp : Bytes} {fuel : Nat} {r : HdRegs} {out : Bytes} (h : WindowInRange r) :
    WindowInRange (hdLoop p inp fuel r out).1 := by
  induction fuel generalizing r out with
  | zero => exact h
  | succ fuel ih =>
    have hr : WindowInRange (hdRefill inp r) := windowInRange_refillLoop h
    unfold hdLoop
    dsimp only
    split
    · exact hr
    · split
      · exact hr
      · split
        · exact hr
        · split
          · exact hr
          · refine ih (windowInRange_consume hr ?_)
            have : hdReal inp (hdRefill inp r) ≤ (hdRefill inp r).cnt := Nat.sub_le _ _
            omega

theorem windowInRange_hdecProc (p : Params) (inp : Bytes) : WindowInRange (hdecProc p inp).1 :=
  windowInRange_loop windowInRange_start

theorem registersInRange_reset : RegistersInRange State.reset := ⟨by decide, by decide, rfl, nofun⟩

theorem keptByCodec_registersInRange : KeptByCodec params RegistersInRange where
  fault _ _ _ _ h := h
  int _ _ _ _ _ hval h := by
    obtain ⟨hhe, hcnt, hwin, -⟩ := h
    exact ⟨hhe, hcnt, hwin, hval⟩
  henc str s h := by
    obtain ⟨-, hhd⟩ := h
    exact ⟨by simp, hhd⟩
  hdec inp s h := by
    obtain ⟨hhe, -, -, hid⟩ := h
    obtain ⟨hcnt, hwin⟩ := windowInRange_hdecProc params inp
    exact ⟨hhe, hcnt, Nat.mod_eq_zero_of_dvd hwin, hid⟩
  insert _ _ h := h
  shrink _ _ h := h
  setMax _ _ _ h := h
  cursor _ _ h := h
  latch _ _ h := h

theorem keptByHost_registersInRange : KeptByHost RegistersInRange where
  source _ _ _ h := by
    obtain ⟨hhe, hcnt, hwin, -⟩ := h
    exact ⟨hhe, hcnt, hwin, nofun⟩
  drop _ h := h
  rx _ _ _ h := h
  deliver _ _ h := h
  reset _ _ := registersInRange_reset
  port _ _ h := h

/-- Settles O59: HENC ends with nothing buffered, HDEC's loop keeps its window in range turn by turn, and an integer stays
in progress only when its value passed the test against `INT_MAX`. -/
theorem everyStepKeepsTheRegistersInRange : Obligations.EveryStepKeepsTheRegistersInRange :=
  fun _ _ => step_keeps keptByCodec_registersInRange keptByHost_registersInRange

/-! ### Reset -/

/-- Settles O6: the reset input leads to `State.reset` with the host's requests kept, and none of the registers named is
theirs. -/
theorem resetValues : Obligations.ResetValues := by
  intro s
  refine ⟨{ State.reset with port := s.port }, rfl, fun r hr => ?_⟩
  obtain rfl | rfl : r = State.reset ∨ r = { State.reset with port := s.port } := by simpa using hr
  all_goals exact ⟨rfl, rfl, rfl, rfl, rfl, rfl, rfl⟩

/-- Settles O60: an empty dictionary costs nothing, and `DD_MAX_INIT` is at most `DD_LIMIT` in every build. -/
theorem invariantsHoldAtReset : Obligations.InvariantsHoldAtReset :=
  ⟨rfl, Nat.zero_le _, maxLegal_reset, ⟨fun _ => rfl, nofun, nofun⟩, registersInRange_reset, fun _ => rfl⟩

end Sys2Proof.Machine
end

section
/-! PROOFS. Refusal (60_exceptions.md R233): while a fault is recorded every command and every host sequence ends at its
first command, with the recorded fault and the state as it was. -/

namespace Sys2Proof.Machine

section
variable {α β : Type} {s : State} {f : α → Result}

/-- A run that is refused: nothing is written, and the recorded fault is its end. -/
def Refused (s : State) (r : Run α) : Prop := r = (s, .error (recorded s))

theorem Refused.andThen {r : Run α} (h : Refused s r) (next : α → State → Run β) : Refused s (andThen r next) := by
  unfold Refused at h ⊢
  rw [h, andThen_error]

theorem Refused.respond {r : Run α} (h : Refused s r) : respond f r = .next (latch (.fault (recorded s)) s) := by
  unfold Refused at h
  rw [h, respond_error]

theorem Refused.respondRep {r : Run (Option Field × Nat)} (h : Refused s r) :
    respondRep r = .next (latch (.fault (recorded s)) s) :=
  Refused.respond (h.andThen _)

end

section
variable {α : Type} {s : State} (h : s.flt ≠ .noFault)
include h

theorem refused_command (run : Run α) : Refused s (command s run) := command_refused h run

theorem refused_literal {p : Params} {inp : Bytes} {pos n tag pfx : Nat} :
    Refused s (runLiteral p inp pos n tag pfx s) :=
  (refused_command h _).andThen _

theorem refused_hfenc {p : Params} {x : Header} : Refused s (runHfenc p x s) := by
  unfold runHfenc
  split
  · exact (refused_command h _).andThen _
  · exact (refused_command h _).andThen _

/-- Every instruction is refused while a fault is recorded. -/
theorem exec_refused (i : Instr) : exec i s = .next (latch (.fault (recorded s)) s) := by
  cases i with
  | ienc | idec | henc | hdec | dfind | dfindn | dget | dpush | dshrink | dsetmax | intFirstN4 | intFirstN5 | intFirstN6
  | intFirstN7 => exact (refused_command h _).respond
  | repIndexed | repSizeUpd => exact ((refused_command h _).andThen _).respondRep
  | repLitInc | repLitNever | repLitNoIdx => exact ((refused_literal h).andThen _).respondRep
  | strHuff | strRaw => exact ((refused_command h _).andThen _).respond
  | intCont =>
    rw [exec, execIntCont, if_neg (fun hc => h hc.1)]
    exact (refused_command h _).respond

/-- While a fault is recorded no request but reset writes anything but the response. -/
theorem serve_refused {r : Request} (hr : r ≠ .reset) : ∃ resp, serve r s = .next (latch resp s) := by
  cases r with
  | cmd code ops =>
    refine ⟨.fault (recorded s), ?_⟩
    simp only [serve, fetchCmd]
    split
    · exact exec_refused h _
    · exact (refused_command h _).respond
  | wire fmt src => exact ⟨.fault (recorded s), by simp [serve, fetchWire, h, respondUnit]⟩
  | strenc => exact ⟨_, ((refused_command h _).andThen _).respond⟩
  | hfenc => exact ⟨_, (refused_hfenc h).respond⟩
  | encode hs =>
    cases hs with
    | nil => exact ⟨_, respond_ok _ _ _⟩
    | cons x xs => exact ⟨_, ((refused_hfenc h).andThen _).respond⟩
  | feed => exact ⟨_, (refused_command h _).respond⟩
  | drain => exact ⟨.fault (recorded s), by simp [serve, runDrain, h, respondUnit]⟩
  | eof => exact ⟨_, (refused_command h _).respond⟩
  | post e =>
    by_cases he : e.code = .noFault
    · exact ⟨.ok .unit, by simp [serve, runPost, he, respondUnit]⟩
    · exact ⟨.fault (recorded s), by simp [serve, runPost, he, respondUnit, hostRaise_refused h]⟩
  | reset => exact absurd rfl hr

end

/-- Settles O8: a request that is not reset writes only the response while a fault is recorded (`serve_refused`). -/
theorem firstFaultStaysUntilReset : Obligations.FirstFaultStaysUntilReset := by
  refine ⟨fun r s t hf hr h => ?_, fun s => ⟨_, rfl, rfl⟩, rfl⟩
  obtain ⟨resp, hs⟩ := serve_refused hf hr
  obtain rfl : latch resp s = t := Host.Outcome.next.inj (hs.symm.trans h)
  exact ⟨⟨rfl, rfl, rfl⟩, rfl, rfl⟩

end Sys2Proof.Machine
end

section
/-! PROOFS. What each instruction leaves alone (10_state.md R15, R21, R26). Every instruction may take a fault and write the
integer unit's and HDEC's registers, the cursor and the response; `KeptByInstr` adds, instruction by instruction, the
dictionary engine's and HENC's updates, so that a property need survive only what its instruction writes. -/

namespace Sys2Proof.Machine

/-- The instructions that write HENC's registers. -/
def writesHenc : Instr → Bool
  | .henc _ => true
  | _ => false

/-- The instructions that insert an entry. -/
def inserts : Instr → Bool
  | .dpush .. | .repLitInc _ => true
  | _ => false

/-- The instructions that evict. -/
def evicts : Instr → Bool
  | .dshrink _ | .dsetmax _ | .repLitInc _ | .repSizeUpd _ => true
  | _ => false

/-- The instructions that write `DD_MAX`. -/
def setsMax : Instr → Bool
  | .dsetmax _ | .repSizeUpd _ => true
  | _ => false

/-- A property that survives the updates every instruction may make. -/
structure KeptByReads (P : State → Prop) : Prop where
  fault : ∀ e s, P s → P (takeFault e s)
  int : ∀ inp tag busy r s, P s → P (storeInt inp tag busy r s)
  hdec : ∀ r s, P s → P (storeHdec r s)
  cursor : ∀ pos s, P s → P (moveCursor pos s)
  latch : ∀ r s, P s → P (latch r s)

/-- A property that survives the updates this instruction may make. -/
structure KeptByInstr (i : Instr) (P : State → Prop) : Prop extends KeptByReads P where
  henc : writesHenc i → ∀ r s, P s → P (storeHenc r s)
  insert : inserts i → ∀ e s, P s → P (insertEntry e s)
  shrink : evicts i → ∀ limit s, P s → P (shrink limit s)
  setMax : setsMax i → ∀ v s, P s → P (setMax v s)

namespace KeptByReads

variable {α : Type} {p : Params} {P : State → Prop} (k : KeptByReads P) {s : State} (hs : P s)
include k hs

theorem command {run : Run α} (hrun : P run.1) : Keeps P (command s run) :=
  command_keeps hs (fun _ => hrun) fun _ _ _ => k.fault _ _ hrun

theorem runIdecFrom {inp : Bytes} {pos n tag pfx : Nat} : Keeps P (runIdecFrom p inp pos n tag pfx s) :=
  k.command hs (k.int _ _ _ _ _ hs)

theorem runIdec {inp : Bytes} {pos n : Nat} : Keeps P (runIdec p inp pos n s) := by
  refine k.command hs ?_
  split
  · split
    · exact hs
    · exact k.int _ _ _ _ _ hs
  · exact hs

theorem storeByte {tag : Nat} {busy : Bool} {r : IdRegs} : P (storeByte tag busy r s) :=
  k.cursor _ _ (k.int _ _ _ _ _ hs)

theorem runIntFirst {n tag pfx : Nat} : Keeps P (runIntFirst n tag pfx s) := by
  refine k.command hs ?_
  split <;> exact k.storeByte hs

theorem runIntCont {more : Bool} {group : Nat} : Keeps P (runIntCont p more group s) := by
  refine k.command hs ?_
  split <;> exact k.storeByte hs

theorem runHdec {inp : Bytes} : Keeps P (runHdec p inp s) := k.command hs (k.hdec _ _ hs)

theorem runStrBody {inp : Bytes} {pos len : Nat} {huff : Bool} : Keeps P (runStrBody p inp pos len huff s) := by
  unfold Machine.runStrBody
  split
  · exact k.command hs hs
  · dsimp only
    split
    · exact andThen_keeps (k.runHdec hs) fun _ _ _ hu => hu
    · exact hs

theorem runStrdec {inp : Bytes} {pos : Nat} : Keeps P (runStrdec p inp pos s) :=
  andThen_keeps (k.runIdec hs) fun _ _ _ ht => k.runStrBody ht

theorem runStrAt {tag pfx : Nat} : Keeps P (runStrAt p tag pfx s) :=
  andThen_keeps (k.runIdecFrom hs) fun _ _ _ ht => andThen_keeps (k.runStrBody ht) fun _ _ _ hu => k.cursor _ _ hu

theorem runLiteral {inp : Bytes} {pos n tag pfx : Nat} : Keeps P (runLiteral p inp pos n tag pfx s) := by
  refine andThen_keeps (k.runIdecFrom hs) fun r t _ ht => andThen_keeps ?_ fun _ _ _ hu =>
    andThen_keeps (k.runStrdec hu) fun _ _ _ hv => hv
  unfold runLiteralName
  split
  · exact k.runStrdec ht
  · exact andThen_keeps (k.command ht ht) fun _ _ _ hu => hu

theorem runInsert {n v : Bytes} (hins : P (insertEntry ⟨n, v⟩ s)) (hshrink : ∀ limit u, P u → P (shrink limit u)) :
    Keeps P (runInsert n v s) :=
  andThen_keeps (k.command hs hins) fun _ _ _ hu => k.command hu (hshrink _ _ hu)

theorem runDsetmax {v : Nat} (hset : P (setMax v s)) (hshrink : ∀ u, P u → P (shrink v u)) :
    Keeps P (runDsetmax p v s) := by
  refine k.command hs ?_
  split
  · exact hs
  · exact hshrink _ hset

omit hs in
theorem respond {f : α → Result} {r : Run α} (hr : Keeps P r) {t : State} (h : respond f r = .next t) : P t := by
  rw [respond_next] at h
  cases h
  exact k.latch _ _ hr

omit hs in
theorem respondRep {r : Run (Option Field × Nat)} (hr : Keeps P r) {t : State} (h : respondRep r = .next t) : P t := by
  refine k.respond (andThen_keeps hr fun x u _ hu => ?_) h
  exact k.cursor x.2 u hu

end KeptByReads

/-- An instruction keeps every property that survives the updates it may make. -/
theorem exec_keeps_of_instr {P : State → Prop} {i : Instr} (k : KeptByInstr i P) {s t : State} (hs : P s)
    (h : exec i s = .next t) : P t := by
  have kr : KeptByReads P := k.toKeptByReads
  cases i with
  | ienc | dfind | dfindn | dget => exact kr.respond (kr.command hs hs) h
  | idec => exact kr.respond (kr.runIdec hs) h
  | henc => exact kr.respond (kr.command hs (k.henc rfl _ _ hs)) h
  | hdec => exact kr.respond (kr.runHdec hs) h
  | dpush => exact kr.respond (kr.command hs (k.insert rfl _ _ hs)) h
  | dshrink => exact kr.respond (kr.command hs (k.shrink rfl _ _ hs)) h
  | dsetmax => exact kr.respond (kr.runDsetmax hs (k.setMax rfl _ _ hs) (k.shrink rfl _)) h
  | repIndexed =>
    refine kr.respondRep ?_ h
    exact andThen_keeps (kr.runIdecFrom hs) fun _ _ _ ht => andThen_keeps (kr.command ht ht) fun _ _ _ hu => hu
  | repLitInc =>
    refine kr.respondRep ?_ h
    exact andThen_keeps (kr.runLiteral hs) fun _ _ _ ht =>
      andThen_keeps (kr.runInsert ht (k.insert rfl _ _ ht) fun _ => k.shrink rfl _) fun _ _ _ hu => hu
  | repSizeUpd =>
    refine kr.respondRep ?_ h
    exact andThen_keeps (kr.runIdecFrom hs) fun _ _ _ ht =>
      andThen_keeps (kr.runDsetmax ht (k.setMax rfl _ _ ht) (k.shrink rfl _)) fun _ _ _ hu => hu
  | repLitNever | repLitNoIdx =>
    refine kr.respondRep ?_ h
    exact andThen_keeps (kr.runLiteral hs) fun _ _ _ ht => ht
  | strHuff | strRaw => exact kr.respond (kr.runStrAt hs) h
  | intFirstN4 | intFirstN5 | intFirstN6 | intFirstN7 => exact kr.respond (kr.runIntFirst hs) h
  | intCont =>
    simp only [exec, execIntCont] at h
    split at h
    · cases h
    · exact kr.respond (kr.runIntCont hs) h

/-! ### The frames -/

section
variable {i : Instr} (s : State)

theorem keptByInstr_sameHost : KeptByInstr i (SameHost s) where
  fault _ _ h := h
  int _ _ _ _ _ h := h
  hdec _ _ h := h
  cursor _ _ h := h
  latch _ _ h := h
  henc _ _ _ h := h
  insert _ _ _ h := h
  shrink _ _ _ h := h
  setMax _ _ _ h := h

theorem keptByInstr_ddMax (hm : ¬ setsMax i) : KeptByInstr i fun t => t.ddMax = s.ddMax where
  fault _ _ h := h
  int _ _ _ _ _ h := h
  hdec _ _ h := h
  cursor _ _ h := h
  latch _ _ h := h
  henc _ _ _ h := h
  insert _ _ _ h := h
  shrink _ _ _ h := h
  setMax hw := absurd hw hm

theorem keptByInstr_sameDict (hi : ¬ inserts i) (he : ¬ evicts i) (hm : ¬ setsMax i) : KeptByInstr i (SameDict s) where
  fault _ _ h := h
  int _ _ _ _ _ h := h
  hdec _ _ h := h
  cursor _ _ h := h
  latch _ _ h := h
  henc _ _ _ h := h
  insert hw := absurd hw hi
  shrink hw := absurd hw he
  setMax hw := absurd hw hm

theorem keptByInstr_sameHenc (hh : ¬ writesHenc i) : KeptByInstr i (SameHenc s) where
  fault _ _ h := h
  int _ _ _ _ _ h := h
  hdec _ _ h := h
  cursor _ _ h := h
  latch _ _ h := h
  henc hw := absurd hw hh
  insert _ _ _ h := h
  shrink _ _ _ h := h
  setMax _ _ _ h := h

end

/-- Settles O45: each part is kept by the updates of every instruction it does not except (`exec_keeps_of_instr`). -/
theorem instructionsLeaveTheHostAndTheBudgetAlone : Obligations.InstructionsLeaveTheHostAndTheBudgetAlone := by
  intro i s t h
  refine ⟨exec_keeps_of_instr (keptByInstr_sameHost s) ⟨rfl, rfl, rfl, rfl⟩ h, fun hi => ?max, fun hi => ?dict,
    fun hi => ?henc⟩
  case max =>
    have hm : ¬ setsMax i := by cases i <;> simp_all [setsMax]
    exact exec_keeps_of_instr (keptByInstr_ddMax s hm) rfl h
  case dict =>
    obtain ⟨hins, hev, hm⟩ : ¬ inserts i ∧ ¬ evicts i ∧ ¬ setsMax i := by
      cases i <;> simp_all [inserts, evicts, setsMax]
    exact exec_keeps_of_instr (keptByInstr_sameDict s hins hev hm) ⟨rfl, rfl, rfl⟩ h
  case henc =>
    have hh : ¬ writesHenc i := by cases i <;> simp_all [writesHenc]
    exact exec_keeps_of_instr (keptByInstr_sameHenc s hh) ⟨rfl, rfl⟩ h

end Sys2Proof.Machine
end

section
/-! PROOFS. What an instruction does depends on its operands and the five architectural registers alone (10_state.md R10,
R24): the runs agree (Laws/Agree.lean), so the transactions do. -/

namespace Sys2Proof.Machine

/-- Two transactions that agree: both end in a next state, with equal architectural registers and one response. -/
def AgreeOut (o o' : Host.Outcome State Fault Refusal) : Prop :=
  ∃ u v, o = .next u ∧ o' = .next v ∧ SameArch u v ∧ v.resp = u.resp

section
variable {α : Type} {p : Params} {s t : State}

theorem respond_agree {f : α → Result} {r r' : Run α} (h : Agree SameArch r r') :
    AgreeOut (respond f r) (respond f r') := by
  obtain ⟨harch, hres⟩ := h
  exact ⟨_, _, respond_next f r, respond_next f r', harch, by rw [latch_resp, latch_resp, hres]⟩

theorem respondRep_agree {r r' : Run (Option Field × Nat)} (h : Agree SameArch r r') :
    AgreeOut (respondRep r) (respondRep r') :=
  respond_agree (andThen_agree h fun _ _ _ huv => agree_intro huv)

theorem runIntFirst_agree (h : SameArch s t) (n tag pfx : Nat) :
    Agree SameArch (runIntFirst n tag pfx s) (runIntFirst n tag pfx t) := by
  refine command_agree congruent_arch h ?_
  split
  · exact ⟨h, rfl⟩
  · exact ⟨h, rfl⟩

theorem runStrAt_agree (h : SameArch s t) (hinp : t.inp = s.inp) (hpos : t.pos = s.pos) (tag pfx : Nat) :
    Agree SameArch (runStrAt p tag pfx s) (runStrAt p tag pfx t) := by
  unfold runStrAt
  rw [hinp, hpos]
  exact andThen_agree (congruent_arch.runIdecFrom h _ _ _ _ _) fun _ _ _ huv =>
    andThen_agree (congruent_arch.runStrBody huv _ _ _ _) fun _ _ _ hxy => agree_intro hxy

/-- A representation's byte executed at the cursor is the arm of HFDEC it selects. -/
theorem exec_rep (rep : Rep) (s : State) : exec rep.toInstr s = respondRep (runRep params rep s.inp s.pos s) := by
  cases rep <;> rfl

theorem exec_rep_agree (h : SameArch s t) (hinp : t.inp = s.inp) (hpos : t.pos = s.pos) (rep : Rep) :
    AgreeOut (exec rep.toInstr s) (exec rep.toInstr t) := by
  rw [exec_rep, exec_rep, hinp, hpos]
  exact respondRep_agree (congruent_arch.runRep h rep _ _)

end

/-- Settles O46: every run an instruction is made of agrees from states with equal architectural registers. -/
theorem hiddenRegistersDoNotMatter : Obligations.HiddenRegistersDoNotMatter := by
  intro i s t h hi
  have c : Congruent SameArch := congruent_arch
  change AgreeOut (exec i s) (exec i t)
  cases i with
  | ienc => exact respond_agree (c.runIenc h _ _ _)
  | idec => exact respond_agree (c.runIdec h _ _ _)
  | henc => exact respond_agree (c.runHenc h _)
  | hdec => exact respond_agree (c.runHdec h _)
  | dfind => exact respond_agree (c.runDfind h _ _)
  | dfindn => exact respond_agree (c.runDfindn h _)
  | dget => exact respond_agree (c.runDget h _)
  | dpush => exact respond_agree (c.runDpush h _ _)
  | dshrink => exact respond_agree (c.runDshrink h _)
  | dsetmax => exact respond_agree (c.runDsetmax h _)
  | repIndexed pfx => exact exec_rep_agree h hi.1 hi.2 (.indexed pfx)
  | repLitInc pfx => exact exec_rep_agree h hi.1 hi.2 (.litInc pfx)
  | repSizeUpd pfx => exact exec_rep_agree h hi.1 hi.2 (.sizeUpd pfx)
  | repLitNever pfx => exact exec_rep_agree h hi.1 hi.2 (.litNever pfx)
  | repLitNoIdx pfx => exact exec_rep_agree h hi.1 hi.2 (.litNoIdx pfx)
  | strHuff | strRaw => exact respond_agree (runStrAt_agree h hi.1 hi.2 _ _)
  | intFirstN4 | intFirstN5 | intFirstN6 | intFirstN7 => exact respond_agree (runIntFirst_agree h _ _ _)
  | intCont => exact hi.elim

end Sys2Proof.Machine
end

section
/-! PROOFS. The dictionary's budget after an eviction (10_state.md R16; 43_dictionary_engine.md R162). -/

namespace Sys2Proof.Machine

section
variable {s : State} (h : s.flt = .noFault)
include h

theorem exec_dshrink_ready (limit : Nat) : exec (.dshrink limit) s = .next (latch (.ok .unit) (shrink limit s)) := by
  rw [exec, execDshrink, runDshrink, command_ok h, respond_ok]

theorem exec_dsetmax_ready {v : Nat} (hv : v ≤ Config.ddLimit) :
    exec (.dsetmax v) s = .next (latch (.ok .unit) (shrink v (setMax v s))) := by
  have hlimit : ¬ params.ddLimit < v := Nat.not_lt.2 hv
  rw [exec, execDsetmax, runDsetmax, if_neg hlimit, command_ok h, respond_ok]

end

/-- With SUM and BUDGET there are at most `DD_MAX / 32` entries: each costs at least 32. -/
theorem length_le_of_budget {s : State} (hsum : SumHolds s) (hbud : BudgetHolds s) : s.ddEnt.length ≤ s.ddMax / 32 := by
  have hlen : 32 * s.ddEnt.length ≤ totalCost s.ddEnt := length_mul_le_totalCost s.ddEnt
  have htotal : s.ddTotal = totalCost s.ddEnt := hsum
  have hle : s.ddTotal ≤ s.ddMax := hbud
  omega

theorem shrink_budget {limit : Nat} {s : State} (hsum : SumHolds s) (hlimit : limit ≤ s.ddMax) :
    SumHolds (shrink limit s) ∧ BudgetHolds (shrink limit s) ∧
      (shrink limit s).ddEnt.length ≤ (shrink limit s).ddMax / 32 := by
  obtain ⟨hsum', hle⟩ := shrink_sum (limit := limit) hsum
  have hbud : BudgetHolds (shrink limit s) := hle.trans hlimit
  exact ⟨hsum', hbud, length_le_of_budget hsum' hbud⟩

/-- Settles O36: both commands evict to a limit of at most the `DD_MAX` they leave. -/
theorem budgetHoldsAfterShrinking : Obligations.BudgetHoldsAfterShrinking := by
  rintro s t hf hsum (⟨limit, hlimit, h⟩ | ⟨v, hv, h⟩)
  · rw [exec_dshrink_ready hf] at h
    cases h
    exact shrink_budget hsum hlimit
  · rw [exec_dsetmax_ready hf hv] at h
    cases h
    exact shrink_budget (s := setMax v s) hsum (Nat.le_refl v)

end Sys2Proof.Machine
end

section
/-! PROOFS. DGET over the combined index space (20_memory.md R42; 43_dictionary_engine.md R157). -/

namespace Sys2Proof.Machine

section
variable {s : State} {index : Nat} (h : s.flt = .noFault)
include h

theorem exec_dget_read {e : Entry} (hread : dictRead params s.ddEnt index = .ok e) :
    exec (.dget index) s = .next (latch (.ok (.entry e)) s) := by
  rw [exec, execDget, runDget, hread, command_ok h, respond_ok]

theorem exec_dget_fault {e : FaultRec} (hread : dictRead params s.ddEnt index = .error e) :
    exec (.dget index) s = .next (latch (.fault e) (takeFault e s)) := by
  rw [exec, execDget, runDget, hread, command_error h, respond_error]

end

/-- Settles O31: DGET answers what `dictRead` gives at the index, an entry or `InvalidIndex`. -/
theorem dgetReadsTheCombinedIndexSpace : Obligations.DgetReadsTheCombinedIndexSpace := by
  refine ⟨staticRom_length, fun index s hf => ⟨?static, ?dynamic, ?outside⟩⟩
  case static =>
    intro e h1 _ he
    exact exec_dget_read hf (dictRead_static h1 he)
  case dynamic =>
    intro e h62 he
    exact exec_dget_read hf (dictRead_dynamic h62 he)
  case outside =>
    intro hout
    exact exec_dget_fault hf (dictRead_outside hout)

end Sys2Proof.Machine
end

section
/-! PROOFS. Commands executed again (20_memory.md R52): a read that does not fault leaves the architectural registers as
they were, an eviction to a limit leaves nothing to evict to it, and every DPUSH inserts. -/

namespace Sys2Proof.Machine

/-- The commands that only read the architectural registers. -/
def reads : Instr → Bool
  | .ienc .. | .idec .. | .henc _ | .hdec _ | .dfind .. | .dfindn _ | .dget _ => true
  | _ => false

/-! ### Reads -/

section
variable {i : Instr} {s t : State}

/-- A precise run that leaves no fault recorded has completed, so it has left the fault registers as they were. -/
theorem Precise.sameFault {α : Type} {r : Run α} (h : Precise s r) (hr : r.1.flt = .noFault) : SameFault s r.1 := by
  obtain ⟨u, e | a⟩ := r
  · obtain ⟨hcode, hflt, -⟩ := h.of_error rfl
    exact absurd (hflt.symm.trans hr) hcode
  · exact h.of_ok rfl

theorem respond_sameFault {α : Type} {f : α → Result} {r : Run α} (h : Precise s r) (hr : respond f r = .next t)
    (ht : t.flt = .noFault) : SameFault s t := by
  rw [respond_next] at hr
  cases hr
  exact h.sameFault ht

/-- A read that does not fault leaves `FLT` and `FINFO`. -/
theorem exec_reads_sameFault (hi : reads i) (hs : s.flt = .noFault) (h : exec i s = .next t) (ht : t.flt = .noFault) :
    SameFault s t := by
  cases i with
  | ienc => exact respond_sameFault (runIenc_precise hs _ _ _) h ht
  | idec => exact respond_sameFault (runIdec_precise hs _ _ _) h ht
  | henc => exact respond_sameFault (runHenc_precise hs _) h ht
  | hdec => exact respond_sameFault (runHdec_precise hs _) h ht
  | dfind | dfindn => exact respond_sameFault (command_precise hs ⟨rfl, rfl⟩ fun _ he => by cases he) h ht
  | dget => exact respond_sameFault (runDget_precise hs _) h ht
  | _ => cases hi

/-- A read leaves the dictionary registers, whether or not it faults. -/
theorem exec_reads_sameDict (hi : reads i) (h : exec i s = .next t) : SameDict s t := by
  obtain ⟨hins, hev, hmax⟩ : ¬ inserts i ∧ ¬ evicts i ∧ ¬ setsMax i := by
    cases i <;> simp_all [reads, inserts, evicts, setsMax]
  exact exec_keeps_of_instr (keptByInstr_sameDict s hins hev hmax) ⟨rfl, rfl, rfl⟩ h

/-- A read that does not fault, or that is refused, leaves the five architectural registers (R52). -/
theorem exec_reads_sameArch (hi : reads i) (h : exec i s = .next t) (ht : s.flt = .noFault → t.flt = .noFault) :
    SameArch s t := by
  refine ⟨exec_reads_sameDict hi h, ?_⟩
  by_cases hs : s.flt = .noFault
  · exact exec_reads_sameFault hi hs h (ht hs)
  · rw [exec_refused hs] at h
    cases h
    exact ⟨rfl, rfl⟩

/-- A read answers the same from states with equal architectural registers (R24). -/
theorem exec_reads_agree (hi : reads i) (h : SameArch s t) : AgreeOut (exec i s) (exec i t) :=
  hiddenRegistersDoNotMatter i s t h (by cases i <;> simp_all [reads])

theorem exec_reads_again (hi : reads i) (h : exec i s = .next t) (hst : SameArch s t) :
    ∃ u, exec i t = .next u ∧ u.resp = t.resp := by
  obtain ⟨u, v, hu, hv, -, hresp⟩ := exec_reads_agree hi hst
  obtain rfl : t = u := Host.Outcome.next.inj (h.symm.trans hu)
  exact ⟨v, hv, hresp⟩

end

/-! ### Evictions -/

/-- An eviction ends within the limit or with no entry left. -/
theorem evict_result (limit : Nat) (l : List Entry) (total : Nat) :
    (evict limit l total).2 ≤ limit ∨ (evict limit l total).1 = [] := by
  induction l generalizing total with
  | nil => exact .inr rfl
  | cons e l ih =>
    by_cases h : limit < total
    · rw [evict_turn h]; exact ih _
    · rw [evict_stop (.inl (Nat.not_lt.1 h))]; exact .inl (Nat.not_lt.1 h)

theorem shrink_of_nothing_to_evict {limit : Nat} {s : State} (h : s.ddTotal ≤ limit ∨ s.ddEnt = []) :
    shrink limit s = s := by
  rw [shrink, evict_stop (by simpa using h), List.reverse_reverse]

theorem shrink_shrink (limit : Nat) (s : State) : shrink limit (shrink limit s) = shrink limit s := by
  refine shrink_of_nothing_to_evict ?_
  obtain h | h := evict_result limit s.ddEnt.reverse s.ddTotal
  · exact .inl h
  · exact .inr (List.reverse_eq_nil_iff.2 h)

theorem latch_shrink_again (r : Response) (limit : Nat) (s : State) :
    latch r (shrink limit (latch r (shrink limit s))) = latch r (shrink limit s) := by
  change latch r (shrink limit (shrink limit s)) = _
  rw [shrink_shrink]

/-! ### DSHRINK and DSETMAX again -/

/-- Where a fault is recorded and was the last response, an instruction's refusal changes nothing at all. -/
theorem exec_of_fault_reported {t : State} (ht : t.flt ≠ .noFault) (hresp : t.resp = .fault (recorded t)) (i : Instr) :
    exec i t = .next t := by
  rw [exec_refused ht, ← hresp]
  rfl

/-- An instruction that is refused is refused again, with the same state. -/
theorem exec_refused_again {i : Instr} {s t : State} (hs : s.flt ≠ .noFault) (h : exec i s = .next t) :
    exec i t = .next t := by
  rw [exec_refused hs] at h
  cases h
  exact exec_of_fault_reported (t := latch (.fault (recorded s)) s) hs rfl i

theorem exec_dshrink_again {limit : Nat} {s t : State} (h : exec (.dshrink limit) s = .next t) :
    exec (.dshrink limit) t = .next t := by
  by_cases hs : s.flt = .noFault
  · rw [exec_dshrink_ready hs] at h
    cases h
    have hready : (latch (.ok .unit) (shrink limit s)).flt = .noFault := hs
    rw [exec_dshrink_ready hready]
    exact congrArg Host.Outcome.next (latch_shrink_again _ limit s)
  · exact exec_refused_again hs h

theorem exec_dsetmax_above {v : Nat} {s : State} (hs : s.flt = .noFault) (hv : Config.ddLimit < v) :
    exec (.dsetmax v) s =
      .next (latch (.fault (sizeUpdateRange v Config.ddLimit)) (takeFault (sizeUpdateRange v Config.ddLimit) s)) := by
  have hlimit : params.ddLimit < v := hv
  rw [exec, execDsetmax, runDsetmax, if_pos hlimit, command_error hs, respond_error]
  rfl

theorem exec_dsetmax_again {v : Nat} {s t : State} (h : exec (.dsetmax v) s = .next t) :
    exec (.dsetmax v) t = .next t := by
  by_cases hs : s.flt = .noFault
  · by_cases hv : v ≤ Config.ddLimit
    · rw [exec_dsetmax_ready hs hv] at h
      cases h
      have hready : (latch (.ok .unit) (shrink v (setMax v s))).flt = .noFault := hs
      rw [exec_dsetmax_ready hready hv]
      exact congrArg Host.Outcome.next (latch_shrink_again _ v (setMax v s))
    · rw [exec_dsetmax_above hs (Nat.not_le.1 hv)] at h
      cases h
      exact exec_of_fault_reported (by simp [sizeUpdateRange]) rfl _
  · exact exec_refused_again hs h

/-! ### DPUSH -/

theorem exec_dpush_ready {s : State} (h : s.flt = .noFault) (name value : Bytes) :
    exec (.dpush name value) s = .next (latch (.ok .unit) (insertEntry ⟨name, value⟩ s)) := by
  rw [exec, execDpush, runDpush, command_ok h, respond_ok]

/-- Settles O38: a read leaves the architectural registers, on which alone its answer depends; an eviction to a limit
evicts nothing the second time (`shrink_shrink`), and a refused command nothing at all. -/
theorem readsHaveNoEffectAndShrinksAreIdempotent : Obligations.ReadsHaveNoEffectAndShrinksAreIdempotent := by
  refine ⟨fun i s t hi h ht => ?reads, fun i s t hi h => ?shrinks, fun name value s hs => ?pushes⟩
  case reads =>
    have hread : reads i := by cases i <;> simp_all [reads]
    have harch : SameArch s t := exec_reads_sameArch hread h ht
    exact ⟨harch, exec_reads_again hread h harch⟩
  case shrinks =>
    cases i with
    | dshrink => exact exec_dshrink_again h
    | dsetmax => exact exec_dsetmax_again h
    | _ => exact hi.elim
  case pushes =>
    have hpushed : (latch (.ok .unit) (insertEntry ⟨name, value⟩ s)).flt = .noFault := hs
    exact ⟨_, _, exec_dpush_ready hs name value, exec_dpush_ready hpushed name value, rfl⟩

end Sys2Proof.Machine
end

section
/-! PROOFS. The decoder and the encoder undo each other (30_encoding.md R60 to R68, R72). A wire byte is fields set side by
side; of a representation's byte the high field is the pattern that the decoder tests bit by bit. -/

namespace Sys2Proof

/-! ### Fields side by side -/

section
variable {m n : Nat}

theorem toNat_fields (x : BitVec m) (y : BitVec n) : (x ++ y).toNat = x.toNat * 2 ^ n + y.toNat := by
  rw [BitVec.toNat_append, ← Nat.shiftLeft_add_eq_or_of_lt y.isLt, Nat.shiftLeft_eq]

theorem join_fields (b : BitVec (m + n)) : b.extractLsb' n m ++ b.extractLsb' 0 n = b := by
  rw [BitVec.extractLsb'_append_extractLsb'_eq_extractLsb' (Nat.zero_add n).symm, BitVec.extractLsb'_eq_self]

theorem join_of_high_field {b : BitVec (m + n)} {x : BitVec m} (h : b.extractLsb' n m = x) :
    x ++ b.extractLsb' 0 n = b := by
  rw [← h, join_fields]

end

/-! ### Representations -/

/-- The first byte of a representation: its pattern's fixed bits, then the prefix (R64). -/
def Rep.toByte : Rep → Byte
  | .indexed p => 1#1 ++ p
  | .litInc p => 1#2 ++ p
  | .sizeUpd p => 1#3 ++ p
  | .litNever p => 1#4 ++ p
  | .litNoIdx p => 0#4 ++ p

/-- `Rep.toByte` is what the encoder writes. -/
theorem encode_toInstr (r : Rep) : encode r.toInstr = .wire .rep r.toByte := by
  cases r <;> rfl

@[simp] theorem decodeRep_toByte (r : Rep) : decodeRep r.toByte = r := by
  cases r <;> simp only [decodeRep, Rep.toByte, BitVec.getLsbD_append, BitVec.extractLsb'_append_eq_right] <;> simp

/-- In each branch of the decoder the bits tested determine the high field. -/
@[simp] theorem toByte_decodeRep (b : Byte) : (decodeRep b).toByte = b := by
  unfold decodeRep
  split_ifs with h7 h6 h5 h4
  · exact join_of_high_field (m := 1) (n := 7) (by grind)
  · exact join_of_high_field (m := 2) (n := 6) (by grind)
  · exact join_of_high_field (m := 3) (n := 5) (by grind)
  · exact join_of_high_field (m := 4) (n := 4) (by grind)
  · exact join_of_high_field (m := 4) (n := 4) (by grind)

theorem decode_toByte (r : Rep) : decode (.wire .rep r.toByte) = .ok r.toInstr := by
  rw [decode, decodeWire, decodeRep_toByte]

/-! ### The two directions -/

/-- Settles O3: a command carries its operands unchanged; a representation's byte decodes to it (`decode_toByte`); any other
byte's fields are read where they were written. -/
theorem decodeUndoesEncode : Obligations.DecodeUndoesEncode := by
  intro i
  cases i with
  | ienc | idec | henc | hdec | dfind | dfindn | dget | dpush | dshrink | dsetmax => rfl
  | repIndexed p => exact decode_toByte (.indexed p)
  | repLitInc p => exact decode_toByte (.litInc p)
  | repSizeUpd p => exact decode_toByte (.sizeUpd p)
  | repLitNever p => exact decode_toByte (.litNever p)
  | repLitNoIdx p => exact decode_toByte (.litNoIdx p)
  | strHuff | strRaw =>
    simp only [encode, decode, decodeWire, BitVec.getLsbD_append, BitVec.extractLsb'_append_eq_right]
    rfl
  | intFirstN4 | intFirstN5 | intFirstN6 | intFirstN7 | intCont =>
    simp only [encode, decode, decodeWire, BitVec.extractLsb'_append_eq_left, BitVec.extractLsb'_append_eq_right]

/-- Settles O4: the fields a byte is cut into make up the byte again, and the high field of a REP or STR byte is the one its
instruction stands for. -/
theorem encodeUndoesWireDecode : Obligations.EncodeUndoesWireDecode := by
  intro fmt b
  cases fmt with
  | rep => rw [decodeWire, encode_toInstr, toByte_decodeRep]
  | str =>
    rw [decodeWire]
    split_ifs with h7
    all_goals exact congrArg (PortWord.wire .str) (join_of_high_field (m := 1) (n := 7) (by grind))
  | int4 => exact congrArg (PortWord.wire .int4) (join_fields (m := 4) (n := 4) b)
  | int5 => exact congrArg (PortWord.wire .int5) (join_fields (m := 3) (n := 5) b)
  | int6 => exact congrArg (PortWord.wire .int6) (join_fields (m := 2) (n := 6) b)
  | int7 => exact congrArg (PortWord.wire .int7) (join_fields (m := 1) (n := 7) b)
  | cont => exact congrArg (PortWord.wire .cont) (join_fields (m := 1) (n := 7) b)

/-- Settles O2: every byte is the byte of one representation (`toByte_decodeRep`), whose pattern places it in its range
whatever the prefix. -/
theorem firstByteRangesOfRepresentations : Obligations.FirstByteRangesOfRepresentations := by
  intro b
  obtain ⟨r, rfl⟩ : ∃ r : Rep, r.toByte = b := ⟨decodeRep b, toByte_decodeRep b⟩
  rw [decodeRep_toByte]
  cases r with
  | indexed p | litInc p | sizeUpd p | litNever p | litNoIdx p =>
    have hp := p.isLt
    simp only [Rep.toByte, toNat_fields, BitVec.toNat_ofNat, Rep.indexed.injEq, Rep.litInc.injEq, Rep.sizeUpd.injEq,
      Rep.litNever.injEq, Rep.litNoIdx.injEq, reduceCtorEq, exists_eq', exists_false, iff_true, iff_false]
    omega

/-- Settles O1: the decoder evaluated on each word. -/
theorem wordsDecodeAsTheSpecWritesThem : Obligations.WordsDecodeAsTheSpecWritesThem :=
  ⟨rfl, rfl, rfl, rfl, rfl, rfl, rfl, rfl, rfl, rfl, rfl, rfl, rfl⟩

end Sys2Proof
end

section
/-! PROOFS. Operands and command codes out of range (30_encoding.md R74), and the first byte of an INT executed alone (R61;
40_integer_codec.md R95). -/

namespace Sys2Proof.Machine

/-! ### The operand tests are the ranges of `Instr.wellFormed` -/

theorem legalWidth_eq_width (n : Nat) : legalWidth n = WellFormed.width n := by
  rw [Bool.eq_iff_iff, legalWidth_iff]
  simp [WellFormed.width]

theorem legalTag_eq_tagFits (n tag : Nat) : legalTag n tag = WellFormed.tagFits n tag := by
  have hbyte : tag ≤ 255 ↔ tag < 256 := by omega
  simp [legalTag, WellFormed.tagFits, hbyte]

/-- A code that is none of R72's ten is refused by the decoder. -/
theorem decodeCmd_unknown {code : Byte}
    (hcode : code.toNat ∉ [0x01, 0x02, 0x03, 0x04, 0x10, 0x11, 0x12, 0x13, 0x14, 0x15]) (ops : Operands) :
    decodeCmd code ops = .error (.unknownCommand code) := by
  unfold decodeCmd
  split <;> simp_all

section
variable {s : State} (h : s.flt = .noFault)
include h

/-! ### Illegal operands and codes -/

theorem exec_ienc_illegal {value n tag : Nat} (hop : (Instr.ienc value n tag).wellFormed = false) :
    exec (.ienc value n tag) s = .next (latch (.fault illegalOperand) (takeFault illegalOperand s)) := by
  rw [Instr.wellFormed, ← legalWidth_eq_width, ← legalTag_eq_tagFits] at hop
  have herr : ienc value n tag = .error illegalOperand := by rw [ienc, hop, if_neg Bool.false_ne_true]
  rw [exec, execIenc, runIenc, herr, command_error h, respond_error]

theorem exec_idec_illegal {inp : Bytes} {pos n : Nat} (hop : (Instr.idec inp pos n).wellFormed = false) :
    exec (.idec inp pos n) s = .next (latch (.fault illegalOperand) (takeFault illegalOperand s)) := by
  rw [Instr.wellFormed, ← legalWidth_eq_width] at hop
  rw [exec, execIdec, runIdec, hop, if_neg Bool.false_ne_true, command_error h, respond_error]

theorem serve_cmd_undecoded {code : Byte} {ops : Operands} {e : DecodeError} (hdec : decode (.cmd code ops) = .error e) :
    serve (.cmd code ops) s = .next (latch (.fault illegalCommand) (takeFault illegalCommand s)) := by
  rw [serve, fetchCmd, hdec]
  exact respondUnit_hostRaise h illegalCommand

/-! ### The first byte of an INT -/

/-- The integer is complete in its first byte, or the prefix is all ones and the integer is in progress. -/
theorem respond_runIntFirst {n tag pfx : Nat} (hpfx : pfx < 2 ^ n) :
    respond intAnswer (runIntFirst n tag pfx s) =
      .next { s with
        pos := s.pos + 1, cursorLive := true
        idVal := pfx, idI := 0, idTag := tag, idBusy := decide (pfx = 2 ^ n - 1)
        resp := .ok (if pfx = 2 ^ n - 1 then .more else .int ⟨pfx, tag, 1⟩) } := by
  by_cases hall : pfx = 2 ^ n - 1
  · have hmax : ¬ pfx < maxPrefix n := by rw [maxPrefix]; omega
    rw [runIntFirst, if_neg hmax, command_ok h, respond_ok, if_pos hall, decide_eq_true hall]
    rfl
  · have hmax : pfx < maxPrefix n := by rw [maxPrefix]; omega
    rw [runIntFirst, if_pos hmax, command_ok h, respond_ok, if_neg hall, decide_eq_false hall]
    rfl

end

/-- Settles O10: operands that are not well formed fail the commands' own tests, and the decoder refuses the code. -/
theorem illegalOperandsAndCodesFault : Obligations.IllegalOperandsAndCodesFault :=
  fun _ hs => ⟨fun _ _ _ => exec_ienc_illegal hs, fun _ _ _ => exec_idec_illegal hs,
    fun _ ops hcode => serve_cmd_undecoded hs (decodeCmd_unknown hcode ops)⟩

/-- Settles O18: the four widths are one run (`respond_runIntFirst`). -/
theorem intFirstByteSteps : Obligations.IntFirstByteSteps := by
  refine fun s hs => ⟨?n4, ?n5, ?n6, ?n7⟩
  all_goals
    intro tag pfx
    rw [Nat.mul_comm]
    exact respond_runIntFirst hs pfx.isLt

end Sys2Proof.Machine
end

section
/-! PROOFS. IENC's bytes (40_integer_codec.md R92, R93): a tail in positional notation, and the tail IENC emits as the
minimal one. -/

namespace Sys2Proof.Machine

open Sys2Proof.Claims

/-! ### What a tail denotes (R69) -/

theorem tailValue_append (a b : Bytes) : tailValue (a ++ b) = tailValue a + 128 ^ a.length * tailValue b := by
  induction a with
  | nil => simp [tailValue]
  | cons c a ih =>
    simp only [List.cons_append, tailValue, ih, List.length_cons, Nat.pow_succ]
    ring

theorem tailValue_singleton (c : Byte) : tailValue [c] = c.toNat % 128 := rfl

theorem tailValue_lt (l : Bytes) : tailValue l < 128 ^ l.length := by
  induction l with
  | nil => decide
  | cons c l ih =>
    have hgroup : c.toNat % 128 < 128 := Nat.mod_lt _ (by decide)
    rw [tailValue, List.length_cons, Nat.pow_succ]
    omega

theorem tailValue_le_append (a b : Bytes) : tailValue a ≤ tailValue (a ++ b) := by
  rw [tailValue_append]
  exact Nat.le_add_right _ _

/-- A tail that takes a value within the bound above it has a first byte at which it does. -/
theorem exists_first_above {m base : Nat} {l : Bytes} (hbase : base ≤ m) (habove : m < base + tailValue l) :
    ∃ a c b, l = a ++ c :: b ∧ base + tailValue a ≤ m ∧ m < base + tailValue (a ++ [c]) := by
  induction l using List.reverseRecOn with
  | nil => exact absurd habove (Nat.not_lt.2 hbase)
  | append_singleton l c ih =>
    by_cases hl : base + tailValue l ≤ m
    · exact ⟨l, c, [], rfl, hl, habove⟩
    · obtain ⟨a, d, b, rfl, ha, hd⟩ := ih (Nat.not_le.1 hl)
      exact ⟨a, d, b ++ [c], by simp, ha, hd⟩

/-! ### The minimal tail (R93) -/

/-- A tail in R61's form that denotes the value and ends in a zero byte only where that is its one byte. -/
structure MinimalTail (value : Nat) (conts : Bytes) (last : Byte) : Prop where
  continues : AllContinue conts
  stops : last.toNat < 128
  denotes : tailValue (conts ++ [last]) = value
  ends : last.toNat = 0 → conts = []

namespace MinimalTail

variable {value : Nat} {conts : Bytes} {last : Byte}

theorem add_tailValue {base : Nat} (h : MinimalTail (value - base) conts last) (hbase : base ≤ value) :
    base + tailValue (conts ++ [last]) = value := by
  rw [h.denotes, Nat.add_sub_cancel' hbase]

theorem value_lt (h : MinimalTail value conts last) : value < 128 ^ (conts.length + 1) := by
  rw [← h.denotes]
  simpa using tailValue_lt (conts ++ [last])

/-- The last group of a longer tail is not zero, so it alone has the weight that one byte fewer cannot hold. -/
theorem le_value (h : MinimalTail value conts last) (hconts : conts ≠ []) : 128 ^ conts.length ≤ value := by
  have hlast : 0 < tailValue [last] := by
    rw [tailValue_singleton, Nat.mod_eq_of_lt h.stops]
    exact Nat.pos_of_ne_zero fun h0 => hconts (h.ends h0)
  calc 128 ^ conts.length ≤ 128 ^ conts.length * tailValue [last] := Nat.le_mul_of_pos_right _ hlast
    _ ≤ tailValue (conts ++ [last]) := by rw [tailValue_append]; exact Nat.le_add_left _ _
    _ = value := h.denotes

theorem single (h : value < 128) : MinimalTail value [] (BitVec.ofNat 8 value) where
  continues := by simp [AllContinue]
  stops := by rw [BitVec.toNat_ofNat]; omega
  denotes := by rw [List.nil_append, tailValue_singleton, BitVec.toNat_ofNat]; omega
  ends _ := rfl

/-- A group set before the minimal tail of the rest of the value. -/
theorem cons (hvalue : 128 ≤ value) (h : MinimalTail (value / 128) conts last) :
    MinimalTail value (BitVec.ofNat 8 (128 + value % 128) :: conts) last where
  continues := List.forall_mem_cons.2 ⟨by rw [BitVec.toNat_ofNat]; omega, h.continues⟩
  stops := h.stops
  denotes := by
    rw [List.cons_append, tailValue, h.denotes, BitVec.toNat_ofNat]
    omega
  ends h0 := by
    have hzero : value / 128 = 0 := by
      rw [← h.denotes, h.ends h0, List.nil_append, tailValue_singleton, h0]
    omega

end MinimalTail

/-- IENC's loop emits the minimal tail, by as many turns as there is fuel at most. -/
theorem iencTail_minimal {fuel rest : Nat} (hfuel : rest ≤ fuel) :
    ∃ conts last, iencTail fuel rest = conts ++ [last] ∧ MinimalTail rest conts last := by
  induction fuel generalizing rest with
  | zero =>
    have hrest : rest < 128 := by omega
    exact ⟨[], _, iencTail_last hrest, .single hrest⟩
  | succ fuel ih =>
    by_cases hrest : rest < 128
    · exact ⟨[], _, iencTail_last hrest, .single hrest⟩
    · have hmore : 128 ≤ rest := Nat.not_lt.1 hrest
      obtain ⟨conts, last, htail, hmin⟩ := ih (rest := rest / 128) (by omega)
      exact ⟨_ :: conts, last, by rw [iencTail_continue hmore, htail, List.cons_append], hmin.cons hmore⟩

/-! ### The command IENC -/

section
variable {value n tag : Nat} (hop : (Instr.ienc value n tag).wellFormed = true)
include hop

theorem ienc_operands : (4 ≤ n ∧ n ≤ 7) ∧ tag < 256 ∧ tag % 2 ^ n = 0 := by
  simpa [Instr.wellFormed, WellFormed.width, WellFormed.tagFits] using hop

theorem ienc_operands_legal : (legalWidth n && legalTag n tag) = true := by
  rw [legalWidth_eq_width, legalTag_eq_tagFits]
  exact hop

theorem ienc_below (hvalue : value < 2 ^ n - 1) : ienc value n tag = .ok [BitVec.ofNat 8 (tag + value)] := by
  rw [ienc, if_pos (ienc_operands_legal hop), maxPrefix, if_pos hvalue]

theorem ienc_above (hvalue : 2 ^ n - 1 ≤ value) :
    ∃ conts last, ienc value n tag = .ok (BitVec.ofNat 8 (tag + (2 ^ n - 1)) :: (conts ++ [last])) ∧
      MinimalTail (value - (2 ^ n - 1)) conts last := by
  obtain ⟨conts, last, htail, hmin⟩ := iencTail_minimal (Nat.le_refl (value - (2 ^ n - 1)))
  refine ⟨conts, last, ?_, hmin⟩
  rw [ienc, if_pos (ienc_operands_legal hop), maxPrefix, if_neg (Nat.not_lt.2 hvalue), htail]

/-- A tag and a prefix set side by side in a byte can be read again. -/
theorem firstByte_fields {pfx : Nat} (hpfx : pfx < 2 ^ n) :
    (BitVec.ofNat 8 (tag + pfx)).toNat % 2 ^ n = pfx ∧ (BitVec.ofNat 8 (tag + pfx)).toNat - pfx = tag := by
  obtain ⟨⟨h4, h7⟩, hbyte, hlow⟩ := ienc_operands hop
  rw [BitVec.toNat_ofNat]
  interval_cases n <;> omega

end

theorem exec_ienc_ok {value n tag : Nat} {s : State} {out : Bytes} (h : s.flt = .noFault)
    (hout : ienc value n tag = .ok out) :
    exec (.ienc value n tag) s = .next (latch (.ok (.bytes out)) s) := by
  rw [exec, execIenc, runIenc, hout, command_ok h, respond_ok]

/-- Settles O12: below `2^n - 1` the first byte holds the value; else `iencTail` emits the minimal tail, from whose last
byte both bounds on its length follow (`MinimalTail.value_lt`, `MinimalTail.le_value`). -/
theorem iencEmitsTheMinimalEncoding : Obligations.IencEmitsTheMinimalEncoding := by
  refine fun value n tag s hs hop => ⟨fun hbelow => exec_ienc_ok hs (ienc_below hop hbelow), fun habove => ?_⟩
  obtain ⟨conts, last, hout, hmin⟩ := ienc_above hop habove
  exact ⟨conts, last, exec_ienc_ok hs hout, hmin.continues, hmin.stops, hmin.add_tailValue habove, hmin.ends,
    hmin.value_lt, hmin.le_value⟩

end Sys2Proof.Machine
end

section
/-! PROOFS. IDEC (40_integer_codec.md R94 to R97): its loop over a whole run of continuation bytes, its results and
faults, and that it undoes IENC. -/

namespace Sys2Proof.Machine

open Sys2Proof.Claims

/-! ### R95's loop over continuation bytes -/

/-- The registers after the continuation bytes `l` have been accepted. -/
def IdRegs.after (r : IdRegs) (l : Bytes) : IdRegs :=
  ⟨r.val + tailValue l * 2 ^ (7 * r.i), r.i + l.length, r.pos + l.length⟩

theorem IdRegs.after_nil (r : IdRegs) : r.after [] = r := by simp [IdRegs.after, tailValue]

theorem IdRegs.after_append (r : IdRegs) (a b : Bytes) : r.after (a ++ b) = (r.after a).after b := by
  have hweight : 128 ^ a.length * 2 ^ (7 * r.i) = 2 ^ (7 * (r.i + a.length)) := by
    rw [Nat.mul_add, Nat.pow_add, Nat.pow_mul 2 7 a.length, Nat.mul_comm]
  simp only [IdRegs.after, IdRegs.mk.injEq, List.length_append]
  refine ⟨?_, by omega, by omega⟩
  rw [tailValue_append, ← hweight]
  ring

theorem IdRegs.val_le_after_append (r : IdRegs) (a b : Bytes) : (r.after a).val ≤ (r.after (a ++ b)).val :=
  Nat.add_le_add_left (Nat.mul_le_mul_right _ (tailValue_le_append a b)) _

section
variable {m : Nat} {r : IdRegs} {conts : Bytes} (hconts : AllContinue conts)
include hconts

/-- R95's loop takes bytes with C = 1 one after the other while the value stays within the bound. -/
theorem idecLoop_allContinue (l : Bytes) (hval : (r.after conts).val ≤ m) :
    idecLoop m (conts ++ l) r = idecLoop m l (r.after conts) := by
  induction conts generalizing r with
  | nil => rw [List.nil_append, IdRegs.after_nil]
  | cons c conts ih =>
    obtain ⟨hc, hrest⟩ := List.forall_mem_cons.1 hconts
    have hfirst : (r.after [c]).val ≤ m := (r.val_le_after_append [c] conts).trans hval
    have hcons : r.after (c :: conts) = (r.after [c]).after conts := r.after_append [c] conts
    rw [List.cons_append, idecLoop_continue hc hfirst, hcons]
    exact ih hrest (hcons ▸ hval)

theorem idecLoop_tail {last : Byte} (rest : Bytes) (hlast : last.toNat < 128)
    (hval : (r.after (conts ++ [last])).val ≤ m) :
    idecLoop m (conts ++ last :: rest) r = (r.after (conts ++ [last]), .ok ()) := by
  rw [idecLoop_allContinue hconts _ ((r.val_le_after_append _ _).trans hval), r.after_append] at *
  exact idecLoop_last hlast hval

theorem idecLoop_truncated (hval : (r.after conts).val ≤ m) :
    idecLoop m conts r = (r.after conts, .error (truncatedByte (r.pos + conts.length))) := by
  have hloop := idecLoop_allContinue hconts [] hval
  rw [List.append_nil] at hloop
  rw [hloop, idecLoop]
  rfl

theorem idecLoop_above {c : Byte} (rest : Bytes) (hval : (r.after conts).val ≤ m)
    (habove : m < (r.after (conts ++ [c])).val) :
    ∃ r', idecLoop m (conts ++ c :: rest) r =
      (r', .error (integerOverflow (r.pos + conts.length) m (r.after (conts ++ [c])).val)) := by
  rw [idecLoop_allContinue hconts _ hval]
  rw [r.after_append] at habove ⊢
  exact ⟨_, idecLoop_overflow habove⟩

end

/-! ### The command IDEC -/

theorem idecFrom_below {m pos n pfx : Nat} {inp : Bytes} (h : pfx < 2 ^ n - 1) :
    idecFrom m inp pos n pfx = (idecFirst pos pfx, .ok ()) := by
  rw [idecFrom, maxPrefix, if_pos h]

theorem idecFrom_allOnes {m n pfx : Nat} (h : pfx = 2 ^ n - 1) (pre : Bytes) (b : Byte) (l : Bytes) :
    idecFrom m (pre ++ b :: l) pre.length n pfx = idecLoop m l (idecFirst pre.length (2 ^ n - 1)) := by
  rw [h, idecFrom, maxPrefix, if_neg (Nat.lt_irrefl _)]
  simp

theorem idecFirst_after_val (pos pfx : Nat) (l : Bytes) : ((idecFirst pos pfx).after l).val = pfx + tailValue l := by
  simp [idecFirst, IdRegs.after]

/-- The state in which a fault has been taken and reported. -/
theorem faulted_frame {e : FaultRec} {s t : State} (hdict : SameDict s t) (hhost : SameHost s t) :
    SameDict s (latch (.fault e) (takeFault e t)) ∧ SameHost s (latch (.fault e) (takeFault e t)) ∧
      TookFault e (latch (.fault e) (takeFault e t)) :=
  ⟨hdict, hhost, rfl, rfl, rfl⟩

section
variable {s : State} {n : Nat} (h : s.flt = .noFault) (h4 : 4 ≤ n) (h7 : n ≤ 7)
include h4 h7

theorem idec_operands_legal {inp : Bytes} {pos : Nat} (hpos : pos ≤ inp.length) :
    (legalWidth n && pos ≤ inp.length) = true := by
  simp [legalWidth_iff.2 ⟨h4, h7⟩, hpos]

theorem exec_idec_byte {inp : Bytes} {pos : Nat} {b : Byte} (hb : inp[pos]? = some b) :
    exec (.idec inp pos n) s =
      respond .int
        (command s (idecRun inp (tagOf n b) (idecFrom Config.intMax inp pos n (b.toNat % 2 ^ n)) s)) := by
  have hpos : pos < inp.length := (List.getElem?_eq_some_iff.1 hb).1
  rw [exec, execIdec, runIdec, if_pos (idec_operands_legal h4 h7 hpos.le), hb]
  rfl

include h

theorem exec_idec_completes {inp : Bytes} {pos : Nat} {b : Byte} {r : IdRegs} (hb : inp[pos]? = some b)
    (hr : idecFrom Config.intMax inp pos n (b.toNat % 2 ^ n) = (r, .ok ())) :
    exec (.idec inp pos n) s =
      .next (latch (.ok (.int (intResult (tagOf n b) r))) (storeInt inp (tagOf n b) false r s)) := by
  rw [exec_idec_byte h4 h7 hb, hr, idecRun, command_ok h, respond_ok]

theorem exec_idec_faults {inp : Bytes} {pos : Nat} {b : Byte} {r : IdRegs} {e : FaultRec} (hb : inp[pos]? = some b)
    (hr : idecFrom Config.intMax inp pos n (b.toNat % 2 ^ n) = (r, .error e)) :
    ∃ t, exec (.idec inp pos n) s = .next t ∧ SameDict s t ∧ SameHost s t ∧ TookFault e t := by
  rw [exec_idec_byte h4 h7 hb, hr, idecRun, command_error h, respond_error]
  exact ⟨_, rfl, faulted_frame ⟨rfl, rfl, rfl⟩ ⟨rfl, rfl, rfl, rfl⟩⟩

theorem exec_idec_atEnd (inp : Bytes) :
    exec (.idec inp inp.length n) s =
      .next (latch (.fault (truncatedByte inp.length)) (takeFault (truncatedByte inp.length) s)) := by
  rw [exec, execIdec, runIdec, if_pos (idec_operands_legal h4 h7 inp.length.le_refl), List.getElem?_length]
  dsimp only
  rw [command_error h, respond_error]

end

/-- Settles O13: IDEC returns before its loop, with the registers of the first byte. -/
theorem idecReadsAPrefixValue : Obligations.IdecReadsAPrefixValue :=
  fun _ _ _ _ _ hs h4 h7 hb hpfx => exec_idec_completes hs h4 h7 hb (idecFrom_below hpfx)

/-- Settles O14: the loop runs through the whole tail (`idecLoop_tail`). -/
theorem idecReadsATail : Obligations.IdecReadsATail := by
  intro pre conts rest b last n s hs h4 h7 hones hconts hlast hval
  have hregs : (idecFirst pre.length (2 ^ n - 1)).after (conts ++ [last]) =
      ⟨2 ^ n - 1 + tailValue (conts ++ [last]), conts.length + 1, pre.length + conts.length + 2⟩ := by
    simp only [idecFirst, IdRegs.after, IdRegs.mk.injEq, List.length_append, List.length_singleton]
    exact ⟨by simp, by omega, by omega⟩
  have hafter : ((idecFirst pre.length (2 ^ n - 1)).after (conts ++ [last])).val ≤ Config.intMax := by
    rwa [idecFirst_after_val]
  have hloop := (idecFrom_allOnes hones pre b _).trans (idecLoop_tail hconts rest hlast hafter)
  rw [exec_idec_completes hs h4 h7 (by simp) hloop, hregs, tagOf, prefixOf, hones]
  rfl

/-- Settles O15: the first byte is missing, or the loop stops where the input ends (`idecLoop_truncated`) or at the byte
whose group takes the value above the bound (`idecLoop_above`). -/
theorem idecFaultsInStreamOrder : Obligations.IdecFaultsInStreamOrder := by
  intro pre conts rest b c n s hs h4 h7
  refine ⟨?atEnd, fun hones hconts hval => ?afterAllOnes⟩
  case atEnd => exact ⟨_, exec_idec_atEnd hs h4 h7 pre, faulted_frame ⟨rfl, rfl, rfl⟩ ⟨rfl, rfl, rfl, rfl⟩⟩
  have hafter : ((idecFirst pre.length (2 ^ n - 1)).after conts).val ≤ Config.intMax := by
    rwa [idecFirst_after_val]
  have hpos : (idecFirst pre.length (2 ^ n - 1)).pos + conts.length = pre.length + conts.length + 1 :=
    Nat.add_right_comm _ _ _
  refine ⟨?truncated, fun habove => ?overflow⟩
  case truncated =>
    have hloop := (idecFrom_allOnes hones pre b _).trans (idecLoop_truncated hconts hafter)
    rw [hpos] at hloop
    exact exec_idec_faults hs h4 h7 (by simp) hloop
  case overflow =>
    rw [← idecFirst_after_val pre.length] at habove ⊢
    obtain ⟨r, hloop⟩ := idecLoop_above hconts rest hafter habove
    rw [hpos] at hloop
    exact exec_idec_faults hs h4 h7 (by simp) ((idecFrom_allOnes hones pre b _).trans hloop)

/-- Settles O17: `runIdec_ready` with the response latched. -/
theorem idecFollowsItsFunction : Obligations.IdecFollowsItsFunction := by
  intro inp pos n s hs
  obtain ⟨t, hdict, hhost, hhenc, hhdec, hfault, hok, herr⟩ :=
    runIdec_ready (p := params) (inp := inp) (pos := pos) (n := n) hs
  cases hfun : idec Config.intMax inp pos n with
  | ok r =>
    refine ⟨latch (.ok (.int r)) t, ?_, hdict, hhost, hhenc, hhdec, ?_, by simp⟩
    · rw [exec, execIdec, hok r hfun, respond_ok]
    · rintro _ ⟨rfl⟩
      exact ⟨hfault, rfl⟩
  | error e =>
    refine ⟨latch (.fault e) (takeFault e t), ?_, hdict, hhost, hhenc, hhdec, by simp, ?_⟩
    · rw [exec, execIdec, herr e hfun, respond_error]
    · rintro _ ⟨rfl⟩
      exact ⟨rfl, rfl, rfl⟩

/-! ### IDEC undoes IENC (R97) -/

/-- Every prefix of an INT is within the decoder's bound (R94). -/
theorem allOnes_le_intMax {n : Nat} (h7 : n ≤ 7) : 2 ^ n - 1 ≤ Config.intMax := by
  have hpow : 2 ^ n ≤ 2 ^ 7 := Nat.pow_le_pow_right (by decide) h7
  rw [Config.intMax]
  omega

/-- The bytes before one in a tail have C = 1. -/
theorem allContinue_of_append {conts a b : Bytes} {last c : Byte} (hconts : AllContinue conts)
    (h : conts ++ [last] = a ++ c :: b) : AllContinue a := by
  have hsplit : conts = a ++ (c :: b).dropLast := by
    simpa [List.dropLast_append_of_ne_nil] using congrArg List.dropLast h
  exact fun x hx => hconts x (hsplit ▸ List.mem_append_left _ hx)

section
variable {value n tag : Nat} {out : Bytes} {s : State} (h : s.flt = .noFault)
  (hop : (Instr.ienc value n tag).wellFormed = true) (hout : ienc value n tag = .ok out) (rest : Bytes)
include h hop hout

theorem exec_idec_ienc_within (hvalue : value ≤ Config.intMax) :
    ∃ t, exec (.idec (out ++ rest) 0 n) s = .next t ∧ t.resp = .ok (.int ⟨value, tag, out.length⟩) := by
  obtain ⟨⟨h4, h7⟩, -, -⟩ := ienc_operands hop
  have hpow : 0 < 2 ^ n := Nat.two_pow_pos n
  by_cases hbelow : value < 2 ^ n - 1
  · obtain ⟨hpfx, htag⟩ := firstByte_fields hop (pfx := value) (by omega)
    have hread := idecReadsAPrefixValue (out ++ rest) 0 n (BitVec.ofNat 8 (tag + value)) s h h4 h7
    rw [ienc_below hop hbelow] at hout
    cases hout
    rw [hpfx, htag] at hread
    exact ⟨_, hread rfl hbelow, rfl⟩
  · have habove : 2 ^ n - 1 ≤ value := Nat.not_lt.1 hbelow
    obtain ⟨hones, htag⟩ := firstByte_fields hop (pfx := 2 ^ n - 1) (by omega)
    obtain ⟨conts, last, htail, hmin⟩ := ienc_above hop habove
    have hdenotes := hmin.add_tailValue habove
    have hread := idecReadsATail [] conts rest _ last n s h h4 h7 hones hmin.continues hmin.stops (hdenotes ▸ hvalue)
    rw [htail] at hout
    cases hout
    rw [htag, hdenotes] at hread
    exact ⟨_, by simpa using hread, by simp⟩

theorem exec_idec_ienc_above (hvalue : Config.intMax < value) :
    ∃ t, exec (.idec (out ++ rest) 0 n) s = .next t ∧ t.flt = .integerOverflow := by
  obtain ⟨⟨h4, h7⟩, -, -⟩ := ienc_operands hop
  have hmax := allOnes_le_intMax h7
  have hpow : 0 < 2 ^ n := Nat.two_pow_pos n
  obtain ⟨hones, -⟩ := firstByte_fields hop (pfx := 2 ^ n - 1) (by omega)
  obtain ⟨conts, last, htail, hmin⟩ := ienc_above hop (hmax.trans hvalue.le)
  have hdenotes := hmin.add_tailValue (hmax.trans hvalue.le)
  obtain ⟨a, c, b, hsplit, ha, hc⟩ := exists_first_above hmax (hdenotes.symm ▸ hvalue)
  obtain ⟨-, hfaults⟩ := idecFaultsInStreamOrder [] a (b ++ rest) _ c n s h h4 h7
  obtain ⟨-, hover⟩ := hfaults hones (allContinue_of_append hmin.continues hsplit) ha
  obtain ⟨t, hexec, -, -, hflt, -, -⟩ := hover hc
  rw [htail, hsplit] at hout
  cases hout
  exact ⟨t, by simpa using hexec, hflt⟩

end

/-- Settles O16: what IENC emits is read as a value in the first byte (`idecReadsAPrefixValue`) or as a tail
(`idecReadsATail`); above the bound, some byte of the tail is the first to take the value there
(`idecFaultsInStreamOrder`). -/
theorem idecUndoesIenc : Obligations.IdecUndoesIenc := by
  intro value n tag rest s hs hop
  obtain ⟨out, hout⟩ := ienc_legal (ienc_operands_legal hop)
  have hu : (latch (.ok (.bytes out)) s).flt = .noFault := hs
  exact ⟨_, out, exec_ienc_ok hs hout, rfl, exec_idec_ienc_within hu hop hout rest,
    exec_idec_ienc_above hu hop hout rest⟩

end Sys2Proof.Machine
end

section
/-! PROOFS. An integer executed byte by byte (40_integer_codec.md R95; 20_memory.md R50) ends as IDEC does. -/

namespace Sys2Proof.Machine

open Sys2Proof.Claims

/-! ### One continuation byte -/

section
variable {s : State} {c : BitVec 1} {group : BitVec 7} {r : IdRegs} (h : s.flt = .noFault) (hbusy : s.idBusy = true)
include hbusy

theorem exec_intCont_busy :
    exec (.intCont c group) s = respond intAnswer (runIntCont params (contFlag c) group.toNat s) := by
  rw [exec, execIntCont, if_neg (by simp [hbusy])]

include h

theorem exec_intCont_more
    (hr : idecByte Config.intMax (contFlag c) group.toNat ⟨s.idVal, s.idI, s.pos⟩ = (r, .ok true)) :
    exec (.intCont c group) s = .next (latch (.ok .more) (storeByte s.idTag true r s)) := by
  rw [exec_intCont_busy hbusy, runIntCont, params, hr, command_ok h, respond_ok, intAnswer]

theorem exec_intCont_last
    (hr : idecByte Config.intMax (contFlag c) group.toNat ⟨s.idVal, s.idI, s.pos⟩ = (r, .ok false)) :
    exec (.intCont c group) s = .next (latch (.ok (.int (intResult s.idTag r))) (storeByte s.idTag false r s)) := by
  rw [exec_intCont_busy hbusy, runIntCont, params, hr, command_ok h, respond_ok, intAnswer]

theorem exec_intCont_fault {e : FaultRec}
    (hr : idecByte Config.intMax (contFlag c) group.toNat ⟨s.idVal, s.idI, s.pos⟩ = (r, .error e)) :
    exec (.intCont c group) s = .next (latch (.fault e) (takeFault e (storeByte s.idTag false r s))) := by
  rw [exec_intCont_busy hbusy, runIntCont, params, hr, command_error h, respond_error]

end

theorem idecByte_within {m group : Nat} {more : Bool} {r : IdRegs} (h : r.val + group * 2 ^ (7 * r.i) ≤ m) :
    idecByte m more group r = (⟨r.val + group * 2 ^ (7 * r.i), r.i + 1, r.pos + 1⟩, .ok more) :=
  if_neg (Nat.not_lt.2 h)

theorem idecByte_above {m group : Nat} {more : Bool} {r : IdRegs} (h : m < r.val + group * 2 ^ (7 * r.i)) :
    idecByte m more group r =
      (⟨r.val + group * 2 ^ (7 * r.i), r.i, r.pos + 1⟩,
        .error (integerOverflow r.pos m (r.val + group * 2 ^ (7 * r.i)))) :=
  if_pos h

/-- Settles O19: one turn of R95's loop on the working registers. -/
theorem intContinuationByteSteps : Obligations.IntContinuationByteSteps := by
  refine fun c group s hs => ⟨fun hbusy hval => ?within, fun hbusy habove => ?overflow, fun hidle => ?stray⟩
  case within =>
    have hbyte := idecByte_within (more := contFlag c) (r := ⟨s.idVal, s.idI, s.pos⟩) hval
    by_cases hc : c = 1#1
    · subst hc
      exact exec_intCont_more hs hbusy hbyte
    · have hlast : contFlag c = false := beq_false_of_ne hc
      rw [exec_intCont_last hs hbusy (hbyte.trans (by rw [hlast])), if_neg hc, decide_eq_false hc]
      rfl
  case overflow =>
    exact ⟨_, exec_intCont_fault hs hbusy (idecByte_above habove), faulted_frame ⟨rfl, rfl, rfl⟩ ⟨rfl, rfl, rfl, rfl⟩⟩
  case stray => rw [exec, execIntCont, if_pos ⟨hs, hidle⟩]

/-! ### The loop byte by byte -/

/-- The run that ends as IDEC does and leaves the registers at the cursor, where the next byte is read. -/
def byteRun (tag : Nat) (x : IdRegs × Except FaultRec Unit) (s : State) : Run IntResult :=
  (storeByte tag false x.1 s, (idecRun s.inp tag x s).2)

theorem respond_byteRun_ok {s : State} (h : s.flt = .noFault) (tag : Nat) (r : IdRegs) :
    respond .int (command s (byteRun tag (r, .ok ()) s)) =
      .next (latch (.ok (.int (intResult tag r))) (storeByte tag false r s)) := by
  rw [byteRun, idecRun, command_ok h, respond_ok]

theorem respond_byteRun_error {s : State} (h : s.flt = .noFault) (tag : Nat) (r : IdRegs) (e : FaultRec) :
    respond .int (command s (byteRun tag (r, .error e) s)) =
      .next (latch (.fault e) (takeFault e (storeByte tag false r s))) := by
  rw [byteRun, idecRun, command_error h, respond_error]

/-- A run that stores all it has read ends the same whatever the byte before has stored and answered. -/
theorem respond_byteRun_after_byte {s : State} (h : s.flt = .noFault) (a : Response) (tag : Nat) (r : IdRegs)
    (x : IdRegs × Except FaultRec Unit) :
    respond .int (command (latch a (storeByte tag true r s)) (byteRun tag x (latch a (storeByte tag true r s)))) =
      respond .int (command s (byteRun tag x s)) := by
  have hu : (latch a (storeByte tag true r s)).flt = .noFault := h
  obtain ⟨r', e | ⟨⟩⟩ := x
  · rw [respond_byteRun_error hu, respond_byteRun_error h]
    rfl
  · rw [respond_byteRun_ok hu, respond_byteRun_ok h]
    rfl

/-- Continuation bytes executed one at a time go through R95's loop, unless it comes to the end of the input. -/
theorem contBytes_eq_idecLoop {l : Bytes} {s : State} (hs : s.flt = .noFault) (hbusy : s.idBusy = true)
    (hall : ∀ e, (idecLoop Config.intMax l ⟨s.idVal, s.idI, s.pos⟩).2 = .error e → e.code ≠ .truncated) :
    contBytes l s =
      respond .int (command s (byteRun s.idTag (idecLoop Config.intMax l ⟨s.idVal, s.idI, s.pos⟩) s)) := by
  induction l generalizing s with
  | nil => exact absurd rfl (hall _ rfl)
  | cons c l ih =>
    rw [contBytes, decodeWire]
    rw [idecLoop] at hall ⊢
    rcases hr : idecByte Config.intMax (contFlag (c.extractLsb' 7 1)) (c.extractLsb' 0 7).toNat
      ⟨s.idVal, s.idI, s.pos⟩ with ⟨r, e | _ | _⟩
    · rw [exec_intCont_fault hs hbusy hr, respond_byteRun_error hs]
      rfl
    · rw [exec_intCont_last hs hbusy hr, respond_byteRun_ok hs]
      rfl
    · rw [hr] at hall
      rw [exec_intCont_more hs hbusy hr]
      exact (ih (s := latch (.ok .more) (storeByte s.idTag true r s)) hs rfl hall).trans
        (respond_byteRun_after_byte hs _ _ _ _)

/-! ### The first byte -/

/-- The fields a first byte is cut into are the prefix and the tag IDEC finds in it (R61, R95). -/
theorem runIntFirst_fields {m n : Nat} (b : BitVec (m + n)) (s : State) :
    runIntFirst n ((b.extractLsb' n m).toNat * 2 ^ n) (b.extractLsb' 0 n).toNat s =
      runIntFirst n (b.toNat - b.toNat % 2 ^ n) (b.toNat % 2 ^ n) s := by
  have hlow : (b.extractLsb' 0 n).toNat = b.toNat % 2 ^ n := by simp
  have hjoin := toNat_fields (b.extractLsb' n m) (b.extractLsb' 0 n)
  rw [join_fields, hlow] at hjoin
  rw [hlow, Nat.eq_sub_of_add_eq hjoin.symm]

theorem exec_intFirst {n : Nat} (h4 : 4 ≤ n) (h7 : n ≤ 7) (b : Byte) (s : State) :
    exec (decodeWire (intFormat n) b) s = respond intAnswer (runIntFirst n (tagOf n b) (b.toNat % 2 ^ n) s) := by
  obtain rfl | rfl | rfl | rfl : n = 4 ∨ n = 5 ∨ n = 6 ∨ n = 7 := by omega
  · exact congrArg (respond intAnswer) (runIntFirst_fields (m := 4) (n := 4) b s)
  · exact congrArg (respond intAnswer) (runIntFirst_fields (m := 3) (n := 5) b s)
  · exact congrArg (respond intAnswer) (runIntFirst_fields (m := 2) (n := 6) b s)
  · exact congrArg (respond intAnswer) (runIntFirst_fields (m := 1) (n := 7) b s)

section
variable {n : Nat} {b : Byte} {s : State} (h : s.flt = .noFault) (h4 : 4 ≤ n) (h7 : n ≤ 7)
include h h4 h7

theorem exec_intFirst_below (hpfx : b.toNat % 2 ^ n < 2 ^ n - 1) :
    exec (decodeWire (intFormat n) b) s =
      .next (latch (.ok (.int (intResult (tagOf n b) (idecFirst s.pos (b.toNat % 2 ^ n)))))
        (storeByte (tagOf n b) false (idecFirst s.pos (b.toNat % 2 ^ n)) s)) := by
  rw [exec_intFirst h4 h7, respond_runIntFirst h (by omega), if_neg hpfx.ne, decide_eq_false hpfx.ne]
  rfl

theorem exec_intFirst_allOnes (hones : b.toNat % 2 ^ n = 2 ^ n - 1) :
    exec (decodeWire (intFormat n) b) s =
      .next (latch (.ok .more) (storeByte (tagOf n b) true (idecFirst s.pos (2 ^ n - 1)) s)) := by
  have hpow : 0 < 2 ^ n := Nat.two_pow_pos n
  rw [exec_intFirst h4 h7, hones, respond_runIntFirst h (by omega), if_pos rfl, decide_eq_true rfl]
  rfl

end

/-- IDEC and the run of the bytes one by one end alike. -/
theorem byteRun_ends_as_idecRun {s t : State} (hs : s.flt = .noFault) {inp : Bytes} {tag : Nat}
    {x : IdRegs × Except FaultRec Unit} (ht : respond .int (command s (idecRun inp tag x s)) = .next t) :
    ∃ v, respond .int (command s (byteRun tag x s)) = .next v ∧ v.resp = t.resp ∧ SameArch t v ∧ v.pos = t.pos := by
  obtain ⟨r, e | ⟨⟩⟩ := x
  · rw [idecRun, command_error hs, respond_error] at ht
    cases ht
    exact ⟨_, respond_byteRun_error hs tag r e, rfl, ⟨⟨rfl, rfl, rfl⟩, rfl, rfl⟩, rfl⟩
  · rw [idecRun, command_ok hs, respond_ok] at ht
    cases ht
    exact ⟨_, respond_byteRun_ok hs tag r, rfl, ⟨⟨rfl, rfl, rfl⟩, rfl, rfl⟩, rfl⟩

/-- An IDEC that leaves no `Truncated` has not come to one. -/
theorem idecRun_not_truncated {s t : State} (hs : s.flt = .noFault) {inp : Bytes} {tag : Nat}
    {x : IdRegs × Except FaultRec Unit} (ht : respond .int (command s (idecRun inp tag x s)) = .next t)
    (hflt : t.flt ≠ .truncated) (e : FaultRec) (he : x.2 = .error e) : e.code ≠ .truncated := by
  obtain ⟨r, _⟩ := x
  subst he
  rw [idecRun, command_error hs, respond_error] at ht
  cases ht
  exact hflt

/-- Settles O20: the first byte leaves the registers IDEC's loop starts from, and the continuation bytes go through that
loop (`contBytes_eq_idecLoop`). -/
theorem integerBytesMakeUpIdec : Obligations.IntegerBytesMakeUpIdec := by
  intro pre rest b n s t hs h4 h7 _ hpos ht hflt
  rw [exec_idec_byte h4 h7 (b := b) (by simp)] at ht
  have hall := idecRun_not_truncated hs ht hflt
  obtain ⟨v, hv, hend⟩ := byteRun_ends_as_idecRun hs ht
  have hle : b.toNat % 2 ^ n ≤ 2 ^ n - 1 := Nat.le_pred_of_lt (Nat.mod_lt _ (Nat.two_pow_pos n))
  obtain hpfx | hones := hle.lt_or_eq
  · rw [idecFrom_below hpfx, ← hpos, respond_byteRun_ok hs] at hv
    cases hv
    exact ⟨_, _, exec_intFirst_below hs h4 h7 hpfx, rfl, hend⟩
  · rw [idecFrom_allOnes hones, ← hpos] at hall hv
    refine ⟨_, v, exec_intFirst_allOnes hs h4 h7 hones, ?_, hend⟩
    rw [← hv, ← respond_byteRun_after_byte hs (.ok .more) (tagOf n b) (idecFirst s.pos (2 ^ n - 1))]
    exact contBytes_eq_idecLoop (s := latch _ (storeByte _ true _ s)) hs rfl hall

end Sys2Proof.Machine
end

section
/-! PROOFS. HENC (41_huffman_codec.md R111 to R118): the accumulator procedure buffers and emits the codes' bits in
order (R117), and the length of what it emits. -/

namespace Sys2Proof.Machine

/-! ### The bits of a code in parts -/

/-- The high bits of a code, then its low bits. -/
theorem codeBits_add (code a b : Nat) : codeBits code (a + b) = codeBits (code / 2 ^ b) a ++ codeBits code b := by
  simp only [codeBits, List.range_add, List.map_append, List.map_map]
  congr 1
  · refine List.map_congr_left fun i hi => ?_
    have hlt := List.mem_range.1 hi
    rw [Nat.testBit_div_two_pow]
    congr 1
    omega
  · refine List.map_congr_left fun i _ => ?_
    simp only [Function.comp_apply]
    congr 1
    omega

theorem codeBits_mod {k len : Nat} (h : len ≤ k) (code : Nat) : codeBits (code % 2 ^ k) len = codeBits code len := by
  refine List.map_congr_left fun i hi => ?_
  have hlt := List.mem_range.1 hi
  rw [Nat.testBit_mod_two_pow, decide_eq_true (by omega), Bool.true_and]

/-- Shifting bits in below a number sets them after its bits (R113). -/
theorem codeBits_shiftIn {bits k : Nat} (h : bits < 2 ^ k) (acc cnt : Nat) :
    codeBits (acc * 2 ^ k + bits) (cnt + k) = codeBits acc cnt ++ codeBits bits k := by
  rw [codeBits_add, ← codeBits_mod (Nat.le_refl k), Nat.add_comm, Nat.add_mul_div_right _ _ (Nat.two_pow_pos k),
    Nat.div_eq_of_lt h, Nat.zero_add, Nat.add_mul_mod_self_right, codeBits_mod (Nat.le_refl k)]

theorem codeBits_ones (k : Nat) : codeBits (2 ^ k - 1) k = List.replicate k true := by
  refine List.eq_replicate_iff.2 ⟨codeBits_length _ _, fun b hb => ?_⟩
  obtain ⟨i, hi, rfl⟩ := List.mem_map.1 hb
  have hlt := List.mem_range.1 hi
  rw [Nat.testBit_two_pow_sub_one, decide_eq_true (by omega)]

theorem byteBits_eq_codeBits (b : Byte) : byteBits b = codeBits b.toNat 8 := rfl

theorem byteBits_ofNat (x : Nat) : byteBits (BitVec.ofNat 8 x) = codeBits x 8 := by
  rw [byteBits_eq_codeBits, BitVec.toNat_ofNat, codeBits_mod (Nat.le_refl 8)]

theorem hencBits_cons (p : Params) (b : Byte) (str : Bytes) :
    hencBits p (b :: str) = codeBits (hcode p b.toNat) (hlen p b.toNat) ++ hencBits p str := rfl

/-! ### The accumulator procedure -/

/-- The bits HENC has taken so far: those emitted, then those still buffered (R112). -/
def HeRegs.bits (r : HeRegs) : List Bool := bitStream r.out ++ codeBits r.acc.toNat r.cnt

/-- A byte emitted is the eight oldest buffered bits. -/
theorem heEmit_bits {r : HeRegs} (h : 8 ≤ r.cnt) :
    HeRegs.bits { r with cnt := r.cnt - 8, out := r.out ++ [(r.acc >>> (r.cnt - 8)).setWidth 8] } = r.bits := by
  have hbyte : byteBits ((r.acc >>> (r.cnt - 8)).setWidth 8) = codeBits (r.acc.toNat / 2 ^ (r.cnt - 8)) 8 := by
    rw [byteBits_eq_codeBits, BitVec.toNat_setWidth, codeBits_mod (Nat.le_refl 8), BitVec.toNat_ushiftRight,
      Nat.shiftRight_eq_div_pow]
  have hsplit := codeBits_add r.acc.toNat 8 (r.cnt - 8)
  rw [Nat.add_sub_cancel' h] at hsplit
  simp [HeRegs.bits, hbyte, hsplit]

theorem heDrainLoop_bits (fuel : Nat) (r : HeRegs) : (heDrainLoop fuel r).bits = r.bits := by
  induction fuel generalizing r with
  | zero => rfl
  | succ fuel ih =>
    rw [heDrainLoop]
    split
    · rw [ih, heEmit_bits ‹_›]
    · rfl

theorem heDrainLoop_cnt {fuel : Nat} {r : HeRegs} (h : r.cnt ≤ fuel) : (heDrainLoop fuel r).cnt < 8 := by
  induction fuel generalizing r with
  | zero => rw [heDrainLoop]; omega
  | succ fuel ih =>
    rw [heDrainLoop]
    split
    · exact ih (by simp only; omega)
    · omega

theorem heDrain_cnt (r : HeRegs) : (heDrain r).cnt < 8 := heDrainLoop_cnt (Nat.le_refl r.cnt)

/-- Clearing the bits already emitted keeps the buffered ones (R114). -/
theorem heDrain_bits (r : HeRegs) : (heDrain r).bits = r.bits := by
  have hcnt := heDrain_cnt r
  rw [← heDrainLoop_bits r.cnt r]
  simp only [HeRegs.bits, heDrain, BitVec.toNat_ofNat] at hcnt ⊢
  rw [codeBits_mod (by omega), codeBits_mod (Nat.le_refl _)]

theorem heShiftIn_cnt (bits k : Nat) (r : HeRegs) : (heShiftIn bits k r).cnt < 8 := heDrain_cnt _

/-- The accumulator holds 32 bits, so at most 24 more are taken while fewer than eight are buffered (R113). -/
theorem heShiftIn_bits {bits k : Nat} {r : HeRegs} (hcnt : r.cnt < 8) (hk : k ≤ 24) (hbits : bits < 2 ^ k) :
    (heShiftIn bits k r).bits = r.bits ++ codeBits bits k := by
  rw [heShiftIn, heDrain_bits]
  simp only [HeRegs.bits, BitVec.toNat_ofNat]
  rw [codeBits_mod (by omega), codeBits_shiftIn hbits, List.append_assoc]

/-- The byte symbols' codes have 5 to 30 bits (R139) and are not all ones, as only the end marker's is (R143). -/
def CodesFit (p : Params) : Prop := ∀ s < 256, 5 ≤ hlen p s ∧ hlen p s ≤ 30 ∧ hcode p s < 2 ^ hlen p s - 1

theorem heByte_cnt (p : Params) (r : HeRegs) (b : Byte) : (heByte p r b).cnt < 8 := by
  unfold heByte
  dsimp only
  split <;> exact heShiftIn_cnt _ _ _

/-- A code longer than 24 bits goes in by its high bits, then its low 24 (R115). -/
theorem heByte_bits {p : Params} (hp : CodesFit p) {r : HeRegs} (hcnt : r.cnt < 8) (b : Byte) :
    (heByte p r b).bits = r.bits ++ codeBits (hcode p b.toNat) (hlen p b.toNat) := by
  obtain ⟨-, hlong, hones⟩ := hp b.toNat b.isLt
  have hfits : hcode p b.toNat < 2 ^ hlen p b.toNat := hones.trans_le (Nat.sub_le _ _)
  unfold heByte
  dsimp only
  split
  · have hhigh : hcode p b.toNat / 2 ^ 24 < 2 ^ (hlen p b.toNat - 24) := by
      rw [Nat.div_lt_iff_lt_mul (by decide), ← Nat.pow_add, Nat.sub_add_cancel (by omega)]
      exact hfits
    have hsplit := codeBits_add (hcode p b.toNat) (hlen p b.toNat - 24) 24
    rw [Nat.sub_add_cancel (by omega)] at hsplit
    rw [heShiftIn_bits (heShiftIn_cnt _ _ _) (by omega) (Nat.mod_lt _ (by decide)),
      heShiftIn_bits hcnt (by omega) hhigh, codeBits_mod (Nat.le_refl 24), List.append_assoc, hsplit]
  · exact heShiftIn_bits hcnt (by omega) hfits

theorem heBytes_cnt (p : Params) (str : Bytes) {r : HeRegs} (hcnt : r.cnt < 8) :
    (str.foldl (heByte p) r).cnt < 8 := by
  induction str generalizing r with
  | nil => exact hcnt
  | cons b str ih => exact ih (heByte_cnt p r b)

theorem heBytes_bits {p : Params} (hp : CodesFit p) (str : Bytes) {r : HeRegs} (hcnt : r.cnt < 8) :
    (str.foldl (heByte p) r).bits = r.bits ++ hencBits p str := by
  induction str generalizing r with
  | nil => simp [hencBits]
  | cons b str ih => simp [ih (heByte_cnt p r b), heByte_bits hp hcnt, hencBits_cons]

/-- The bits left over are padded with ones to a whole byte (R116). -/
theorem bitStream_heEnd {r : HeRegs} (hcnt : r.cnt < 8) :
    bitStream (heEnd r).out = r.bits ++ List.replicate ((8 - r.bits.length % 8) % 8) true := by
  have hlen : r.bits.length % 8 = r.cnt := by
    rw [HeRegs.bits, List.length_append, bitStream_length, codeBits_length]
    omega
  rw [hlen, heEnd]
  split
  · have hpad := codeBits_shiftIn (Nat.sub_one_lt_of_lt (Nat.two_pow_pos (8 - r.cnt))) r.acc.toNat r.cnt
    rw [Nat.add_sub_cancel' hcnt.le, codeBits_ones] at hpad
    have hk : (8 - r.cnt) % 8 = 8 - r.cnt := by omega
    simp [HeRegs.bits, byteBits_ofNat, hpad, hk]
  · have hzero : r.cnt = 0 := by omega
    simp [HeRegs.bits, hzero, codeBits]

/-- R117: the accumulator procedure emits the definition's bytes. -/
theorem hencProc_out {p : Params} (hp : CodesFit p) (str : Bytes) : (hencProc p str).out = hencDef p str := by
  have hstart : (⟨0, 0, []⟩ : HeRegs).cnt < 8 := by decide
  have hbits : (str.foldl (heByte p) ⟨0, 0, []⟩).bits = hencBits p str := heBytes_bits hp str hstart
  rw [← packBits_bitStream (hencProc p str).out, hencProc, bitStream_heEnd (heBytes_cnt p str hstart), hbits, hencDef]

/-! ### The definition's bits and their number -/

theorem bitStream_hencDef (p : Params) (str : Bytes) :
    bitStream (hencDef p str) =
      hencBits p str ++ List.replicate ((8 - (hencBits p str).length % 8) % 8) true := by
  refine bitStream_packBits _ ?_
  rw [List.length_append, List.length_replicate]
  omega

theorem hencBits_length (p : Params) (str : Bytes) :
    (hencBits p str).length = (str.map fun b => hlen p b.toNat).sum := by
  simp [hencBits, List.length_flatMap]

theorem hencBits_length_bounds {p : Params} (hp : CodesFit p) (str : Bytes) :
    5 * str.length ≤ (hencBits p str).length ∧ (hencBits p str).length ≤ 30 * str.length := by
  induction str with
  | nil => exact ⟨Nat.le_refl _, Nat.le_refl _⟩
  | cons b str ih =>
    obtain ⟨hlow, hhigh⟩ := ih
    obtain ⟨hshort, hlong, -⟩ := hp b.toNat b.isLt
    rw [hencBits_cons, List.length_append, codeBits_length, List.length_cons]
    omega

theorem hencDef_length (p : Params) (str : Bytes) :
    (hencDef p str).length = ((str.map fun b => hlen p b.toNat).sum + 7) / 8 := by
  have h := congrArg List.length (bitStream_hencDef p str)
  rw [bitStream_length, List.length_append, List.length_replicate, hencBits_length] at h
  omega

/-! ### The command HENC -/

theorem codesFit_params : CodesFit params := by
  unfold CodesFit; decide +kernel

theorem exec_henc {s : State} (h : s.flt = .noFault) (str : Bytes) :
    exec (.henc str) s =
      .next (latch (.ok (.bytes (hencDef params str))) (storeHenc (hencProc params str) s)) := by
  rw [exec, execHenc, runHenc, command_ok h, respond_ok, hencProc_out codesFit_params]

/-- Settles O23: the procedure's bits are the codes' bits at every byte (`heByte_bits`), padded at the end
(`bitStream_heEnd`). -/
theorem hencDeliversTheDefinition : Obligations.HencDeliversTheDefinition :=
  fun str _ hs => ⟨_, _, exec_henc hs str⟩

/-- Settles O24: the codes' bits padded to whole bytes (`hencDef_length`), each code of 5 to 30 bits (R139). -/
theorem hencOutputLength : Obligations.HencOutputLength := by
  refine fun str s hs => ⟨_, _, exec_henc hs str, rfl, hencDef_length params str, ?_⟩
  have hbounds := hencBits_length_bounds codesFit_params str
  rw [hencBits_length] at hbounds
  rw [hencDef_length]
  omega

end Sys2Proof.Machine
end

section
/-! PROOFS. The decode table (42_huffman_table.md R142): its rows tile the 32-bit candidates below the end marker's, so
the predecessor search finds the one symbol whose code the candidate begins with (41_huffman_codec.md R119, R124). -/

namespace Sys2Proof.Machine

/-! ### The candidates a row covers -/

/-- The least candidate above those that begin with a row's code. -/
def rowStop (row : DecRow) : Nat := row.aligned + 2 ^ (32 - row.len)

/-- The candidate begins with the row's code (`covers_iff`). -/
def Covers (row : DecRow) (cand : Nat) : Prop := row.aligned ≤ cand ∧ cand < rowStop row

/-- The rows cover `[start, stop)`, each from where the one before stops (R143 (3)). -/
def tiles (stop : Nat) : (start : Nat) → List DecRow → Bool
  | start, [] => start == stop
  | start, row :: rows => row.aligned == start && tiles stop (rowStop row) rows

theorem tiles_cons {stop start : Nat} {row : DecRow} {rows : List DecRow} :
    tiles stop start (row :: rows) = true ↔ row.aligned = start ∧ tiles stop (rowStop row) rows = true := by
  simp [tiles]

theorem aligned_lt_stop (row : DecRow) : row.aligned < rowStop row :=
  Nat.lt_add_of_pos_right (Nat.two_pow_pos _)

section
variable {stop start : Nat} {rows : List DecRow} (h : tiles stop start rows = true)
include h

theorem start_le_aligned_of_tiles : ∀ row ∈ rows, start ≤ row.aligned := by
  induction rows generalizing start with
  | nil => simp
  | cons row rows ih =>
    obtain ⟨rfl, hrows⟩ := tiles_cons.1 h
    exact List.forall_mem_cons.2 ⟨Nat.le_refl _, fun x hx => (aligned_lt_stop row).le.trans (ih hrows x hx)⟩

theorem pairwise_of_tiles : rows.Pairwise fun a b => rowStop a ≤ b.aligned := by
  induction rows generalizing start with
  | nil => exact .nil
  | cons row rows ih =>
    obtain ⟨rfl, hrows⟩ := tiles_cons.1 h
    exact .cons (start_le_aligned_of_tiles hrows) (ih hrows)

theorem exists_covers_of_tiles {cand : Nat} (hstart : start ≤ cand) (hstop : cand < stop) :
    ∃ row ∈ rows, Covers row cand := by
  induction rows generalizing start with
  | nil =>
    obtain rfl : start = stop := by simpa [tiles] using h
    omega
  | cons row rows ih =>
    obtain ⟨rfl, hrows⟩ := tiles_cons.1 h
    by_cases hcand : cand < rowStop row
    · exact ⟨row, List.mem_cons_self, hstart, hcand⟩
    · obtain ⟨x, hx, hcovers⟩ := ih hrows (Nat.not_lt.1 hcand)
      exact ⟨x, List.mem_cons_of_mem _ hx, hcovers⟩

end

/-! ### The predecessor search -/

/-- The search stops at the covering row where the candidate is its code, else at the row after it (R124). -/
theorem findIdx_of_covers {pre post : List DecRow} {row : DecRow} {cand : Nat}
    (hpre : ∀ x ∈ pre, x.aligned < cand) (hpost : ∀ x ∈ post, cand < x.aligned) :
    ((pre ++ row :: post).findIdx fun x => cand ≤ x.aligned) =
      if cand ≤ row.aligned then pre.length else pre.length + 1 := by
  have hnone : pre.findIdx (fun x => cand ≤ x.aligned) = pre.length :=
    List.findIdx_eq_length.2 fun x hx => by simpa using hpre x hx
  have hnext : post.findIdx (fun x => cand ≤ x.aligned) = 0 := by
    cases post with
    | nil => rfl
    | cons x post => simp [List.findIdx_cons, (hpost x List.mem_cons_self).le]
  rw [List.findIdx_append, hnone, if_neg (Nat.lt_irrefl _), List.findIdx_cons, hnext]
  by_cases hcode : cand ≤ row.aligned <;> simp [hcode, Nat.add_comm]

/-- Where the search has gone one row too far, the lookup steps back to the covering row (R124). -/
theorem hdLookup_of_covers {p : Params} {row : DecRow} {cand : Nat}
    (hrows : p.hdecRom.Pairwise fun a b => rowStop a ≤ b.aligned) (hrow : row ∈ p.hdecRom) (hcand : Covers row cand) :
    hdLookup p cand = row := by
  obtain ⟨pre, post, hsplit⟩ := List.append_of_mem hrow
  obtain ⟨hle, hlt⟩ := hcand
  rw [hsplit, List.pairwise_append, List.pairwise_cons] at hrows
  obtain ⟨-, ⟨hafter, -⟩, hbefore⟩ := hrows
  have hpre : ∀ x ∈ pre, x.aligned < cand := fun x hx =>
    calc x.aligned < rowStop x := aligned_lt_stop x
      _ ≤ row.aligned := hbefore x hx row List.mem_cons_self
      _ ≤ cand := hle
  have hpost : ∀ x ∈ post, cand < x.aligned := fun x hx => hlt.trans_le (hafter x hx)
  unfold hdLookup
  rw [hsplit, findIdx_of_covers hpre hpost]
  by_cases hcode : cand ≤ row.aligned
  · simp [hcode, hle]
  · cases post with
    | nil => simp [hcode]
    | cons x post => simp [hcode, hpost x]

/-! ### The symbol of a candidate -/

/-- The two tables describe one code: the decode table's rows tile the candidates below thirty ones, and are the byte
symbols' codes left-justified (R142, R143). -/
structure CodeTables (p : Params) : Prop where
  fit : CodesFit p
  tiled : tiles (2 ^ 32 - 4) 0 p.hdecRom = true
  rows : ∀ row ∈ p.hdecRom, row.symbol < 256 ∧ row.len = hlen p row.symbol ∧
    row.aligned = hcode p row.symbol * 2 ^ (32 - row.len)
  symbols : ∀ s < 256, ∃ row ∈ p.hdecRom, row.symbol = s

theorem codeTables_params : CodeTables params where
  fit := codesFit_params
  tiled := by decide +kernel
  rows := by decide +kernel
  symbols := by decide +kernel

/-- A candidate of `n` bits begins with the symbol's code. -/
def StartsWithCode (p : Params) (n cand s : Nat) : Prop := hcode p s = cand / 2 ^ (n - hlen p s)

section
variable {p : Params} (h : CodeTables p)
include h

theorem covers_iff {row : DecRow} (hrow : row ∈ p.hdecRom) {cand : Nat} :
    Covers row cand ↔ StartsWithCode p 32 cand row.symbol := by
  obtain ⟨-, hbits, haligned⟩ := h.rows row hrow
  rw [Covers, rowStop, StartsWithCode, haligned, hbits, eq_comm, Nat.div_eq_iff (Nat.two_pow_pos _)]
  have := Nat.two_pow_pos (32 - hlen p row.symbol)
  omega

/-- The low two bits of the 32-bit candidate are below every code. -/
theorem startsWithCode_div_four {cand s : Nat} (hs : s < 256) :
    StartsWithCode p 30 (cand / 4) s ↔ StartsWithCode p 32 cand s := by
  obtain ⟨-, hlong, -⟩ := h.fit s hs
  have hpow : 2 ^ (32 - hlen p s) = 4 * 2 ^ (30 - hlen p s) := by
    rw [show 32 - hlen p s = 2 + (30 - hlen p s) by omega, Nat.pow_add]
  rw [StartsWithCode, StartsWithCode, hpow, Nat.div_div_eq_div_mul]

/-- R124: the predecessor search finds a symbol whose code the candidate begins with. -/
theorem hdLookup_spec {cand : Nat} (hcand : cand / 4 < 2 ^ 30 - 1) :
    (hdLookup p cand).symbol < 256 ∧ StartsWithCode p 32 cand (hdLookup p cand).symbol := by
  obtain ⟨row, hrow, hcovers⟩ := exists_covers_of_tiles h.tiled (Nat.zero_le cand) (by omega)
  obtain ⟨hsymbol, -, -⟩ := h.rows row hrow
  rw [hdLookup_of_covers (pairwise_of_tiles h.tiled) hrow hcovers]
  exact ⟨hsymbol, (covers_iff h hrow).1 hcovers⟩

/-- R143: no candidate begins with two symbols' codes. -/
theorem startsWithCode_unique {cand a b : Nat} (ha : a < 256) (hb : b < 256) (hca : StartsWithCode p 32 cand a)
    (hcb : StartsWithCode p 32 cand b) : a = b := by
  obtain ⟨row, hrow, rfl⟩ := h.symbols a ha
  obtain ⟨row', hrow', rfl⟩ := h.symbols b hb
  have hpairs := pairwise_of_tiles h.tiled
  rw [← hdLookup_of_covers hpairs hrow ((covers_iff h hrow).2 hca),
    ← hdLookup_of_covers hpairs hrow' ((covers_iff h hrow').2 hcb)]

/-- R119: the definition's symbol is the one whose code the candidate begins with. -/
theorem symbolOf_of_startsWithCode {cand s : Nat} (hs : s < 256) (hstarts : StartsWithCode p 30 cand s) :
    symbolOf p cand = some s := by
  have hsome : (symbolOf p cand).isSome := List.find?_isSome.2 ⟨s, List.mem_range.2 hs, beq_iff_eq.2 hstarts⟩
  obtain ⟨a, ha⟩ := Option.isSome_iff_exists.1 hsome
  have hlt : a < 256 := List.mem_range.1 (List.mem_of_find?_eq_some ha)
  have hcand : cand = 4 * cand / 4 := by omega
  have hstartsA : StartsWithCode p 30 cand a := by simpa [StartsWithCode] using List.find?_some ha
  rw [hcand, startsWithCode_div_four h hlt] at hstartsA
  rw [hcand, startsWithCode_div_four h hs] at hstarts
  rw [ha, startsWithCode_unique h hlt hs hstartsA hstarts]

/-- R143: every candidate but thirty ones has a symbol. -/
theorem exists_symbolOf {cand : Nat} (hcand : cand < 2 ^ 30 - 1) : ∃ s < 256, symbolOf p cand = some s := by
  have hfour : 4 * cand / 4 = cand := by omega
  obtain ⟨hs, hstarts⟩ := hdLookup_spec h (cand := 4 * cand) (by omega)
  rw [← startsWithCode_div_four h hs, hfour] at hstarts
  exact ⟨_, hs, symbolOf_of_startsWithCode h hs hstarts⟩

/-- R143 (4): thirty ones are no byte symbol's code. -/
theorem not_ones_of_startsWithCode {cand s : Nat} (hs : s < 256) (hstarts : StartsWithCode p 30 cand s) :
    cand ≠ 2 ^ 30 - 1 := by
  rintro rfl
  obtain ⟨-, hlong, hones⟩ := h.fit s hs
  have hlow : 0 < 2 ^ (30 - hlen p s) := Nat.two_pow_pos _
  have hbelow : 2 ^ 30 - 1 < 2 ^ (30 - hlen p s) * (hcode p s + 1) := by
    rw [hstarts]
    exact Nat.lt_mul_div_succ _ hlow
  have hnext : 2 ^ (30 - hlen p s) * (hcode p s + 1) ≤ 2 ^ 30 - 2 ^ (30 - hlen p s) :=
    calc 2 ^ (30 - hlen p s) * (hcode p s + 1) ≤ 2 ^ (30 - hlen p s) * (2 ^ hlen p s - 1) :=
          Nat.mul_le_mul_left _ hones
      _ = 2 ^ 30 - 2 ^ (30 - hlen p s) := by
        rw [Nat.mul_sub, ← Nat.pow_add, Nat.sub_add_cancel hlong, Nat.mul_one]
  omega

end

end Sys2Proof.Machine
end

section
/-! PROOFS. HDEC (41_huffman_codec.md R119 to R131): its window holds the stream's bits from the definition's bit
position on, turn by turn, so the procedure and the definition end alike (R129). -/

namespace Sys2Proof.Machine

/-! ### The padded stream -/

/-- The `n` bits of the stream from position `q` on, one-bits past the end of the input (R119, R121). -/
def segment (bits : List Bool) (q n : Nat) : List Bool := (List.range n).map fun i => bits.getD (q + i) true

@[simp] theorem segment_length (bits : List Bool) (q n : Nat) : (segment bits q n).length = n := by simp [segment]

theorem segment_add (bits : List Bool) (q m n : Nat) :
    segment bits q (m + n) = segment bits q m ++ segment bits (q + m) n := by
  simp [segment, List.range_add, Nat.add_assoc]

theorem take_padded_eq_segment (bits : List Bool) (q n : Nat) :
    (bits.drop q ++ List.replicate n true).take n = segment bits q n := by
  refine List.ext_getElem (by simp) fun i hi _ => ?_
  by_cases hin : q + i < bits.length
  · simp [segment, hin, show i < bits.length - q by omega]
  · simp [segment, List.getElem_append, hin, show ¬ i < bits.length - q by omega]

theorem candidate_eq_segment (bits : List Bool) (q : Nat) : candidate bits q = bitsToNat (segment bits q 30) :=
  congrArg bitsToNat (take_padded_eq_segment bits q 30)

theorem candidate_lt (bits : List Bool) (q : Nat) : candidate bits q < 2 ^ 30 := by
  rw [candidate_eq_segment]
  simpa only [segment_length] using bitsToNat_lt (segment bits q 30)

theorem segment_append_right (a b : List Bool) (q n : Nat) : segment (a ++ b) (a.length + q) n = segment b q n := by
  simp [segment, List.getElem?_append, Nat.add_assoc]

/-- The byte the refill pulls is the stream's next eight bits, 0xFF past the end of the input (R121). -/
theorem byteBits_getD (inp : Bytes) (j : Nat) :
    byteBits (inp.getD j 0xFF) = segment (bitStream inp) (8 * j) 8 := by
  induction inp generalizing j with
  | nil => simp [segment, List.range_succ]; rfl
  | cons b inp ih =>
    cases j with
    | zero => simp [segment, List.range_succ, byteBits]
    | succ j =>
      rw [Nat.mul_succ, Nat.add_comm (8 * j), bitStream_cons]
      exact (ih j).trans (segment_append_right (byteBits b) (bitStream inp) (8 * j) 8).symm

theorem bitsToNat_byteBits_eq_toNat (b : Byte) : bitsToNat (byteBits b) = b.toNat := bitsToNat_codeBits b.isLt

theorem bitsToNat_append_div (a : List Bool) {b : List Bool} {n : Nat} (h : b.length = n) :
    bitsToNat (a ++ b) / 2 ^ n = bitsToNat a := by
  subst h
  rw [bitsToNat_append, Nat.add_comm, Nat.add_mul_div_right _ _ (Nat.two_pow_pos _),
    Nat.div_eq_of_lt (bitsToNat_lt b), Nat.zero_add]

/-! ### Bits left-justified in 64 -/

/-- The 64-bit number whose high bits are given, with zeros below (R22). -/
def justified (l : List Bool) : Nat := bitsToNat l * 2 ^ (64 - l.length)

theorem justified_lt {l : List Bool} (h : l.length ≤ 64) : justified l < 2 ^ 64 :=
  calc bitsToNat l * 2 ^ (64 - l.length) < 2 ^ l.length * 2 ^ (64 - l.length) :=
        Nat.mul_lt_mul_of_pos_right (bitsToNat_lt l) (Nat.two_pow_pos _)
    _ = 2 ^ 64 := by rw [← Nat.pow_add, Nat.add_sub_cancel' h]

theorem justified_append {a b : List Bool} (h : a.length + b.length ≤ 64) :
    justified (a ++ b) = justified a + bitsToNat b * 2 ^ (64 - (a.length + b.length)) := by
  have hpow : 2 ^ (64 - a.length) = 2 ^ b.length * 2 ^ (64 - (a.length + b.length)) := by
    rw [← Nat.pow_add]
    congr 1
    omega
  rw [justified, justified, bitsToNat_append, List.length_append, Nat.add_mul, hpow, Nat.mul_assoc]

/-- The first bits shifted out, the rest are left-justified. -/
theorem justified_shiftLeft {a b : List Bool} (h : a.length + b.length ≤ 64) :
    justified (a ++ b) * 2 ^ a.length % 2 ^ 64 = justified b := by
  have hall : 2 ^ (64 - a.length) * 2 ^ a.length = 2 ^ 64 := by rw [← Nat.pow_add, Nat.sub_add_cancel (by omega)]
  have hrest : 2 ^ (64 - (a.length + b.length)) * 2 ^ a.length = 2 ^ (64 - b.length) := by
    rw [← Nat.pow_add]
    congr 1
    omega
  rw [justified_append h, Nat.add_mul, justified, Nat.mul_assoc, hall, Nat.mul_assoc, hrest, Nat.add_comm,
    Nat.add_mul_mod_self_right]
  exact Nat.mod_eq_of_lt (justified_lt (by omega))

/-- The first bits are what is left when the others are shifted out. -/
theorem justified_div {a b : List Bool} (h : a.length + b.length ≤ 64) :
    justified (a ++ b) / 2 ^ (64 - a.length) = bitsToNat a := by
  have hpow : 2 ^ (64 - a.length) = 2 ^ (64 - (a.length + b.length)) * 2 ^ b.length := by
    rw [← Nat.pow_add]
    congr 1
    omega
  rw [justified, List.length_append, hpow, ← Nat.div_div_eq_div_mul, Nat.mul_div_cancel _ (Nat.two_pow_pos _),
    bitsToNat_append_div a rfl]

/-! ### The window -/

/-- HDEC's registers when the next buffered bit is the stream's bit `q` (R22, R122): the window holds the `cnt` bits
from there on, left-justified. -/
structure Window (inp : Bytes) (r : HdRegs) (q : Nat) : Prop where
  pos : q + r.cnt = 8 * r.pos
  cnt : r.cnt ≤ 37
  win : r.win.toNat = justified (segment (bitStream inp) q r.cnt)

theorem window_start (inp : Bytes) : Window inp ⟨0, 0, 0⟩ 0 := ⟨rfl, by decide, by simp [segment, justified, bitsToNat]⟩

section
variable {inp : Bytes} {r : HdRegs} {q : Nat} (h : Window inp r q)
include h

/-- One byte pulled in below the buffered bits (R121). -/
theorem window_pull (hcnt : r.cnt < 30) :
    Window inp
      ⟨r.win + BitVec.ofNat 64 ((inp.getD r.pos 0xFF).toNat * 2 ^ (56 - r.cnt)), r.cnt + 8, r.pos + 1⟩ q := by
  obtain ⟨hpos, -, hwin⟩ := h
  refine ⟨by simp only; omega, by simp only; omega, ?_⟩
  have hlow : 64 - (r.cnt + 8) = 56 - r.cnt := by omega
  have hnext : justified (segment (bitStream inp) q (r.cnt + 8)) =
      r.win.toNat + (inp.getD r.pos 0xFF).toNat * 2 ^ (56 - r.cnt) := by
    rw [segment_add, hpos, ← byteBits_getD, justified_append (by simp [byteBits]; omega), ← hwin,
      bitsToNat_byteBits_eq_toNat, segment_length, byteBits_eq_codeBits, codeBits_length, hlow]
  rw [hnext, BitVec.toNat_add, BitVec.toNat_ofNat, Nat.add_mod_mod, ← hnext]
  exact Nat.mod_eq_of_lt (justified_lt (by simp; omega))

/-- A code taken from the front (R128). -/
theorem window_consume {len : Nat} (hlen : len ≤ r.cnt) :
    Window inp ⟨r.win <<< len, r.cnt - len, r.pos⟩ (q + len) := by
  obtain ⟨hpos, hcnt, hwin⟩ := h
  refine ⟨by simp only; omega, by simp only; omega, ?_⟩
  have hsplit := segment_add (bitStream inp) q len (r.cnt - len)
  rw [Nat.add_sub_cancel' hlen] at hsplit
  have hshift := justified_shiftLeft (a := segment (bitStream inp) q len)
    (b := segment (bitStream inp) (q + len) (r.cnt - len)) (by simp only [segment_length]; omega)
  rwa [← hsplit, segment_length, ← hwin, ← Nat.shiftLeft_eq, ← BitVec.toNat_shiftLeft] at hshift

theorem window_bitPos : hdBitPos r = q := by
  have := h.pos
  rw [hdBitPos]
  omega

/-- The real bits among the buffered ones (R122). -/
theorem window_real (hq : q ≤ 8 * inp.length) : hdReal inp r = min r.cnt (8 * inp.length - q) := by
  have := h.pos
  rw [hdReal]
  omega

/-- With 30 bits buffered the window begins with the definition's candidate (R123). -/
theorem window_candidate (hcnt : 30 ≤ r.cnt) : hdCand r / 4 = candidate (bitStream inp) q := by
  obtain ⟨-, hle, hwin⟩ := h
  have hsplit := segment_add (bitStream inp) q 30 (r.cnt - 30)
  rw [Nat.add_sub_cancel' hcnt] at hsplit
  rw [hdCand, BitVec.toNat_ushiftRight, Nat.shiftRight_eq_div_pow, Nat.div_div_eq_div_mul, hwin, hsplit,
    candidate_eq_segment]
  exact justified_div (a := segment (bitStream inp) q 30) (by simp only [segment_length]; omega)

end

theorem window_refillLoop {inp : Bytes} {fuel : Nat} {r : HdRegs} {q : Nat} (h : Window inp r q) :
    Window inp (hdRefillLoop inp fuel r) q := by
  induction fuel generalizing r with
  | zero => exact h
  | succ fuel ih =>
    rw [hdRefillLoop]
    split
    · exact ih (window_pull h ‹_›)
    · exact h

theorem hdRefillLoop_cnt {inp : Bytes} {fuel : Nat} {r : HdRegs} (h : 30 ≤ r.cnt + 8 * fuel) :
    30 ≤ (hdRefillLoop inp fuel r).cnt := by
  induction fuel generalizing r with
  | zero => exact h
  | succ fuel ih =>
    rw [hdRefillLoop]
    split
    · exact ih (by simp only; omega)
    · omega

/-- Four turns buffer at least 30 bits, whatever the count was (R121). -/
theorem hdRefill_cnt (inp : Bytes) (r : HdRegs) : 30 ≤ (hdRefill inp r).cnt := hdRefillLoop_cnt (by omega)

theorem window_refill {inp : Bytes} {r : HdRegs} {q : Nat} (h : Window inp r q) : Window inp (hdRefill inp r) q :=
  window_refillLoop h

/-! ### A turn of the definition's loop -/

section
variable {p : Params} {bits : List Bool} {fuel q s : Nat} (out : Bytes)

theorem hdecDefLoop_end (h : bits.length ≤ q ∨ candidate bits q = 2 ^ 30 - 1) :
    hdecDefLoop p bits fuel q out = .ok out := by
  cases fuel with
  | zero => rfl
  | succ fuel =>
    rw [hdecDefLoop]
    split_ifs with hend hones
    · rfl
    · rfl
    · exact absurd h (not_or.2 ⟨hend, hones⟩)

theorem hdecDefLoop_symbol (hend : q < bits.length) (hones : candidate bits q ≠ 2 ^ 30 - 1)
    (hsymbol : symbolOf p (candidate bits q) = some s) :
    hdecDefLoop p bits (fuel + 1) q out =
      if bits.length < q + hlen p s then .error (huffmanInvalid q (hlen p s) (bits.length - q))
      else hdecDefLoop p bits fuel (q + hlen p s) (out ++ [BitVec.ofNat 8 s]) := by
  rw [hdecDefLoop, if_neg (Nat.not_le.2 hend), if_neg hones, hsymbol]

end

/-! ### The two loops turn by turn -/

section
variable {p : Params} (hp : CodeTables p)
include hp

/-- R129: from registers that hold the stream at the definition's position, the loops end alike. The buffered real bits
are fewer than the real bits left only while more than a code's length is buffered, so the overrun tests agree. -/
theorem hdLoop_eq_hdecDefLoop {inp : Bytes} {fuel : Nat} {r : HdRegs} {q : Nat} (hw : Window inp r q)
    (hq : q ≤ 8 * inp.length) (out : Bytes) :
    (hdLoop p inp fuel r out).2 = hdecDefLoop p (bitStream inp) fuel q out := by
  induction fuel generalizing r q out with
  | zero => rfl
  | succ fuel ih =>
    have hw := window_refill hw
    have hcnt := hdRefill_cnt inp r
    have hlt := candidate_lt (bitStream inp) q
    rw [hdLoop]
    generalize hdRefill inp r = r at hw hcnt ⊢
    dsimp only
    have hreal := window_real hw hq
    have hcand := window_candidate hw hcnt
    by_cases hend : 8 * inp.length ≤ q
    · rw [if_pos (by omega), hdecDefLoop_end _ (.inl (by rwa [bitStream_length]))]
    by_cases hones : candidate (bitStream inp) q = 2 ^ 30 - 1
    · rw [if_neg (by omega), if_pos (by omega), hdecDefLoop_end _ (.inr hones)]
    obtain ⟨hs, hstarts⟩ := hdLookup_spec hp (cand := hdCand r) (by omega)
    have hsymbol := symbolOf_of_startsWithCode hp hs ((startsWithCode_div_four hp hs).2 hstarts)
    rw [hcand] at hsymbol
    obtain ⟨-, hlong, -⟩ := hp.fit _ hs
    rw [if_neg (by omega), if_neg (by omega), if_neg (not_not.2 hstarts.symm),
      hdecDefLoop_symbol _ (by rw [bitStream_length]; omega) hones hsymbol, bitStream_length, window_bitPos hw]
    by_cases hover : 8 * inp.length < q + hlen p (hdLookup p (hdCand r)).symbol
    · rw [if_pos (by omega), if_pos hover, hreal, min_eq_right (by omega)]
    · rw [if_neg (by omega), if_neg hover]
      exact ih (window_consume hw (by omega)) (by omega) _

theorem hdecProc_result (inp : Bytes) : (hdecProc p inp).2 = hdecDef p inp := by
  rw [hdecProc, hdecDef, bitStream_length]
  exact hdLoop_eq_hdecDefLoop hp (window_start inp) (Nat.zero_le _) []

end

/-! ### The command HDEC -/

section
variable {inp : Bytes} {s : State} (h : s.flt = .noFault)
include h

theorem exec_hdec_ok {out : Bytes} (hout : hdecDef params inp = .ok out) :
    exec (.hdec inp) s = .next (latch (.ok (.bytes out)) (storeHdec (hdecProc params inp).1 s)) := by
  rw [exec, execHdec, runHdec, hdecProc_result codeTables_params, hout, command_ok h, respond_ok]

theorem exec_hdec_error {e : FaultRec} (he : hdecDef params inp = .error e) :
    exec (.hdec inp) s = .next (latch (.fault e) (takeFault e (storeHdec (hdecProc params inp).1 s))) := by
  rw [exec, execHdec, runHdec, hdecProc_result codeTables_params, he, command_error h, respond_error]

end

/-- Settles O25: the procedure's result is the definition's (`hdecProc_result`), whose window the loops keep. -/
theorem hdecDeliversTheDefinition : Obligations.HdecDeliversTheDefinition :=
  fun _ _ hs => ⟨_, _, _, fun _ hout => exec_hdec_ok hs hout, fun _ he => exec_hdec_error hs he⟩

/-! ### The definition's one fault -/

/-- A code longer than the real bits left (R127). -/
def IsOverrun (total : Nat) (e : FaultRec) : Prop :=
  e.code = .huffmanInvalid ∧ e.info.off + e.info.avail = total ∧ 0 < e.info.avail ∧
    e.info.avail < e.info.need ∧ e.info.need ≤ 30

/-- Any candidate but thirty ones begins with a symbol's code, so the loop faults on an overrun only. -/
theorem hdecDefLoop_overrun {p : Params} (hp : CodeTables p) {bits : List Bool} {fuel q : Nat} {out : Bytes}
    {e : FaultRec} (he : hdecDefLoop p bits fuel q out = .error e) : IsOverrun bits.length e := by
  induction fuel generalizing q out with
  | zero => cases he
  | succ fuel ih =>
    by_cases hend : bits.length ≤ q
    · rw [hdecDefLoop_end _ (.inl hend)] at he
      cases he
    by_cases hones : candidate bits q = 2 ^ 30 - 1
    · rw [hdecDefLoop_end _ (.inr hones)] at he
      cases he
    have hlt := candidate_lt bits q
    obtain ⟨s, hs, hsymbol⟩ := exists_symbolOf hp (cand := candidate bits q) (by omega)
    obtain ⟨-, hlong, -⟩ := hp.fit s hs
    rw [hdecDefLoop_symbol _ (Nat.not_le.1 hend) hones hsymbol] at he
    split at he
    · cases he
      exact ⟨rfl, by simp only [huffmanInvalid]; omega, by simp only [huffmanInvalid]; omega,
        by simp only [huffmanInvalid]; omega, hlong⟩
    · exact ih he

/-- Settles O28: the definition's fault is an overrun (`hdecDefLoop_overrun`), and HDEC takes no other. -/
theorem hdecFaultsOnlyOnAnOverrun : Obligations.HdecFaultsOnlyOnAnOverrun := by
  intro inp s t hs hexec hflt
  cases hdef : hdecDef params inp with
  | ok out =>
    rw [exec_hdec_ok hs hdef] at hexec
    cases hexec
    exact absurd hs hflt
  | error e =>
    rw [exec_hdec_error hs hdef] at hexec
    cases hexec
    rw [← bitStream_length]
    exact hdecDefLoop_overrun codeTables_params hdef

/-! ### Whole codes in the stream -/

/-- The definition's loop ends at once here: the bits end, or thirty ones follow, real or padded (R119). -/
def Stops (tail : List Bool) : Prop := (tail ++ List.replicate 30 true).take 30 = List.replicate 30 true

theorem stops_endMarker (rest : List Bool) : Stops (List.replicate 30 true ++ rest) := by
  rw [Stops, List.append_assoc, List.take_left' (by simp)]

theorem stops_ones (k : Nat) : Stops (List.replicate k true) := by
  rw [Stops, List.replicate_append_replicate, List.take_replicate, min_eq_left (Nat.le_add_left 30 k)]

section
variable {p : Params} {bits : List Bool} {fuel q : Nat}

theorem hdecDefLoop_stops (hdrop : Stops (bits.drop q)) (out : Bytes) : hdecDefLoop p bits fuel q out = .ok out := by
  refine hdecDefLoop_end out (.inr ?_)
  rw [candidate, hdrop]
  rfl

/-- The candidate begins with the code next in the stream. -/
theorem candidate_startsWithCode (hp : CodesFit p) {s : Nat} (hs : s < 256) {rest : List Bool}
    (hdrop : bits.drop q = codeBits (hcode p s) (hlen p s) ++ rest) : StartsWithCode p 30 (candidate bits q) s := by
  obtain ⟨-, hlong, hones⟩ := hp s hs
  have htake : (bits.drop q ++ List.replicate 30 true).take 30 =
      codeBits (hcode p s) (hlen p s) ++ (rest ++ List.replicate 30 true).take (30 - hlen p s) := by
    rw [hdrop, List.append_assoc, List.take_append, codeBits_length, List.take_of_length_le (by rwa [codeBits_length])]
  have hlength : ((rest ++ List.replicate 30 true).take (30 - hlen p s)).length = 30 - hlen p s := by
    rw [List.length_take, List.length_append, List.length_replicate]
    omega
  rw [StartsWithCode, candidate, htake, bitsToNat_append_div _ hlength,
    bitsToNat_codeBits (hones.trans_le (Nat.sub_le _ _))]

/-- A code next in the stream is taken as its symbol. -/
theorem hdecDefLoop_code (hp : CodeTables p) {b : Byte} {rest : List Bool}
    (hdrop : bits.drop q = codeBits (hcode p b.toNat) (hlen p b.toNat) ++ rest) (out : Bytes) :
    hdecDefLoop p bits (fuel + 1) q out = hdecDefLoop p bits fuel (q + hlen p b.toNat) (out ++ [b]) := by
  obtain ⟨hshort, -, -⟩ := hp.fit b.toNat b.isLt
  have hlength : hlen p b.toNat + rest.length = bits.length - q := by
    simpa using (congrArg List.length hdrop).symm
  have hstarts := candidate_startsWithCode hp.fit b.isLt hdrop
  rw [hdecDefLoop_symbol _ (by omega) (not_ones_of_startsWithCode hp b.isLt hstarts)
    (symbolOf_of_startsWithCode hp b.isLt hstarts), if_neg (by omega), BitVec.ofNat_toNat, BitVec.setWidth_eq]

/-- R131: the string's codes are decoded up to where the loop stops. -/
theorem hdecDefLoop_hencBits (hp : CodeTables p) {str : Bytes} {tail : List Bool} (htail : Stops tail)
    (hdrop : bits.drop q = hencBits p str ++ tail) (hfuel : str.length ≤ fuel) (out : Bytes) :
    hdecDefLoop p bits fuel q out = .ok (out ++ str) := by
  induction str generalizing fuel q out with
  | nil =>
    rw [List.append_nil]
    exact hdecDefLoop_stops (by rwa [hdrop]) out
  | cons b str ih =>
    obtain ⟨fuel, rfl⟩ := Nat.exists_eq_add_of_le' (Nat.one_le_of_lt hfuel)
    rw [hencBits_cons, List.append_assoc] at hdrop
    have hnext : bits.drop (q + hlen p b.toNat) = hencBits p str ++ tail := by
      rw [← List.drop_drop, hdrop, List.drop_left' (codeBits_length _ _)]
    rw [hdecDefLoop_code hp hdrop, ih hnext (Nat.le_of_succ_le_succ hfuel), List.append_assoc]
    rfl

end

theorem hdecDef_hencBits {p : Params} (hp : CodeTables p) {str inp : Bytes} {tail : List Bool} (htail : Stops tail)
    (hbits : bitStream inp = hencBits p str ++ tail) : hdecDef p inp = .ok str := by
  refine hdecDefLoop_hencBits hp (q := 0) htail hbits ?_ []
  obtain ⟨hlow, -⟩ := hencBits_length_bounds hp.fit str
  rw [hbits, List.length_append]
  omega

/-- Settles O27: the end marker and one-bit padding of any length both stop the loop (`hdecDef_hencBits`). -/
theorem hdecStopsAtEndMarkerOrPadding : Obligations.HdecStopsAtEndMarkerOrPadding := by
  intro str inp s hs hbits
  have hdef : hdecDef params inp = .ok str := by
    obtain ⟨rest, hrest⟩ | ⟨k, hk⟩ := hbits
    · exact hdecDef_hencBits codeTables_params (stops_endMarker rest) hrest
    · exact hdecDef_hencBits codeTables_params (stops_ones k) hk
  exact ⟨_, exec_hdec_ok hs hdef, rfl, ⟨rfl, rfl, rfl⟩, rfl, rfl⟩

/-- Settles O26: HENC's bits are the string's codes and one-bit padding (`bitStream_hencDef`), which HDEC decodes
(`hdecDef_hencBits`). -/
theorem hdecUndoesHenc : Obligations.HdecUndoesHenc := by
  intro str s hs
  have hdef : hdecDef params (hencDef params str) = .ok str :=
    hdecDef_hencBits codeTables_params (stops_ones _) (bitStream_hencDef params str)
  have hu : (latch (.ok (.bytes (hencDef params str))) (storeHenc (hencProc params str) s)).flt = .noFault := hs
  exact ⟨_, _, _, exec_henc hs str, rfl, exec_hdec_ok hu hdef, rfl⟩

end Sys2Proof.Machine
end

section
/-! PROOFS. The two tables themselves (42_huffman_table.md R139 to R143): the decode table's order, and the code with
the end marker among its symbols. -/

namespace Sys2Proof.Machine

/-! ### The decode table's order -/

/-- A row's place in the order of length and then symbol, as one number (`orderKey_lt_iff`, R142). -/
def orderKey (row : DecRow) : Nat := 256 * row.len + row.symbol

theorem orderKey_lt_iff {a b : DecRow} (ha : a.symbol < 256) (hb : b.symbol < 256) :
    orderKey a < orderKey b ↔ a.len < b.len ∨ (a.len = b.len ∧ a.symbol < b.symbol) := by
  unfold orderKey
  omega

/-- Each row comes before the next, so before every later one. -/
theorem hdecRom_pairwise_orderKey : params.hdecRom.Pairwise fun a b => orderKey a < orderKey b := by
  have hchain : (params.hdecRom.map orderKey).IsChain (· < ·) := by decide +kernel
  exact List.pairwise_map.1 (List.isChain_iff_pairwise.1 hchain)

/-- Settles O21: the rows tile the candidates, so their codes increase (`pairwise_of_tiles`), and their keys increase
from row to row (`hdecRom_pairwise_orderKey`). -/
theorem decodeTableMatchesCodeTable : Obligations.DecodeTableMatchesCodeTable := by
  have hrows := codeTables_params.rows
  refine ⟨by decide +kernel, by decide +kernel, fun row hrow => ?_, ?_, ⟨_, rfl, rfl⟩, ⟨_, rfl, rfl⟩⟩
  · obtain ⟨hsymbol, hbits, haligned⟩ := hrows row hrow
    exact ⟨hsymbol, hbits, hbits ▸ haligned⟩
  · refine ((pairwise_of_tiles codeTables_params.tiled).and hdecRom_pairwise_orderKey).imp_of_mem ?_
    intro a b ha hb ⟨hstop, hkey⟩
    obtain ⟨hsa, -, -⟩ := hrows a ha
    obtain ⟨hsb, -, -⟩ := hrows b hb
    exact ⟨(aligned_lt_stop a).trans_le hstop, (orderKey_lt_iff hsa hsb).1 hkey⟩

/-! ### The end marker among the codes -/

theorem hlen_endMarker : hlen params 256 = 30 := rfl

theorem hcode_endMarker : hcode params 256 = 2 ^ 30 - 1 := rfl

theorem codeBits_endMarker : codeBits (hcode params 256) (hlen params 256) = List.replicate 30 true := by
  rw [hlen_endMarker, hcode_endMarker, codeBits_ones]

/-- R139, R140: the byte symbols' codes are as HENC needs them (`codesFit_params`), and so is the end marker's. -/
theorem code_in_range {s : Nat} (hs : s ≤ 256) :
    5 ≤ hlen params s ∧ hlen params s ≤ 30 ∧ hcode params s < 2 ^ hlen params s := by
  obtain hbyte | rfl := Nat.lt_or_eq_of_le hs
  · obtain ⟨hshort, hlong, hones⟩ := codesFit_params s hbyte
    exact ⟨hshort, hlong, hones.trans_le (Nat.sub_le _ _)⟩
  · decide

/-- R143 (4): a byte symbol's code is below all ones (`CodesFit`), the end marker's is all ones. -/
theorem code_ones_iff {s : Nat} (hs : s ≤ 256) : hcode params s = 2 ^ hlen params s - 1 ↔ s = 256 := by
  obtain hbyte | rfl := Nat.lt_or_eq_of_le hs
  · obtain ⟨-, -, hones⟩ := codesFit_params s hbyte
    exact iff_of_false hones.ne hbyte.ne
  · exact iff_of_true rfl rfl

/-! ### No code is a prefix of another -/

/-- The symbol whose code stands at the start of a stream: the end marker where thirty ones do, else the definition's
symbol of the candidate (R119). -/
def firstSymbol (bits : List Bool) : Option Nat :=
  if candidate bits 0 = 2 ^ 30 - 1 then some 256 else symbolOf params (candidate bits 0)

theorem firstSymbol_of_code_prefix {s : Nat} (hs : s ≤ 256) {bits : List Bool}
    (hbits : codeBits (hcode params s) (hlen params s) <+: bits) : firstSymbol bits = some s := by
  obtain ⟨rest, hrest⟩ := hbits
  obtain hbyte | rfl := Nat.lt_or_eq_of_le hs
  · have hstarts : StartsWithCode params 30 (candidate bits 0) s :=
      candidate_startsWithCode codesFit_params hbyte hrest.symm
    rw [firstSymbol, if_neg (not_ones_of_startsWithCode codeTables_params hbyte hstarts)]
    exact symbolOf_of_startsWithCode codeTables_params hbyte hstarts
  · have hones : candidate bits 0 = bitsToNat (List.replicate 30 true) := by
      rw [candidate, List.drop_zero, ← hrest, codeBits_endMarker, stops_endMarker]
    exact if_pos hones

/-- R143 (1): a stream begins with one symbol's code only. -/
theorem code_prefix_free {a b : Nat} (ha : a ≤ 256) (hb : b ≤ 256)
    (hprefix : codeBits (hcode params a) (hlen params a) <+: codeBits (hcode params b) (hlen params b)) : a = b :=
  Option.some.inj
    ((firstSymbol_of_code_prefix ha hprefix).symm.trans (firstSymbol_of_code_prefix hb List.prefix_rfl))

/-- R143 (2): the byte symbols and the end marker together use up every 30-bit candidate. -/
theorem code_complete : ((List.range 257).map fun s => 2 ^ (30 - hlen params s)).sum = 2 ^ 30 := by decide +kernel

/-- Settles O22, clause by clause: ranges, prefix-freeness from what a stream's first bits decode to
(`firstSymbol_of_code_prefix`), completeness, and the one code of all ones. -/
theorem codeIsPrefixFreeAndComplete : Obligations.CodeIsPrefixFreeAndComplete :=
  ⟨fun _ => code_in_range, fun _ ha _ hb hne hprefix => hne (code_prefix_free ha hb hprefix), code_complete,
    fun _ => code_ones_iff⟩

end Sys2Proof.Machine
end

section
/-! PROOFS. The dictionary's searches, DFIND and DFINDN (43_dictionary_engine.md R151, R152, R155, R156). -/

namespace Sys2Proof.Machine

section
variable {s : State} (h : s.flt = .noFault)
include h

theorem exec_dfind_ready (name value : Bytes) :
    exec (.dfind name value) s = .next (latch (.ok (.index (find params s.ddEnt name value))) s) := by
  rw [exec, execDfind, runDfind, command_ok h, respond_ok]

theorem exec_dfindn_ready (name : Bytes) :
    exec (.dfindn name) s = .next (latch (.ok (.index (findName params s.ddEnt name))) s) := by
  rw [exec, execDfindn, runDfindn, command_ok h, respond_ok]

end

section
variable {ent : List Entry} {name value : Bytes}

/-- Where DFIND's search answers an index, the entry there is the pair. -/
theorem dictRead_find (hi : find params ent name value ≠ 0) :
    dictRead params ent (find params ent name value) = .ok ⟨name, value⟩ := by
  obtain ⟨⟨n, v⟩, hread, hhit⟩ := (search_spec ent _).1 hi
  obtain ⟨rfl, rfl⟩ : n = name ∧ v = value := by simpa using hhit
  exact hread

/-- No index that DFIND's search passes over holds the pair. -/
theorem dictRead_ne_of_find {j : Nat} (hj : j < find params ent name value ∨ find params ent name value = 0) :
    dictRead params ent j ≠ .ok ⟨name, value⟩ := fun hread => by
  simpa using (search_spec ent _).2 j _ hj hread

/-- Where DFINDN's search answers an index, the entry there has the name. -/
theorem dictRead_findName (hi : findName params ent name ≠ 0) :
    ∃ v, dictRead params ent (findName params ent name) = .ok ⟨name, v⟩ := by
  obtain ⟨⟨n, v⟩, hread, hhit⟩ := (search_spec ent _).1 hi
  obtain rfl : n = name := by simpa using hhit
  exact ⟨v, hread⟩

/-- No index that DFINDN's search passes over has the name. -/
theorem dictRead_ne_of_findName {j : Nat} (hj : j < findName params ent name ∨ findName params ent name = 0)
    (v : Bytes) : dictRead params ent j ≠ .ok ⟨name, v⟩ := fun hread => by
  simpa using (search_spec ent _).2 j _ hj hread

end

/-- Settles O29: the index is the search's, which stops at the least hit (`search_spec`). -/
theorem dfindGivesTheLeastMatch : Obligations.DfindGivesTheLeastMatch := fun name value s hf =>
  ⟨find params s.ddEnt name value, exec_dfind_ready hf name value, dictRead_find, fun _ _ => dictRead_ne_of_find⟩

/-- Settles O30, as O29 with the search by name. -/
theorem dfindnGivesTheLeastNameMatch : Obligations.DfindnGivesTheLeastNameMatch := fun name s hf =>
  ⟨findName params s.ddEnt name, exec_dfindn_ready hf name, dictRead_findName, fun _ _ => dictRead_ne_of_findName⟩

end Sys2Proof.Machine
end

section
/-! PROOFS. Insertion and eviction, DPUSH, DSHRINK and DSETMAX (43_dictionary_engine.md R158 to R163; 10_state.md R17). -/

namespace Sys2Proof.Machine

/-! ### Indices after an insertion -/

section
variable (e : Entry) (ent : List Entry)

theorem dictRead_cons_newest : dictRead params (e :: ent) 62 = .ok e :=
  dictRead_dynamic (Nat.le_refl 62) rfl

/-- R158: what was at a dynamic index is one index higher below a new entry. -/
theorem dictRead_cons_succ {i : Nat} {e' : Entry} (h62 : 62 ≤ i) (h : dictRead params ent i = .ok e') :
    dictRead params (e :: ent) (i + 1) = .ok e' := by
  obtain ⟨h1, hstatic⟩ | ⟨-, hdynamic⟩ := dictRead_eq_ok.1 h
  · have hlt : i - 1 < staticRom.length := (List.getElem?_eq_some_iff.1 hstatic).1
    have hlen : staticRom.length = 61 := staticRom_length
    omega
  · refine dictRead_dynamic (h62.trans (Nat.le_succ i)) ?_
    rw [Nat.succ_sub h62, List.getElem?_cons_succ]
    exact hdynamic

/-- A static index reads the same whatever the dynamic entries are (R41). -/
theorem dictRead_static_congr (ent' : List Entry) {i : Nat} (h1 : 1 ≤ i) (h61 : i ≤ 61) :
    dictRead params ent i = dictRead params ent' i := by
  rw [dictRead, dictRead, if_pos ⟨h1, h61⟩, if_pos ⟨h1, h61⟩]

end

/-- Settles O32: DPUSH's effect is `insertEntry`, and each clause on indices is `dictRead` of a list with a new head. -/
theorem dpushInsertsAtTheNewestPosition : Obligations.DpushInsertsAtTheNewestPosition := fun name value _ hf =>
  ⟨_, exec_dpush_ready hf name value, rfl, dictRead_cons_newest _ _, fun _ _ => dictRead_cons_succ _ _,
    fun _ => dictRead_static_congr _ _⟩

/-! ### DSHRINK -/

/-- One turn of R159's loop: above the limit, the oldest entry goes with its cost. -/
theorem shrink_turn {limit : Nat} {s : State} {init : List Entry} {e : Entry} (hlt : limit < s.ddTotal)
    (hent : s.ddEnt = init ++ [e]) :
    shrink limit s = shrink limit { s with ddEnt := init, ddTotal := s.ddTotal - cost e } := by
  have hrev : s.ddEnt.reverse = e :: init.reverse := by rw [hent, List.reverse_concat]
  rw [shrink, hrev, evict_turn hlt]
  rfl

/-- Settles O33 by one turn of the loop (`shrink_turn`), and where there is none by `shrink_of_nothing_to_evict`. -/
theorem dshrinkEvictsTheOldest : Obligations.DshrinkEvictsTheOldest := by
  refine fun limit s hf => ⟨fun init e hlt hent => ⟨_, exec_dshrink_ready hf limit, ?turn⟩, fun hnone => ?stop⟩
  case turn =>
    rw [shrink_turn hlt hent]
    exact exec_dshrink_ready (s := { s with ddEnt := init, ddTotal := s.ddTotal - cost e }) hf limit
  case stop =>
    rw [exec_dshrink_ready hf, shrink_of_nothing_to_evict hnone]
    rfl

/-- With SUM, DSHRINK keeps the longest run of newest entries whose sum is within the limit, and that sum (R159). -/
theorem shrink_keeps_newest (limit : Nat) {s : State} (hsum : SumHolds s) :
    ∃ k ≤ s.ddEnt.length,
      shrink limit s = { s with ddEnt := s.ddEnt.take k, ddTotal := totalCost (s.ddEnt.take k) } ∧
      totalCost (s.ddEnt.take k) ≤ limit ∧
      ∀ m, k < m → m ≤ s.ddEnt.length → limit < totalCost (s.ddEnt.take m) := by
  obtain ⟨d, hd, hevict, hle, hmin⟩ := evict_sum limit s.ddEnt.reverse
  rw [List.length_reverse] at hd
  have htotal : s.ddTotal = totalCost s.ddEnt := hsum
  rw [totalCost_reverse, ← htotal, List.drop_reverse, totalCost_reverse] at hevict
  rw [List.drop_reverse, totalCost_reverse] at hle
  refine ⟨s.ddEnt.length - d, Nat.sub_le _ _, ?_, hle, fun m hkm hm => ?_⟩
  · rw [shrink, hevict, List.reverse_reverse]
  · have hdropped := hmin (s.ddEnt.length - m) (by omega)
    rwa [List.drop_reverse, totalCost_reverse, Nat.sub_sub_self hm] at hdropped

/-- Settles O34: DSHRINK's effect on the dictionary is `shrink`'s, `shrink_keeps_newest`. -/
theorem dshrinkKeepsTheNewestThatFit : Obligations.DshrinkKeepsTheNewestThatFit := fun limit s hf hsum => by
  obtain ⟨k, hk, hshrink, hle, hmax⟩ := shrink_keeps_newest limit hsum
  refine ⟨k, hk, ?_, hle, hmax⟩
  rw [exec_dshrink_ready hf, hshrink]
  rfl

/-! ### DSETMAX -/

/-- Settles O35: up to `DD_LIMIT`, DSETMAX's effect is that of DSHRINK where `DD_MAX` is set; above it, a fault. -/
theorem dsetmaxSetsTheBudgetOrFaults : Obligations.DsetmaxSetsTheBudgetOrFaults := fun v s hf =>
  ⟨fun hv => ⟨_, exec_dsetmax_ready hf hv, exec_dshrink_ready (s := setMax v s) hf v, rfl⟩, exec_dsetmax_above hf⟩

/-! ### The insertion as the host performs it -/

/-- A run of newest entries that is not empty costs at least what the newest one does. -/
theorem cost_le_totalCost_take (e : Entry) (ent : List Entry) {k : Nat} (hk : k ≠ 0) :
    cost e ≤ totalCost ((e :: ent).take k) := by
  obtain ⟨j, rfl⟩ := Nat.exists_eq_succ_of_ne_zero hk
  rw [List.take_succ_cons, totalCost_cons]
  exact Nat.le_add_right _ _

section
variable {limit : Nat} {e : Entry} {s : State} (hsum : SumHolds s)
include hsum

/-- R161: an entry that fits stays, above the longest run of older entries that fits with it. -/
theorem shrink_insertEntry_of_fits (hfits : cost e ≤ limit) :
    ∃ k ≤ s.ddEnt.length, (shrink limit (insertEntry e s)).ddEnt = e :: s.ddEnt.take k ∧
      ∀ m, k < m → m ≤ s.ddEnt.length → limit < totalCost (e :: s.ddEnt.take m) := by
  obtain ⟨k, hk, hshrink, -, hmax⟩ := shrink_keeps_newest limit (insertEntry_sum (e := e) hsum)
  rw [hshrink]
  cases k with
  | zero =>
    have halone : limit < cost e := hmax 1 Nat.one_pos (Nat.le_add_left 1 s.ddEnt.length)
    omega
  | succ k => exact ⟨k, Nat.le_of_succ_le_succ hk, rfl, fun m hkm hm => hmax (m + 1) (by omega) (Nat.succ_le_succ hm)⟩

/-- R161: an entry too large by itself goes too, and leaves the dictionary empty. -/
theorem shrink_insertEntry_of_too_large (hlarge : limit < cost e) :
    (shrink limit (insertEntry e s)).ddEnt = [] ∧ (shrink limit (insertEntry e s)).ddTotal = 0 := by
  obtain ⟨k, -, hshrink, hle, -⟩ := shrink_keeps_newest limit (insertEntry_sum (e := e) hsum)
  obtain rfl : k = 0 := by
    by_contra hk
    exact absurd (cost_le_totalCost_take e s.ddEnt hk) (Nat.not_le.2 (hle.trans_lt hlarge))
  rw [hshrink]
  exact ⟨rfl, rfl⟩

end

/-- Settles O37: the insertion ends in `shrink` of `insertEntry`, and which entries that keeps depends on whether the new
one fits by itself. -/
theorem insertionIsPushThenShrink : Obligations.InsertionIsPushThenShrink := fun name value s hf hsum => by
  have hpushed : (latch (.ok .unit) (insertEntry ⟨name, value⟩ s)).flt = .noFault := hf
  obtain ⟨hsum', hbudget, -⟩ := shrink_budget (insertEntry_sum (e := ⟨name, value⟩) hsum) (Nat.le_refl s.ddMax)
  exact ⟨_, _, exec_dpush_ready hf name value, exec_dshrink_ready hpushed _, hsum', hbudget, rfl, ⟨rfl, rfl⟩,
    shrink_insertEntry_of_fits (limit := s.ddMax) (e := ⟨name, value⟩) hsum,
    shrink_insertEntry_of_too_large (limit := s.ddMax) (e := ⟨name, value⟩) hsum⟩

end Sys2Proof.Machine
end

section
/-! PROOFS. What a run that reads its input does, said once (45_host_sequences.md R191, R203 to R208): a result that a
function of the operands gives, and a state in which only the registers of the integer unit and of HDEC differ; or a fault
that is taken with the dictionary as it was. -/

namespace Sys2Proof.Machine

open Sys2Proof.Claims

/-! ### How a run ends -/

/-- From `s`, a run ends as `x` says: with its result, in a state that `Q` describes, or with its fault, taken before any
dictionary register is written. -/
inductive Ends {α : Type} (s : State) (Q : α → State → Prop) : Except FaultRec α → Run α → Prop
  | done {a : α} {t : State} : Q a t → Ends s Q (.ok a) (t, .ok a)
  | fault {e : FaultRec} {u : State} : SameDict s u → Ends s Q (.error e) (takeFault e u, .error e)

namespace Ends

variable {α β : Type} {s : State} {Q Q' : α → State → Prop} {x : Except FaultRec α} {r : Run α}

theorem of_ok {a : α} (h : Ends s Q x r) (hx : x = .ok a) : ∃ t, r = (t, .ok a) ∧ Q a t := by
  subst hx
  cases h with
  | done hQ => exact ⟨_, rfl, hQ⟩

theorem of_error {e : FaultRec} (h : Ends s Q x r) (hx : x = .error e) :
    ∃ u, r = (takeFault e u, .error e) ∧ SameDict s u := by
  subst hx
  cases h with
  | fault hu => exact ⟨_, rfl, hu⟩

theorem mono (h : Ends s Q x r) (hQ : ∀ a t, Q a t → Q' a t) : Ends s Q' x r := by
  cases h with
  | done h => exact .done (hQ _ _ h)
  | fault hu => exact .fault hu

/-- A sequence ends as its parts do, one after the other. -/
theorem andThen {f : α → Except FaultRec β} {next : α → State → Run β} {P : β → State → Prop} (h : Ends s Q x r)
    (hnext : ∀ a u, x = .ok a → Q a u → Ends s P (f a) (next a u)) : Ends s P (x.bind f) (andThen r next) := by
  cases h with
  | done hQ => exact hnext _ _ rfl hQ
  | fault hu => exact .fault hu

/-- A command with no fault recorded ends as its effect does. -/
theorem command {u t : State} (hu : u.flt = .noFault) (hok : ∀ a, x = .ok a → Q a t)
    (herror : ∀ e, x = .error e → SameDict s t) : Ends s Q x (command u (t, x)) := by
  cases x with
  | error e => rw [command_error hu]; exact .fault (herror e rfl)
  | ok a => rw [command_ok hu]; exact .done (hok a rfl)

end Ends

/-! ### What reading writes -/

/-- `t` is `s` after integers have been read from `inp`. -/
def ReadInts (inp : Bytes) (s t : State) : Prop := ∃ tag r, t = storeInt inp tag false r s

/-- `t` is `s` after integers and coded strings have been read from `inp`. -/
def HasRead (inp : Bytes) (s t : State) : Prop := ∃ tag r d, t = storeHdec d (storeInt inp tag false r s)

section
variable {inp : Bytes} {s t u : State}

theorem ReadInts.hasRead (h : ReadInts inp s t) : HasRead inp s t := by
  obtain ⟨tag, r, rfl⟩ := h
  exact ⟨tag, r, ⟨s.hdWin, s.hdCnt, s.hdPos⟩, rfl⟩

theorem HasRead.trans (h : HasRead inp s t) (h' : HasRead inp t u) : HasRead inp s u := by
  obtain ⟨_, _, _, rfl⟩ := h
  obtain ⟨tag, r, d, rfl⟩ := h'
  exact ⟨tag, r, d, rfl⟩

theorem HasRead.storeHdec (h : HasRead inp s t) (d : HdRegs) : HasRead inp s (storeHdec d t) := by
  obtain ⟨tag, r, _, rfl⟩ := h
  exact ⟨tag, r, d, rfl⟩

theorem HasRead.sameArch (h : HasRead inp s t) : SameArch s t := by
  obtain ⟨_, _, _, rfl⟩ := h
  exact ⟨⟨rfl, rfl, rfl⟩, rfl, rfl⟩

theorem HasRead.sameHost (h : HasRead inp s t) : SameHost s t := by
  obtain ⟨_, _, _, rfl⟩ := h
  exact ⟨rfl, rfl, rfl, rfl⟩

theorem HasRead.sameHenc (h : HasRead inp s t) : SameHenc s t := by
  obtain ⟨_, _, _, rfl⟩ := h
  exact ⟨rfl, rfl⟩

theorem HasRead.inp_eq (h : HasRead inp s t) : t.inp = inp := by
  obtain ⟨_, _, _, rfl⟩ := h
  rfl

theorem HasRead.idBusy (h : HasRead inp s t) : t.idBusy = false := by
  obtain ⟨_, _, _, rfl⟩ := h
  rfl

/-- Reading integers leaves HDEC's registers. -/
theorem ReadInts.sameHdec (h : ReadInts inp s t) : SameHdec s t := by
  obtain ⟨_, _, rfl⟩ := h
  exact ⟨rfl, rfl, rfl⟩

theorem HasRead.flt (h : HasRead inp s t) (hs : s.flt = .noFault) : t.flt = .noFault := h.sameArch.2.1.trans hs

theorem HasRead.ddEnt (h : HasRead inp s t) : t.ddEnt = s.ddEnt := h.sameArch.1.1

end

/-- A run that reads from `inp`, started in `s` or where reading has got to. -/
abbrev Reads {α : Type} (inp : Bytes) (s : State) (x : Except FaultRec α) (r : Run α) : Prop :=
  Ends s (fun _ => HasRead inp s) x r

theorem SameDict.trans {s t u : State} (h : SameDict s t) (h' : SameDict t u) : SameDict s u :=
  ⟨h'.1.trans h.1, h'.2.1.trans h.2.1, h'.2.2.trans h.2.2⟩

/-- Reading that goes on where reading has got to. -/
theorem Ends.after {α : Type} {inp : Bytes} {s u : State} {x : Except FaultRec α} {r : Run α} (hu : HasRead inp s u)
    (h : Reads inp u x r) : Reads inp s x r := by
  cases h with
  | done ht => exact .done (hu.trans ht)
  | fault hd => exact .fault (SameDict.trans hu.sameArch.1 hd)

/-! ### Integers, entries, Huffman bodies -/

theorem runIdec_ends {inp : Bytes} {pos n : Nat} {s : State} (hs : s.flt = .noFault) :
    Ends s (fun _ => ReadInts inp s) (idec params.intMax inp pos n) (runIdec params inp pos n s) := by
  unfold runIdec idec
  split
  · cases inp[pos]? with
    | none => exact .command hs (fun _ => nofun) fun _ _ => ⟨rfl, rfl, rfl⟩
    | some b =>
      dsimp only
      generalize idecFrom params.intMax inp pos n (prefixOf n b) = x
      obtain ⟨r, e | a⟩ := x
      · exact .command hs (fun _ => nofun) fun _ _ => ⟨rfl, rfl, rfl⟩
      · exact .command hs (fun _ _ => ⟨_, _, rfl⟩) fun _ => nofun
  · exact .command hs (fun _ => nofun) fun _ _ => ⟨rfl, rfl, rfl⟩

theorem runIdec_reads {inp : Bytes} {pos n : Nat} {s : State} (hs : s.flt = .noFault) :
    Reads inp s (idec params.intMax inp pos n) (runIdec params inp pos n s) :=
  (runIdec_ends hs).mono fun _ _ => ReadInts.hasRead

section
variable {inp : Bytes} {s u : State} (hs : s.flt = .noFault) (hu : HasRead inp s u)
include hs hu

theorem runDget_reads (i : Nat) : Reads inp s (dictRead params s.ddEnt i) (runDget params i u) := by
  rw [← hu.ddEnt]
  exact .command (hu.flt hs) (fun _ _ => hu) fun _ _ => hu.sameArch.1

theorem runHdec_reads (body : Bytes) : Reads inp s (hdecDef params body) (runHdec params body u) := by
  rw [← hdecProc_result codeTables_params]
  exact .command (hu.flt hs) (fun _ _ => hu.storeHdec _) fun _ _ => hu.sameArch.1

end

/-! ### String literals (R191) -/

/-- The body of a string literal after its length integer: the length test, then the coded or the raw bytes. -/
def bodyAt (inp : Bytes) (start len : Nat) (huff : Bool) : Except FaultRec (Bytes × Nat) :=
  if inp.length - start < len then .error (truncatedBody start len (inp.length - start))
  else if huff then (hdecDef params ((inp.drop start).take len)).bind fun out => .ok (out, start + len)
  else .ok ((inp.drop start).take len, start + len)

theorem strAt_eq_bind (inp : Bytes) (pos : Nat) :
    strAt inp pos =
      (idec params.intMax inp pos 7).bind fun r => bodyAt inp (pos + r.consumed) r.value (huffFlag r.tag) := by
  unfold strAt
  cases idec params.intMax inp pos 7 with
  | error e => rfl
  | ok r =>
    simp only [Except.bind, bodyAt, huffFlag, beq_iff_eq]
    split_ifs
    · rfl
    · cases hdecDef params ((inp.drop (pos + r.consumed)).take r.value) <;> rfl
    · rfl

section
variable {inp : Bytes} {pos start len : Nat} {s u : State} (hs : s.flt = .noFault)
include hs

theorem runStrBody_reads (hu : HasRead inp s u) (huff : Bool) :
    Reads inp s (bodyAt inp start len huff) (runStrBody params inp start len huff u) := by
  unfold bodyAt runStrBody
  dsimp only
  split
  · exact .command (hu.flt hs) (fun _ => nofun) fun _ _ => hu.sameArch.1
  · cases huff with
    | true =>
      rw [if_pos rfl, if_pos rfl]
      exact (runHdec_reads hs hu _).andThen fun _ _ _ hv => .done hv
    | false => exact .done hu

theorem runStrdec_reads : Reads inp s (strAt inp pos) (runStrdec params inp pos s) := by
  rw [strAt_eq_bind]
  exact (runIdec_reads hs).andThen fun _ _ _ hu => runStrBody_reads hs hu _

/-- A raw string literal is read by the integer unit alone. -/
theorem runStrdec_raw_ends (hraw : ∀ r, idec params.intMax inp pos 7 = .ok r → r.tag = 0x00) :
    Ends s (fun _ => ReadInts inp s) (strAt inp pos) (runStrdec params inp pos s) := by
  rw [strAt_eq_bind]
  refine (runIdec_ends hs).andThen fun r u hr hu => ?_
  rw [hraw r hr]
  unfold bodyAt runStrBody
  split
  · exact .command (hu.hasRead.flt hs) (fun _ => nofun) fun _ _ => hu.hasRead.sameArch.1
  · exact .done hu

end

/-! ### Literals (R208) -/

theorem nameAt_eq_bind (ent : List Entry) (inp : Bytes) (pos index : Nat) :
    nameAt ent inp pos index =
      if index = 0 then strAt inp pos else (dictRead params ent index).bind fun e => .ok (e.name, pos) := by
  unfold nameAt
  cases dictRead params ent index <;> rfl

theorem literalAt_eq_bind (ent : List Entry) (inp : Bytes) (pos n : Nat) :
    literalAt ent inp pos n =
      (idec params.intMax inp pos n).bind fun r => (nameAt ent inp (pos + r.consumed) r.value).bind fun name =>
        (strAt inp name.2).bind fun value => .ok (name.1, value.1, value.2) := by
  unfold literalAt
  cases idec params.intMax inp pos n with
  | error e => rfl
  | ok r =>
    dsimp only [Except.bind]
    cases nameAt ent inp (pos + r.consumed) r.value with
    | error e => rfl
    | ok name =>
      dsimp only
      cases strAt inp name.2 <;> rfl

/-! ### First bytes -/

/-- The first byte of an integer with tag and prefix: IDEC that has looked at it goes on as IDEC does (R203). -/
structure FirstByte (inp : Bytes) (pos n tag pfx : Nat) : Prop where
  width : 4 ≤ n ∧ n ≤ 7
  pfx_lt : pfx < 2 ^ n
  tag_mod : tag % 2 ^ n = 0
  byte : ∃ b, inp[pos]? = some b ∧ b.toNat = tag + pfx

theorem FirstByte.runIdecFrom {inp : Bytes} {pos n tag pfx : Nat} (h : FirstByte inp pos n tag pfx) (s : State) :
    runIdecFrom params inp pos n tag pfx s = runIdec params inp pos n s := by
  obtain ⟨⟨h4, h7⟩, hpfx, htag, b, hb, hval⟩ := h
  have hpos : pos < inp.length := (List.getElem?_eq_some_iff.1 hb).1
  have hprefix : prefixOf n b = pfx := by
    rw [prefixOf, hval, Nat.add_mod, htag, Nat.zero_add, Nat.mod_mod, Nat.mod_eq_of_lt hpfx]
  have htagOf : tagOf n b = tag := by rw [tagOf, hprefix, hval, Nat.add_sub_cancel]
  rw [runIdec, if_pos (idec_operands_legal h4 h7 hpos.le), hb]
  dsimp only
  rw [hprefix, htagOf]
  rfl

theorem firstByte_append {inp : Bytes} {pos m n : Nat} {x : BitVec m} {y : BitVec n} {b : Byte} (hn : 4 ≤ n ∧ n ≤ 7)
    (hb : inp[pos]? = some b) (hval : b.toNat = (x ++ y).toNat) :
    FirstByte inp pos n (x.toNat * 2 ^ n) y.toNat :=
  ⟨hn, y.isLt, Nat.mul_mod_left _ _, b, hb, hval.trans (toNat_fields x y)⟩

section
variable {inp : Bytes} {pos n tag pfx : Nat} {s : State} (hs : s.flt = .noFault)
  (hb : FirstByte inp pos n tag pfx)
include hs hb

theorem runLiteral_reads : Reads inp s (literalAt s.ddEnt inp pos n) (runLiteral params inp pos n tag pfx s) := by
  rw [literalAt_eq_bind, runLiteral, hb.runIdecFrom]
  refine (runIdec_reads hs).andThen fun r u _ hu => .andThen (Q := fun _ => HasRead inp s) ?_ fun name v _ hv =>
    .andThen (Q := fun _ => HasRead inp s) (.after hv (runStrdec_reads (hv.flt hs))) fun _ _ _ hw => .done hw
  rw [nameAt_eq_bind, runLiteralName]
  split
  · exact .after hu (runStrdec_reads (hu.flt hs))
  · exact (runDget_reads hs hu _).andThen fun _ _ _ hv => .done hv

end

/-! ### Representations (R203 to R207) -/

/-- What a literal form delivers: the field with its never-indexed flag, and the next offset. -/
def literalField (never : Bool) (l : Bytes × Bytes × Nat) : Option Field × Nat := (some ⟨l.1, l.2.1, never⟩, l.2.2)

/-- The result of HFDEC for a representation at an offset, as a function of the input and the dynamic entries. -/
def repAt (ent : List Entry) (inp : Bytes) (pos : Nat) : Rep → Except FaultRec (Option Field × Nat)
  | .indexed _ =>
    (idec params.intMax inp pos 7).bind fun r =>
      (dictRead params ent r.value).bind fun e => .ok (some ⟨e.name, e.value, false⟩, pos + r.consumed)
  | .litInc _ => (literalAt ent inp pos 6).bind fun l => .ok (literalField false l)
  | .sizeUpd _ =>
    (idec params.intMax inp pos 5).bind fun r =>
      if Config.ddLimit < r.value then .error (sizeUpdateRange r.value Config.ddLimit)
      else .ok (none, pos + r.consumed)
  | .litNever _ => (literalAt ent inp pos 4).bind fun l => .ok (literalField true l)
  | .litNoIdx _ => (literalAt ent inp pos 4).bind fun l => .ok (literalField false l)

/-- The insertion as HFDEC and HFENC perform it (R161): DPUSH, then DSHRINK to `DD_MAX`. -/
def insertion (e : Entry) (s : State) : State := shrink s.ddMax (insertEntry e s)

/-- Insertions between equal dictionaries leave them equal. -/
theorem insertion_sameDict {e : Entry} {s t : State} (h : SameDict s t) : SameDict (insertion e s) (insertion e t) := by
  obtain ⟨hent, htotal, hmax⟩ := h
  exact ⟨by simp [insertion, hent, htotal, hmax], by simp [insertion, hent, htotal, hmax], hmax⟩

/-- The state HFDEC leaves for a representation read from `s`: the incremental literal inserts what it delivers, the size
update does what DSETMAX does, and the other forms only read. -/
def RepDone (inp : Bytes) (pos : Nat) (s : State) : Rep → Option Field × Nat → State → Prop
  | .indexed _, _, t => ReadInts inp s t
  | .litInc _, x, t => ∃ u f, HasRead inp s u ∧ x.1 = some f ∧ t = insertion ⟨f.name, f.value⟩ u
  | .sizeUpd _, _, t =>
    ∃ u r, ReadInts inp s u ∧ idec params.intMax inp pos 5 = .ok r ∧ t = shrink r.value (setMax r.value u)
  | .litNever _, _, t => HasRead inp s t
  | .litNoIdx _, _, t => HasRead inp s t

/-- The two literals that are not indexed, by their never-indexed bit (R207). -/
def plainRep (never : Bool) (pfx : BitVec 4) : Rep := if never then .litNever pfx else .litNoIdx pfx

theorem repAt_plainRep (ent : List Entry) (inp : Bytes) (pos : Nat) (never : Bool) (pfx : BitVec 4) :
    repAt ent inp pos (plainRep never pfx) = (literalAt ent inp pos 4).bind fun l => .ok (literalField never l) := by
  cases never <;> rfl

theorem repDone_plainRep {inp : Bytes} {pos : Nat} {s t : State} {never : Bool} {pfx : BitVec 4}
    {x : Option Field × Nat} : RepDone inp pos s (plainRep never pfx) x t ↔ HasRead inp s t := by
  cases never <;> rfl

theorem runInsert_ready {s : State} (h : s.flt = .noFault) (name value : Bytes) :
    runInsert name value s = (insertion ⟨name, value⟩ s, .ok ()) := by
  rw [runInsert, runDpush, command_ok h, andThen_ok, runDshrink, command_ok (s := insertEntry ⟨name, value⟩ s) h]
  rfl

theorem runRep_ends {inp : Bytes} {pos : Nat} {s : State} (hs : s.flt = .noFault) (rep : Rep)
    (hb : inp[pos]? = some rep.toByte) :
    Ends s (RepDone inp pos s rep) (repAt s.ddEnt inp pos rep) (runRep params rep inp pos s) := by
  cases rep with
  | indexed p =>
    have hfirst : FirstByte inp pos 7 0x80 p.toNat := firstByte_append (x := 1#1) (by decide) hb rfl
    rw [runRep, runRepIndexed, hfirst.runIdecFrom]
    refine (runIdec_ends hs).andThen fun r u _ hu => .andThen (Q := fun _ => ReadInts inp s) ?_ fun _ _ _ hv => .done hv
    rw [← hu.hasRead.ddEnt]
    exact .command (hu.hasRead.flt hs) (fun _ _ => hu) fun _ _ => hu.hasRead.sameArch.1
  | litInc p =>
    have hfirst : FirstByte inp pos 6 0x40 p.toNat := firstByte_append (x := 1#2) (by decide) hb rfl
    rw [runRep, runRepLitInc, repAt]
    refine (runLiteral_reads hs hfirst).andThen fun l u _ hu => ?_
    rw [runInsert_ready (hu.flt hs)]
    exact .done ⟨u, _, hu, rfl, rfl⟩
  | sizeUpd p =>
    have hfirst : FirstByte inp pos 5 0x20 p.toNat := firstByte_append (x := 1#3) (by decide) hb rfl
    rw [runRep, runRepSizeUpd, hfirst.runIdecFrom]
    refine (runIdec_ends hs).andThen fun r u hr hu => ?_
    rw [runDsetmax]
    by_cases hv : Config.ddLimit < r.value
    · rw [if_pos hv, if_pos (show params.ddLimit < r.value from hv), command_error (hu.hasRead.flt hs)]
      exact .fault hu.hasRead.sameArch.1
    · rw [if_neg hv, if_neg (show ¬ params.ddLimit < r.value from hv), command_ok (hu.hasRead.flt hs)]
      exact .done ⟨u, r, hu, hr, rfl⟩
  | litNever p =>
    have hfirst : FirstByte inp pos 4 0x10 p.toNat := firstByte_append (x := 1#4) (by decide) hb rfl
    rw [runRep, runRepLitPlain, repAt]
    exact (runLiteral_reads hs hfirst).andThen fun _ _ _ hu => .done hu
  | litNoIdx p =>
    have hfirst : FirstByte inp pos 4 0x00 p.toNat := firstByte_append (x := 0#4) (by decide) hb rfl
    rw [runRep, runRepLitPlain, repAt]
    exact (runLiteral_reads hs hfirst).andThen fun _ _ _ hu => .done hu

end Sys2Proof.Machine
end

section
/-! PROOFS. String literals and representations executed at the cursor (45_host_sequences.md R191, R203 to R208): each is
its run with the cursor moved and the response latched, so what it delivers, writes and faults with is its run's
(`runStrdec_reads`, `runRep_ends`). -/

namespace Sys2Proof.Machine

open Sys2Proof.Claims

theorem atCursor_byte {i : Instr} {fmt : Format} {b : Byte} {s : State} (hi : encode i = .wire fmt b)
    (h : AtCursor i s) : s.inp[s.pos]? = some b := by
  obtain ⟨fmt', b', hi', hb⟩ := h
  cases hi.symm.trans hi'
  exact hb

/-! ### Representations -/

section
variable {s : State} (hs : s.flt = .noFault) {rep : Rep}
include hs

theorem exec_rep_done (hb : AtCursor rep.toInstr s) {x : Option Field × Nat}
    (hx : repAt s.ddEnt s.inp s.pos rep = .ok x) :
    ∃ t, exec rep.toInstr s = .next (latch (.ok (.rep x.1 x.2)) (moveCursor x.2 t)) ∧
      RepDone s.inp s.pos s rep x t := by
  obtain ⟨t, hrun, hdone⟩ := (runRep_ends hs rep (atCursor_byte (encode_toInstr rep) hb)).of_ok hx
  exact ⟨t, by rw [exec_rep, hrun]; rfl, hdone⟩

theorem exec_rep_fault (hb : AtCursor rep.toInstr s) {e : FaultRec} (he : repAt s.ddEnt s.inp s.pos rep = .error e) :
    ∃ u, exec rep.toInstr s = .next (latch (.fault e) (takeFault e u)) ∧ SameDict s u := by
  obtain ⟨u, hrun, hdict⟩ := (runRep_ends hs rep (atCursor_byte (encode_toInstr rep) hb)).of_error he
  exact ⟨u, by rw [exec_rep, hrun]; rfl, hdict⟩

end

/-- Settles O40: DGET after IDEC, both of which only read (`runRep_ends`). -/
theorem indexedFieldDecodes : Obligations.IndexedFieldDecodes := by
  intro pfx r e s hs hcur hr he
  have hx : repAt s.ddEnt s.inp s.pos (.indexed pfx) = .ok (some ⟨e.name, e.value, false⟩, s.pos + r.consumed) := by
    rw [repAt, show idec params.intMax s.inp s.pos 7 = .ok r from hr, Except.bind, he, Except.bind]
  obtain ⟨t, hexec, ht⟩ := exec_rep_done (rep := .indexed pfx) hs hcur hx
  have hints : ReadInts s.inp s t := ht
  have hread : HasRead s.inp s t := hints.hasRead
  exact ⟨_, hexec, rfl, rfl, hread.inp_eq, rfl, hread.sameArch, hread.sameHost, hread.sameHenc, hints.sameHdec⟩

/-- Settles O41: the literal is read (`runLiteral_reads`) and inserted by the same `shrink` of `insertEntry` that DPUSH and
DSHRINK make. -/
theorem incrementalLiteralDecodesAndInserts : Obligations.IncrementalLiteralDecodesAndInserts := by
  intro pfx name value newpos s hs hcur hl
  have hx : repAt s.ddEnt s.inp s.pos (.litInc pfx) = .ok (some ⟨name, value, false⟩, newpos) := by
    rw [repAt, hl]
    rfl
  obtain ⟨t, hexec, u, f, hread, ⟨⟩, rfl⟩ := exec_rep_done (rep := .litInc pfx) hs hcur hx
  have hpushed : (latch (.ok .unit) (insertEntry ⟨name, value⟩ s)).flt = .noFault := hs
  exact ⟨_, _, _, hexec, rfl, rfl, hread.inp_eq, rfl, hread.sameArch.2, hread.sameHost, hread.sameHenc,
    exec_dpush_ready hs name value, exec_dshrink_ready hpushed s.ddMax,
    insertion_sameDict (e := ⟨name, value⟩) hread.sameArch.1⟩

theorem setMax_shrink_sameDict {v : Nat} {s t : State} (h : SameDict s t) :
    SameDict (shrink v (setMax v s)) (shrink v (setMax v t)) := by
  obtain ⟨hent, htotal, -⟩ := h
  exact ⟨by simp [hent, htotal], by simp [hent, htotal], rfl⟩

/-- Settles O42: the value is read by IDEC, and the rest is DSETMAX. -/
theorem sizeUpdateDecodes : Obligations.SizeUpdateDecodes := by
  intro pfx r s hs hcur hr hv
  have hidec : idec params.intMax s.inp s.pos 5 = .ok r := hr
  have hx : repAt s.ddEnt s.inp s.pos (.sizeUpd pfx) = .ok (none, s.pos + r.consumed) := by
    rw [repAt, hidec, Except.bind, if_neg (Nat.not_lt.2 hv)]
  obtain ⟨t, hexec, u, r', hu, hr', rfl⟩ := exec_rep_done (rep := .sizeUpd pfx) hs hcur hx
  obtain rfl : r = r' := Except.ok.inj (hidec.symm.trans hr')
  have hread : HasRead s.inp s u := hu.hasRead
  exact ⟨_, _, hexec, rfl, rfl, hread.inp_eq, rfl, hread.sameArch.2, hread.sameHost, hread.sameHenc, hu.sameHdec,
    exec_dsetmax_ready hs hv, setMax_shrink_sameDict hread.sameArch.1⟩

/-- Settles O43: both forms read the literal (`runLiteral_reads`) and write nothing. -/
theorem plainLiteralsDecode : Obligations.PlainLiteralsDecode := by
  intro pfx never name value newpos s hs hcur hl
  have hrep : (if never then .repLitNever pfx else .repLitNoIdx pfx) = (plainRep never pfx).toInstr := by
    cases never <;> rfl
  have hx : repAt s.ddEnt s.inp s.pos (plainRep never pfx) = .ok (some ⟨name, value, never⟩, newpos) := by
    rw [repAt_plainRep, hl]
    rfl
  rw [hrep] at hcur ⊢
  obtain ⟨t, hexec, hdone⟩ := exec_rep_done hs hcur hx
  have hread : HasRead s.inp s t := repDone_plainRep.1 hdone
  exact ⟨_, hexec, rfl, rfl, hread.inp_eq, rfl, hread.sameArch, hread.sameHost, hread.sameHenc⟩

/-! ### String literals -/

/-- The tag of a result of IDEC is its first byte's. -/
theorem idec_tag {m pos n : Nat} {inp : Bytes} {r : IntResult} {b : Byte} (hb : inp[pos]? = some b)
    (h : idec m inp pos n = .ok r) : r.tag = tagOf n b := by
  unfold idec at h
  split at h
  · rw [hb] at h
    dsimp only at h
    split at h
    · cases h; rfl
    · cases h
  · cases h

section
variable {s : State} (hs : s.flt = .noFault)

/-- A string literal at the cursor is STRDEC there, and the cursor moves past it. -/
theorem runStrAt_eq_runStrdec {tag pfx : Nat} (hfirst : FirstByte s.inp s.pos 7 tag pfx) :
    runStrAt params tag pfx s =
      andThen (runStrdec params s.inp s.pos s) fun x t => (moveCursor x.2 t, .ok x) := by
  rw [runStrAt, runStrdec, hfirst.runIdecFrom, andThen_assoc]

theorem exec_str {i : Instr} (hi : (∃ pfx, i = .strHuff pfx) ∨ (∃ pfx, i = .strRaw pfx)) (hcur : AtCursor i s) :
    exec i s =
      respond strAnswer (andThen (runStrdec params s.inp s.pos s) fun x t => (moveCursor x.2 t, .ok x)) := by
  obtain ⟨pfx, rfl⟩ | ⟨pfx, rfl⟩ := hi
  · have hfirst : FirstByte s.inp s.pos 7 0x80 pfx.toNat :=
      firstByte_append (x := 1#1) (by decide) (atCursor_byte rfl hcur) rfl
    rw [exec, execStrHuff, runStrAt_eq_runStrdec hfirst]
  · have hfirst : FirstByte s.inp s.pos 7 0x00 pfx.toNat :=
      firstByte_append (x := 0#1) (by decide) (atCursor_byte rfl hcur) rfl
    rw [exec, execStrRaw, runStrAt_eq_runStrdec hfirst]

/-- A raw literal's first byte has the flag clear. -/
theorem idec_tag_of_strRaw {pfx : BitVec 7} (hcur : AtCursor (.strRaw pfx) s) {r : IntResult}
    (hr : idec params.intMax s.inp s.pos 7 = .ok r) : r.tag = 0x00 := by
  have hbyte : ((0#1 : BitVec 1) ++ pfx).toNat = pfx.toNat := (toNat_fields 0#1 pfx).trans (by simp)
  rw [idec_tag (atCursor_byte rfl hcur) hr, tagOf, prefixOf, hbyte, Nat.mod_eq_of_lt pfx.isLt, Nat.sub_self]

end

/-- Settles O39: STRDEC at the cursor, which only reads (`runStrdec_reads`), a raw body with the integer unit alone
(`runStrdec_raw_ends`). -/
theorem stringLiteralsDecode : Obligations.StringLiteralsDecode := by
  intro i str newpos s hs hi hcur hstr
  rw [exec_str hi hcur]
  by_cases hraw : ∃ pfx, i = .strRaw pfx
  · obtain ⟨pfx, rfl⟩ := hraw
    obtain ⟨t, hrun, ht⟩ := (runStrdec_raw_ends hs fun _ => idec_tag_of_strRaw hcur).of_ok hstr
    have hread : HasRead s.inp s t := ht.hasRead
    rw [hrun]
    exact ⟨_, rfl, rfl, rfl, hread.inp_eq, rfl, hread.idBusy, hread.sameArch, hread.sameHost, hread.sameHenc,
      fun _ => ht.sameHdec⟩
  · obtain ⟨t, hrun, hread⟩ := (runStrdec_reads hs).of_ok hstr
    rw [hrun]
    exact ⟨_, rfl, rfl, rfl, hread.inp_eq, rfl, hread.idBusy, hread.sameArch, hread.sameHost, hread.sameHenc,
      fun h => absurd h hraw⟩

theorem exec_str_fault {s : State} (hs : s.flt = .noFault) {i : Instr}
    (hi : (∃ pfx, i = .strHuff pfx) ∨ (∃ pfx, i = .strRaw pfx)) (hcur : AtCursor i s) {e : FaultRec}
    (he : strAt s.inp s.pos = .error e) :
    ∃ u, exec i s = .next (latch (.fault e) (takeFault e u)) ∧ SameDict s u := by
  obtain ⟨u, hrun, hdict⟩ := (runStrdec_reads hs).of_error he
  exact ⟨u, by rw [exec_str hi hcur, hrun]; rfl, hdict⟩

/-! ### The first fault in stream order -/

/-- The fault of a result, if it is one. -/
def faultOf {α : Type} : Except FaultRec α → Option FaultRec
  | .error e => some e
  | .ok _ => none

theorem eq_error_of_faultOf {α : Type} {x : Except FaultRec α} {e : FaultRec} (h : faultOf x = some e) :
    x = .error e := by
  cases x with
  | error e' => rw [Option.some.inj h]
  | ok a => cases h

theorem wireFault_rep (s : State) (rep : Rep) :
    wireFault s rep.toInstr = faultOf (repAt s.ddEnt s.inp s.pos rep) := by
  cases rep with
  | indexed p =>
    rw [Rep.toInstr, wireFault, repAt]
    cases idec params.intMax s.inp s.pos 7 with
    | error e => rfl
    | ok r =>
      dsimp only [Except.bind]
      cases dictRead params s.ddEnt r.value <;> rfl
  | sizeUpd p =>
    rw [Rep.toInstr, wireFault, repAt]
    cases idec params.intMax s.inp s.pos 5 with
    | error e => rfl
    | ok r =>
      dsimp only [Except.bind]
      split <;> rfl
  | litInc p =>
    rw [Rep.toInstr, wireFault, repAt]
    cases literalAt s.ddEnt s.inp s.pos 6 <;> rfl
  | litNever p | litNoIdx p =>
    rw [Rep.toInstr, wireFault, repAt]
    cases literalAt s.ddEnt s.inp s.pos 4 <;> rfl

theorem wireFault_str {i : Instr} (hi : (∃ pfx, i = .strHuff pfx) ∨ (∃ pfx, i = .strRaw pfx)) (s : State) :
    wireFault s i = faultOf (strAt s.inp s.pos) := by
  obtain ⟨pfx, rfl⟩ | ⟨pfx, rfl⟩ := hi
  all_goals
    rw [wireFault]
    cases strAt s.inp s.pos <;> rfl

/-- Only representations and string literals are given a fault by `wireFault`. -/
theorem rep_or_str_of_wireFault {i : Instr} {e : FaultRec} {s : State} (h : wireFault s i = some e) :
    (∃ rep : Rep, i = rep.toInstr) ∨ (∃ pfx, i = .strHuff pfx) ∨ (∃ pfx, i = .strRaw pfx) := by
  cases i with
  | repIndexed p => exact .inl ⟨.indexed p, rfl⟩
  | repLitInc p => exact .inl ⟨.litInc p, rfl⟩
  | repSizeUpd p => exact .inl ⟨.sizeUpd p, rfl⟩
  | repLitNever p => exact .inl ⟨.litNever p, rfl⟩
  | repLitNoIdx p => exact .inl ⟨.litNoIdx p, rfl⟩
  | strHuff p => exact .inr (.inl ⟨p, rfl⟩)
  | strRaw p => exact .inr (.inr ⟨p, rfl⟩)
  | _ => cases h

theorem exec_wireFault {i : Instr} {e : FaultRec} {s : State} (hs : s.flt = .noFault) (hcur : AtCursor i s)
    (h : wireFault s i = some e) : ∃ u, exec i s = .next (latch (.fault e) (takeFault e u)) ∧ SameDict s u := by
  obtain ⟨rep, rfl⟩ | hi := rep_or_str_of_wireFault h
  · rw [wireFault_rep] at h
    exact exec_rep_fault hs hcur (eq_error_of_faultOf h)
  · rw [wireFault_str hi] at h
    exact exec_str_fault hs hi hcur (eq_error_of_faultOf h)

/-- Settles O44: the run takes the fault of the function it follows, before any dictionary register is written; what belongs
to the host no instruction writes (O45). -/
theorem wireFormsReportTheFirstFault : Obligations.WireFormsReportTheFirstFault := by
  intro i e s hs hcur he
  obtain ⟨u, hexec, hdict⟩ := exec_wireFault hs hcur he
  obtain ⟨hhost, -⟩ := instructionsLeaveTheHostAndTheBudgetAlone i s _ hexec
  exact ⟨_, hexec, ⟨rfl, rfl, rfl⟩, hdict, hhost⟩

end Sys2Proof.Machine
end

section
/-! PROOFS. The encoder's sequences, STRENC, HFENC and ENCODE (45_host_sequences.md R190, R200 to R202): the bytes of each
form, no fault, and no register written but HENC's, except where HFENC inserts. -/

namespace Sys2Proof.Machine

open Sys2Proof.Claims

/-! ### Runs that emit bytes -/

/-- From `s`, a run ends with these bytes and has written no register but HENC's. -/
def Emits (s : State) (out : Bytes) (r : Run Bytes) : Prop := ∃ regs, r = (storeHenc regs s, .ok out)

section
variable {s : State} {out out' : Bytes} {r : Run Bytes}

theorem Emits.nothing (s : State) (out : Bytes) : Emits s out (s, .ok out) := ⟨⟨s.heAcc, s.heCnt, []⟩, rfl⟩

theorem Emits.andThen {next : Bytes → State → Run Bytes} (h : Emits s out r)
    (hnext : ∀ regs, Emits (storeHenc regs s) out' (next out (storeHenc regs s))) :
    Emits s out' (andThen r next) := by
  obtain ⟨regs, rfl⟩ := h
  obtain ⟨regs', hr⟩ := hnext regs
  exact ⟨regs', hr⟩

end

section
variable {s : State} (hs : s.flt = .noFault)
include hs

theorem runIenc_emits {value n tag : Nat} (hop : (Instr.ienc value n tag).wellFormed = true) :
    Emits s (intBytes value n tag) (runIenc value n tag s) := by
  obtain ⟨out, hout⟩ := ienc_legal (ienc_operands_legal hop)
  rw [runIenc, intBytes, hout, command_ok hs]
  exact .nothing s out

theorem runStrenc_emits (str : Bytes) : Emits s (strBytes str) (runStrenc params str s) := by
  have hhenc : Emits s (hencDef params str) (runHenc params str s) :=
    ⟨hencProc params str, by rw [runHenc, command_ok hs, hencProc_out codesFit_params]⟩
  refine hhenc.andThen fun regs => ?_
  unfold strBytes
  split
  · exact (runIenc_emits (s := storeHenc regs s) hs rfl).andThen fun _ => .nothing _ _
  · exact (runIenc_emits (s := storeHenc regs s) hs rfl).andThen fun _ => .nothing _ _

theorem runEncLiteral_emits {index n tag : Nat} (hop : (Instr.ienc index n tag).wellFormed = true) (name value : Bytes) :
    Emits s (literalBytes index n tag name value) (runEncLiteral params index n tag name value s) := by
  have hname : Emits s (intBytes index n tag ++ if index = 0 then strBytes name else [])
      (runEncName params index n tag name s) := by
    refine (runIenc_emits hs hop).andThen fun regs => ?_
    split
    · exact (runStrenc_emits (s := storeHenc regs s) hs name).andThen fun _ => .nothing _ _
    · rw [List.append_nil]
      exact .nothing _ _
  exact hname.andThen fun regs => (runStrenc_emits (s := storeHenc regs s) hs value).andThen fun _ => .nothing _ _

end

/-- Settles O47: HENC emits its definition (`hencProc_out`), and the length integer's operands are legal
(`runStrenc_emits`). -/
theorem strencPicksTheShorterForm : Obligations.StrencPicksTheShorterForm := by
  intro str s hs
  obtain ⟨regs, hrun⟩ := runStrenc_emits hs str
  rw [serve, hrun]
  exact ⟨_, rfl, rfl, ⟨⟨rfl, rfl, rfl⟩, rfl, rfl⟩, rfl, rfl, rfl, rfl⟩

/-! ### HFENC's cases (R200) -/

/-- The pair is sent as a literal that is not indexed: it is sensitive, or larger than three quarters of the budget. -/
abbrev SendsPlain (h : Header) (s : State) : Prop :=
  h.sensitive = true ∨ 3 * s.ddMax < 4 * (32 + h.name.length + h.value.length)

/-- How HFENC ends, case by case. -/
inductive HfencEnds (h : Header) (s : State) : Run Bytes → Prop
  | plain (regs : HeRegs) : SendsPlain h s →
      HfencEnds h s (storeHenc regs s,
        .ok (literalBytes (findName params s.ddEnt h.name) 4 (neverTag h.sensitive) h.name h.value))
  /-- The pair is in a table. -/
  | indexed (regs : HeRegs) : ¬ SendsPlain h s →
      find params s.ddEnt h.name h.value ≠ 0 →
      HfencEnds h s (storeHenc regs s, .ok (intBytes (find params s.ddEnt h.name h.value) 7 0x80))
  /-- The pair is in no table: a literal, and the pair inserted. -/
  | incremental (regs : HeRegs) : ¬ SendsPlain h s →
      find params s.ddEnt h.name h.value = 0 →
      HfencEnds h s (insertion ⟨h.name, h.value⟩ (storeHenc regs s),
        .ok (literalBytes (findName params s.ddEnt h.name) 6 0x40 h.name h.value))

theorem ienc_neverTag_wellFormed (index : Nat) (never : Bool) :
    (Instr.ienc index 4 (neverTag never)).wellFormed = true := by
  cases never <;> rfl

theorem runHfenc_ends {s : State} (hs : s.flt = .noFault) (h : Header) : HfencEnds h s (runHfenc params h s) := by
  unfold runHfenc
  split
  case isTrue hplain =>
    rw [runDfindn, command_ok hs, andThen_ok]
    obtain ⟨regs, hrun⟩ := runEncLiteral_emits hs (ienc_neverTag_wellFormed _ h.sensitive) h.name h.value
    rw [hrun]
    exact .plain regs hplain
  case isFalse hplain =>
    rw [runDfind, command_ok hs, andThen_ok]
    split
    case isTrue hfind =>
      obtain ⟨regs, hrun⟩ := runIenc_emits (n := 7) (tag := 0x80) hs rfl
      rw [hrun]
      exact .indexed regs hplain hfind
    case isFalse hfind =>
      rw [runDfindn, command_ok hs, andThen_ok]
      obtain ⟨regs, hrun⟩ := runEncLiteral_emits (n := 6) (tag := 0x40) hs rfl h.name h.value
      rw [hrun, andThen_ok, runInsert_ready (s := storeHenc regs s) hs, andThen_ok]
      exact .incremental regs hplain (not_not.1 hfind)

/-- Settles O49: the cases of `runHfenc_ends`; the insertion is DPUSH's `insertEntry` and DSHRINK's `shrink`. -/
theorem encoderPolicy : Obligations.EncoderPolicy := by
  intro h s hs
  have hend := runHfenc_ends hs h
  rw [serve]
  generalize runHfenc params h s = r at hend ⊢
  cases hend with
  | plain regs hplain =>
    refine ⟨_, rfl, ⟨rfl, rfl⟩, ⟨rfl, rfl, rfl, rfl⟩, ?_⟩
    rw [if_pos hplain]
    exact ⟨rfl, rfl, rfl, rfl⟩
  | indexed regs hplain hfind =>
    refine ⟨_, rfl, ⟨rfl, rfl⟩, ⟨rfl, rfl, rfl, rfl⟩, ?_⟩
    rw [if_neg hplain, if_pos hfind]
    exact ⟨rfl, rfl, rfl, rfl⟩
  | incremental regs hplain hfind =>
    have hpushed : (latch (.ok .unit) (insertEntry ⟨h.name, h.value⟩ s)).flt = .noFault := hs
    refine ⟨_, rfl, ⟨rfl, rfl⟩, ⟨rfl, rfl, rfl, rfl⟩, ?_⟩
    rw [if_neg hplain, if_neg (not_not.2 hfind)]
    exact ⟨rfl, _, _, exec_dpush_ready hs h.name h.value, exec_dshrink_ready hpushed s.ddMax, rfl, rfl, rfl⟩

/-! ### What encoding keeps -/

/-- What HFENC and ENCODE leave as it was, and the invariants they keep (R201, R202). -/
structure EncodingKeeps (s t : State) : Prop where
  fault : SameFault s t
  max : t.ddMax = s.ddMax
  host : SameHost s t
  budget : SumHolds s ∧ BudgetHolds s → SumHolds t ∧ BudgetHolds t

theorem EncodingKeeps.refl (s : State) : EncodingKeeps s s := ⟨⟨rfl, rfl⟩, rfl, ⟨rfl, rfl, rfl, rfl⟩, id⟩

theorem EncodingKeeps.trans {s t u : State} (h : EncodingKeeps s t) (h' : EncodingKeeps t u) : EncodingKeeps s u where
  fault := ⟨h'.fault.1.trans h.fault.1, h'.fault.2.trans h.fault.2⟩
  max := h'.max.trans h.max
  host := by
    obtain ⟨hbuf, hphase, hdel, hport⟩ := h.host
    obtain ⟨hbuf', hphase', hdel', hport'⟩ := h'.host
    exact ⟨hbuf'.trans hbuf, hphase'.trans hphase, hdel'.trans hdel, hport'.trans hport⟩
  budget := h'.budget ∘ h.budget

theorem runHfenc_completes {s : State} (hs : s.flt = .noFault) (h : Header) :
    ∃ t out, runHfenc params h s = (t, .ok out) ∧ EncodingKeeps s t := by
  have hend := runHfenc_ends hs h
  generalize runHfenc params h s = r at hend ⊢
  cases hend with
  | plain regs | indexed regs => exact ⟨_, _, rfl, ⟨rfl, rfl⟩, rfl, ⟨rfl, rfl, rfl, rfl⟩, id⟩
  | incremental regs =>
    refine ⟨_, _, rfl, ⟨rfl, rfl⟩, rfl, ⟨rfl, rfl, rfl, rfl⟩, fun ⟨hsum, _⟩ => ?_⟩
    obtain ⟨hsum', hbudget, -⟩ := shrink_budget (s := insertEntry ⟨h.name, h.value⟩ (storeHenc regs s))
      (insertEntry_sum (s := storeHenc regs s) hsum) (Nat.le_refl s.ddMax)
    exact ⟨hsum', hbudget⟩

theorem serve_hfenc {s t : State} {h : Header} {out : Bytes} (hrun : runHfenc params h s = (t, .ok out)) :
    serve (.hfenc h) s = .next (latch (.ok (.bytes out)) t) := by
  rw [serve, hrun, respond_ok]

theorem serve_encode {s t : State} {headers : List Header} {out : Bytes}
    (hrun : runEncode params headers s = (t, .ok out)) :
    serve (.encode headers) s = .next (latch (.ok (.bytes out)) t) := by
  rw [serve, hrun, respond_ok]

theorem runEncode_completes {s : State} (hs : s.flt = .noFault) (headers : List Header) :
    ∃ t out, runEncode params headers s = (t, .ok out) ∧ EncodingKeeps s t := by
  induction headers generalizing s with
  | nil => exact ⟨s, [], rfl, .refl s⟩
  | cons h headers ih =>
    obtain ⟨u, head, hhead, hu⟩ := runHfenc_completes hs h
    obtain ⟨t, tail, htail, ht⟩ := ih (hu.fault.1.trans hs)
    exact ⟨t, head ++ tail, by rw [runEncode, hhead, andThen_ok, htail, andThen_ok], hu.trans ht⟩

/-- Settles O51: a pair's HFENC completes (`runHfenc_completes`), and the rest is encoded the same from the state whose
response is latched (`congruent_resp`). -/
theorem encodeRunsPairByPair : Obligations.EncodeRunsPairByPair := by
  intro headers s hs
  obtain ⟨t, out, hrun, hkeeps⟩ := runEncode_completes hs headers
  refine ⟨_, out, serve_encode hrun, rfl, hkeeps.fault.1.trans hs, hkeeps.max,
    hkeeps.host, ?_⟩
  cases headers with
  | nil =>
    cases hrun
    exact ⟨rfl, rfl⟩
  | cons h rest =>
    obtain ⟨u, head, hhead, hu⟩ := runHfenc_completes hs h
    obtain ⟨v, tail, htail, -⟩ := runEncode_completes (hu.fault.1.trans hs) rest
    rw [runEncode, hhead, andThen_ok, htail, andThen_ok] at hrun
    cases hrun
    obtain ⟨⟨resp, hlatch⟩, hres⟩ := congruent_resp.runEncode (p := params)
      (show ∃ r, latch (.ok (.bytes head)) u = latch r u from ⟨_, rfl⟩) rest
    rw [htail] at hlatch hres
    refine ⟨_, _, head, tail, serve_hfenc hhead, rfl, respond_next _ _, ?_, rfl,
      ?_⟩
    · rw [latch_resp, hres, response_ok]
    · rw [hlatch]
      exact ⟨⟨⟨rfl, rfl, rfl⟩, rfl, rfl⟩, rfl, rfl, rfl, rfl⟩

/-! ### The encoder laws (R202) -/

/-- An integer's bytes begin with its tag and its prefix side by side (R61). -/
theorem intBytes_head {value n tag : Nat} (hop : (Instr.ienc value n tag).wellFormed = true) :
    ∃ b tail, intBytes value n tag = b :: tail ∧ b.toNat = tag + min value (2 ^ n - 1) := by
  have hpow : 0 < 2 ^ n := Nat.two_pow_pos n
  have hbyte : ∀ pfx < 2 ^ n, (BitVec.ofNat 8 (tag + pfx)).toNat = tag + pfx := fun pfx hpfx => by
    obtain ⟨hmod, hsub⟩ := firstByte_fields hop hpfx
    have hle := Nat.mod_le (BitVec.ofNat 8 (tag + pfx)).toNat (2 ^ n)
    omega
  by_cases hbelow : value < 2 ^ n - 1
  · rw [intBytes, ienc_below hop hbelow, Nat.min_eq_left hbelow.le]
    exact ⟨_, _, rfl, hbyte value (by omega)⟩
  · obtain ⟨conts, last, hout, -⟩ := ienc_above hop (Nat.not_lt.1 hbelow)
    rw [intBytes, hout, Nat.min_eq_right (Nat.not_lt.1 hbelow)]
    exact ⟨_, _, rfl, hbyte _ (by omega)⟩

/-- `:method: GET` is row 2 of the static table (R180), whatever the dynamic entries are. -/
theorem find_method_get (ent : List Entry) :
    find params ent [0x3a#8, 0x6d#8, 0x65#8, 0x74#8, 0x68#8, 0x6f#8, 0x64#8] [0x47#8, 0x45#8, 0x54#8] = 2 := by
  rfl

/-- Settles O50, from HFENC's cases: `:method: GET` is not sent plain and is found in the static table; a sensitive pair is
sent plain; what encoding keeps is `EncodingKeeps`. -/
theorem encoderLaws : Obligations.EncoderLaws := by
  intro h s hs
  obtain ⟨t, out, hrun, hkeeps⟩ := runHfenc_completes hs h
  have hend : HfencEnds h s (t, .ok out) := hrun ▸ runHfenc_ends hs h
  refine ⟨_, out, serve_hfenc hrun, rfl, ?methodGet, ?sensitive,
    fun hsum hbudget => hkeeps.budget ⟨hsum, hbudget⟩⟩
  case methodGet =>
    rintro rfl hmax
    cases hend with
    | plain regs hplain =>
      obtain hsens | hlarge := hplain
      · cases hsens
      · have hmax' : 3 * s.ddMax < 4 * (32 + 7 + 3) := hlarge
        omega
    | indexed regs => exact ⟨by rw [find_method_get]; rfl, rfl, rfl, rfl⟩
    | incremental regs hplain hfind => rw [find_method_get] at hfind; cases hfind
  case sensitive =>
    intro hsens
    cases hend with
    | plain regs hplain =>
      obtain ⟨b, tail, hbytes, hb⟩ :=
        intBytes_head (ienc_neverTag_wellFormed (findName params s.ddEnt h.name) h.sensitive)
      rw [hsens] at hb hbytes
      rw [hsens, literalBytes, hbytes]
      have htag : neverTag true = 0x10 := rfl
      exact ⟨⟨rfl, rfl, rfl⟩, b, rfl, by omega, by omega⟩
    | indexed regs hplain | incremental regs hplain => exact absurd (.inl hsens) hplain

end Sys2Proof.Machine
end

section
/-! PROOFS. What the encoder emits is read back at any offset and whatever follows (45_host_sequences.md R192, R209): an
integer, a string, a literal, a representation; and reading goes forward. An input that holds some bytes at an offset is
written as `inp.drop pos = bytes ++ rest`. -/

namespace Sys2Proof.Machine

open Sys2Proof.Claims

section
variable {inp rest : Bytes} {pos : Nat}

theorem drop_add_length {a : Bytes} (hin : inp.drop pos = a ++ rest) : inp.drop (pos + a.length) = rest := by
  rw [← List.drop_drop, hin, List.drop_left]

theorem byte_of_drop {b : Byte} (hin : inp.drop pos = b :: rest) : inp[pos]? = some b := by
  simpa [hin] using (List.getElem?_drop (xs := inp) (i := pos) (j := 0)).symm

/-! ### Integers (R97) -/

theorem idec_of_byte {m n : Nat} {b : Byte} {r : IdRegs} (hn : 4 ≤ n ∧ n ≤ 7) (hb : inp[pos]? = some b)
    (hr : idecFrom m inp pos n (prefixOf n b) = (r, .ok ())) :
    idec m inp pos n = .ok (intResult (tagOf n b) r) := by
  have hpos : pos < inp.length := (List.getElem?_eq_some_iff.1 hb).1
  rw [idec, if_pos (idec_operands_legal hn.1 hn.2 hpos.le), hb]
  dsimp only
  rw [hr]

theorem idec_intBytes {value n tag : Nat} (hop : (Instr.ienc value n tag).wellFormed = true)
    (hvalue : value ≤ Config.intMax) (hin : inp.drop pos = intBytes value n tag ++ rest) :
    idec params.intMax inp pos n = .ok ⟨value, tag, (intBytes value n tag).length⟩ := by
  obtain ⟨hn, -, -⟩ := ienc_operands hop
  have hpow : 0 < 2 ^ n := Nat.two_pow_pos n
  by_cases hbelow : value < 2 ^ n - 1
  · obtain ⟨hpfx, htag⟩ := firstByte_fields hop (pfx := value) (by omega)
    rw [intBytes, ienc_below hop hbelow] at hin ⊢
    rw [idec_of_byte hn (byte_of_drop hin) (idecFrom_below (by rwa [prefixOf, hpfx])), tagOf, prefixOf, hpfx, htag]
    rfl
  · obtain ⟨hpfx, htag⟩ := firstByte_fields hop (pfx := 2 ^ n - 1) (by omega)
    obtain ⟨conts, last, hout, hmin⟩ := ienc_above hop (Nat.not_lt.1 hbelow)
    have hdenotes := hmin.add_tailValue (Nat.not_lt.1 hbelow)
    rw [intBytes, hout] at hin ⊢
    have hdrop : inp.drop (pos + 1) = conts ++ last :: rest := by
      rw [← List.drop_drop, hin]
      simp
    have hval : ((idecFirst pos (2 ^ n - 1)).after (conts ++ [last])).val ≤ params.intMax := by
      rw [idecFirst_after_val, hdenotes]
      exact hvalue
    have hloop := idecLoop_tail hmin.continues rest hmin.stops hval
    have hfrom : idecFrom params.intMax inp pos n (2 ^ n - 1) =
        ((idecFirst pos (2 ^ n - 1)).after (conts ++ [last]), .ok ()) := by
      rw [idecFrom, maxPrefix, if_neg (Nat.lt_irrefl _), hdrop, hloop]
    rw [idec_of_byte hn (byte_of_drop hin) (by rw [prefixOf, hpfx, hfrom]), tagOf, prefixOf, hpfx, htag, intResult,
      idecFirst_after_val, hdenotes]
    simp [IdRegs.after, idecFirst]

/-- A larger value takes at least as many bytes, whatever the tags (R93). -/
theorem intBytes_length_mono {v w n tag tag' : Nat} (hop : (Instr.ienc v n tag).wellFormed = true)
    (hop' : (Instr.ienc w n tag').wellFormed = true) (hvw : v ≤ w) :
    (intBytes v n tag).length ≤ (intBytes w n tag').length := by
  by_cases hv : v < 2 ^ n - 1
  · obtain ⟨b, tail, hbytes, -⟩ := intBytes_head hop'
    rw [intBytes, ienc_below hop hv, hbytes]
    exact Nat.le_add_left 1 _
  · obtain ⟨conts, last, hout, hmin⟩ := ienc_above hop (Nat.not_lt.1 hv)
    obtain ⟨conts', last', hout', hmin'⟩ := ienc_above hop' ((Nat.not_lt.1 hv).trans hvw)
    have hle : conts.length ≤ conts'.length := by
      by_contra hlt
      have hne : conts ≠ [] := fun h => by simp [h] at hlt
      have hpow : 128 ^ (conts'.length + 1) ≤ 128 ^ conts.length := Nat.pow_le_pow_right (by decide) (by omega)
      have hlow := hmin.le_value hne
      have hhigh := hmin'.value_lt
      omega
    rw [intBytes, intBytes, hout, hout']
    simpa using hle

/-! ### Strings (R192) -/

theorem bodyAt_of_drop {start : Nat} {body : Bytes} (hin : inp.drop start = body ++ rest) (huff : Bool) :
    bodyAt inp start body.length huff =
      if huff then (hdecDef params body).bind fun out => .ok (out, start + body.length)
      else .ok (body, start + body.length) := by
  have hlen : inp.length - start = body.length + rest.length := by rw [← List.length_drop, hin, List.length_append]
  rw [bodyAt, if_neg (by omega), hin, List.take_left]

theorem hdecDef_hencDef (str : Bytes) : hdecDef params (hencDef params str) = .ok str :=
  hdecDef_hencBits codeTables_params (stops_ones _) (bitStream_hencDef params str)

theorem strAt_strBytes {str : Bytes} (hstr : str.length ≤ Config.intMax) (hin : inp.drop pos = strBytes str ++ rest) :
    strAt inp pos = .ok (str, pos + (strBytes str).length) := by
  rw [strAt_eq_bind]
  unfold strBytes at hin ⊢
  split at hin
  case isTrue hshort =>
    rw [List.append_assoc] at hin
    have hflag : huffFlag 0x80 = true := rfl
    rw [if_pos hshort, idec_intBytes rfl (hshort.le.trans hstr) hin, Except.bind]
    dsimp only
    rw [bodyAt_of_drop (drop_add_length hin), if_pos hflag, hdecDef_hencDef, Except.bind, List.length_append,
      Nat.add_assoc]
  case isFalse hlong =>
    rw [List.append_assoc] at hin
    have hflag : ¬ huffFlag 0x00 = true := Bool.false_ne_true
    rw [if_neg hlong, idec_intBytes rfl hstr hin, Except.bind]
    dsimp only
    rw [bodyAt_of_drop (drop_add_length hin), if_neg hflag, List.length_append, Nat.add_assoc]

theorem strBytes_length_le (str : Bytes) : (strBytes str).length ≤ str.length + (intBytes str.length 7 0).length := by
  unfold strBytes
  split
  case isTrue hshort =>
    have hprefix := intBytes_length_mono (v := (hencDef params str).length) (w := str.length) (n := 7) (tag := 0x80)
      (tag' := 0) rfl rfl hshort.le
    rw [List.length_append]
    omega
  case isFalse hlong => rw [List.length_append, Nat.add_comm]

theorem strBytes_head (str : Bytes) : ∃ b tail, strBytes str = b :: tail := by
  unfold strBytes
  split
  · obtain ⟨b, tail, hbytes, -⟩ := intBytes_head (value := (hencDef params str).length) (n := 7) (tag := 0x80) rfl
    exact ⟨b, _, by rw [hbytes, List.cons_append]⟩
  · obtain ⟨b, tail, hbytes, -⟩ := intBytes_head (value := str.length) (n := 7) (tag := 0) rfl
    exact ⟨b, _, by rw [hbytes, List.cons_append]⟩

/-! ### Literals (R208) -/

theorem literalAt_literalBytes {ent : List Entry} {index n tag : Nat} {name value : Bytes}
    (hop : (Instr.ienc index n tag).wellFormed = true) (hindex : index ≤ Config.intMax)
    (hentry : index ≠ 0 → ∃ v, dictRead params ent index = .ok ⟨name, v⟩)
    (hname : name.length ≤ Config.intMax) (hvalue : value.length ≤ Config.intMax)
    (hin : inp.drop pos = literalBytes index n tag name value ++ rest) :
    literalAt ent inp pos n = .ok (name, value, pos + (literalBytes index n tag name value).length) := by
  rw [literalBytes, List.append_assoc, List.append_assoc] at hin
  have hnameAt : nameAt ent inp (pos + (intBytes index n tag).length) index =
      .ok (name, pos + (intBytes index n tag).length + (if index = 0 then strBytes name else []).length) := by
    rw [nameAt_eq_bind]
    split
    case isTrue hzero => exact strAt_strBytes hname (by rw [drop_add_length hin, if_pos hzero])
    case isFalse hne =>
      obtain ⟨v, hread⟩ := hentry hne
      rw [hread]
      rfl
  rw [literalAt_eq_bind, idec_intBytes hop hindex hin, Except.bind, hnameAt, Except.bind,
    strAt_strBytes hvalue (drop_add_length (drop_add_length hin)), Except.bind, literalBytes, List.length_append,
    List.length_append, Nat.add_assoc, Nat.add_assoc, Nat.add_assoc]

end

/-- A wire request that brings its input executes the byte at the offset. -/
theorem serve_wire {fmt : Format} {inp : Bytes} {pos : Nat} {b : Byte} {s : State} (hs : s.flt = .noFault)
    (hb : inp[pos]? = some b) :
    serve (.wire fmt (some (inp, pos))) s = exec (decodeWire fmt b) (loadInput inp pos s) :=
  fetchWire_byte (src := some (inp, pos)) hs rfl hb

/-- Settles O48: `strAt_strBytes`, which STRDEC follows (O39). -/
theorem strdecUndoesStrenc : Obligations.StrdecUndoesStrenc := by
  intro str rest s hs
  obtain ⟨regs, hrun⟩ := runStrenc_emits hs str
  refine ⟨latch (.ok (.bytes (strBytes str))) (storeHenc regs s), strBytes str, by rw [serve, hrun, respond_ok], rfl,
    strBytes_length_le str, fun hstr => ?_⟩
  obtain ⟨b, tail, hbytes⟩ := strBytes_head str
  have hb : (strBytes str ++ rest)[0]? = some b := by rw [hbytes]; rfl
  have hi : (∃ pfx, decodeWire .str b = .strHuff pfx) ∨ (∃ pfx, decodeWire .str b = .strRaw pfx) := by
    rw [decodeWire]
    split
    · exact .inl ⟨_, rfl⟩
    · exact .inr ⟨_, rfl⟩
  have hread : strAt (strBytes str ++ rest) 0 = .ok (str, (strBytes str).length) := by
    rw [strAt_strBytes (pos := 0) (rest := rest) hstr rfl, Nat.zero_add]
  obtain ⟨t, hexec, hresp, -⟩ := stringLiteralsDecode (decodeWire .str b) str (strBytes str).length
    (loadInput (strBytes str ++ rest) 0 (latch (.ok (.bytes (strBytes str))) (storeHenc regs s))) hs hi
    ⟨.str, b, encodeUndoesWireDecode .str b, hb⟩ hread
  have hready : (latch (.ok (.bytes (strBytes str))) (storeHenc regs s)).flt = .noFault := hs
  exact ⟨t, (serve_wire hready hb).trans hexec, hresp⟩

end Sys2Proof.Machine
end

section
/-! PROOFS. HFDEC (45_host_sequences.md R203, R209): it goes forward, and it undoes HFENC between equal dictionaries, at any
offset and whatever follows. -/

namespace Sys2Proof.Machine

open Sys2Proof.Claims

/-! ### Reading goes forward -/

theorem bind_eq_ok {ε α β : Type} {x : Except ε α} {f : α → Except ε β} {b : β} (h : x.bind f = .ok b) :
    ∃ a, x = .ok a ∧ f a = .ok b := by
  cases x with
  | error e => cases h
  | ok a => exact ⟨a, rfl, h⟩

theorem idecByte_count {m group : Nat} {more b : Bool} {r r' : IdRegs} (h : idecByte m more group r = (r', .ok b)) :
    r'.i = r.i + 1 := by
  rw [idecByte] at h
  split at h
  · cases h
  · cases h
    rfl

/-- Each turn of R95's loop counts the one byte it takes. -/
theorem idecLoop_count {m : Nat} {l : Bytes} {r r' : IdRegs} (h : idecLoop m l r = (r', .ok ())) :
    r'.i ≤ r.i + l.length := by
  induction l generalizing r with
  | nil => cases h
  | cons c l ih =>
    rw [idecLoop] at h
    rw [List.length_cons]
    split at h
    case h_1 next hturn =>
      have hone := idecByte_count hturn
      have hrest := ih h
      omega
    case h_2 hturn =>
      cases h
      have hone := idecByte_count hturn
      omega
    case h_3 => cases h

section
variable {inp : Bytes} {pos newpos : Nat}

theorem idec_forward {m n : Nat} {r : IntResult} (h : idec m inp pos n = .ok r) :
    0 < r.consumed ∧ pos + r.consumed ≤ inp.length := by
  unfold idec at h
  split at h
  case isFalse => cases h
  case isTrue =>
    cases hb : inp[pos]? with
    | none => rw [hb] at h; cases h
    | some b =>
      have hpos : pos < inp.length := (List.getElem?_eq_some_iff.1 hb).1
      rw [hb] at h
      dsimp only at h
      split at h
      case h_2 => cases h
      case h_1 regs _ hfrom =>
        cases h
        refine ⟨Nat.succ_pos _, ?_⟩
        unfold idecFrom at hfrom
        split at hfrom
        · cases hfrom
          exact hpos
        · have hcount := idecLoop_count hfrom
          rw [List.length_drop] at hcount
          simp only [idecFirst] at hcount
          simp only [intResult]
          omega

theorem strAt_forward {str : Bytes} (h : strAt inp pos = .ok (str, newpos)) : pos < newpos ∧ newpos ≤ inp.length := by
  rw [strAt_eq_bind] at h
  obtain ⟨r, hr, hbody⟩ := bind_eq_ok h
  obtain ⟨hconsumed, hend⟩ := idec_forward hr
  unfold bodyAt at hbody
  split at hbody
  · cases hbody
  · split at hbody
    · obtain ⟨out, -, hout⟩ := bind_eq_ok hbody
      cases hout
      omega
    · cases hbody
      omega

theorem literalAt_forward {ent : List Entry} {n : Nat} {name value : Bytes}
    (h : literalAt ent inp pos n = .ok (name, value, newpos)) : pos < newpos ∧ newpos ≤ inp.length := by
  rw [literalAt_eq_bind] at h
  obtain ⟨r, hr, hrest⟩ := bind_eq_ok h
  obtain ⟨⟨name', mid⟩, hname, hrest⟩ := bind_eq_ok hrest
  obtain ⟨⟨value', last⟩, hvalue, hresult⟩ := bind_eq_ok hrest
  cases hresult
  obtain ⟨hconsumed, -⟩ := idec_forward hr
  obtain ⟨hlast, hend⟩ := strAt_forward hvalue
  have hmid : pos + r.consumed ≤ mid := by
    rw [nameAt_eq_bind] at hname
    split at hname
    · exact (strAt_forward hname).1.le
    · obtain ⟨e, -, he⟩ := bind_eq_ok hname
      cases he
      exact Nat.le_refl _
  exact ⟨by dsimp only at hlast; omega, hend⟩

theorem repAt_forward {ent : List Entry} {rep : Rep} {field : Option Field}
    (h : repAt ent inp pos rep = .ok (field, newpos)) : pos < newpos ∧ newpos ≤ inp.length := by
  cases rep with
  | indexed =>
    obtain ⟨r, hr, hread⟩ := bind_eq_ok h
    obtain ⟨e, -, he⟩ := bind_eq_ok hread
    cases he
    have hfwd := idec_forward hr
    omega
  | sizeUpd =>
    obtain ⟨r, hr, hsize⟩ := bind_eq_ok h
    have hfwd := idec_forward hr
    split at hsize
    · cases hsize
    · cases hsize
      omega
  | litInc | litNever | litNoIdx =>
    obtain ⟨⟨name, value, last⟩, hl, hfield⟩ := bind_eq_ok h
    cases hfield
    exact literalAt_forward hl

end

/-! ### HFDEC at the port -/

theorem serve_rep {inp : Bytes} {pos : Nat} {rep : Rep} {s : State} (hs : s.flt = .noFault)
    (hb : inp[pos]? = some rep.toByte) :
    serve (.wire .rep (some (inp, pos))) s = respondRep (runRep params rep inp pos (loadInput inp pos s)) := by
  rw [serve_wire hs hb, decodeWire, decodeRep_toByte, exec_rep]
  rfl

theorem serve_rep_ok {inp : Bytes} {pos : Nat} {rep : Rep} {s t : State} {x : Option Field × Nat}
    (hs : s.flt = .noFault) (hb : inp[pos]? = some rep.toByte)
    (hrun : runRep params rep inp pos (loadInput inp pos s) = (t, .ok x)) :
    serve (.wire .rep (some (inp, pos))) s = .next (latch (.ok (.rep x.1 x.2)) (moveCursor x.2 t)) := by
  rw [serve_rep hs hb, hrun]
  rfl

theorem serve_rep_fault {inp : Bytes} {pos : Nat} {rep : Rep} {s t : State} {e : FaultRec}
    (hs : s.flt = .noFault) (hb : inp[pos]? = some rep.toByte)
    (hrun : runRep params rep inp pos (loadInput inp pos s) = (t, .error e)) :
    serve (.wire .rep (some (inp, pos))) s = .next (latch (.fault e) t) := by
  rw [serve_rep hs hb, hrun]
  rfl

theorem serve_rep_missing {inp : Bytes} {pos : Nat} {s : State} (hs : s.flt = .noFault) (hb : inp[pos]? = none) :
    serve (.wire .rep (some (inp, pos))) s = .fault .pastEndOfInput :=
  fetchWire_missing (fmt := .rep) (src := some (inp, pos)) hs rfl hb

/-- HFDEC that answers a field read it where `repAt` says (R203). -/
theorem repAt_of_serve_rep {inp : Bytes} {pos newpos : Nat} {field : Option Field} {s t : State} (hs : s.flt = .noFault)
    (h : serve (.wire .rep (some (inp, pos))) s = .next t) (hresp : t.resp = .ok (.rep field newpos)) :
    ∃ rep, repAt s.ddEnt inp pos rep = .ok (field, newpos) := by
  cases hb : inp[pos]? with
  | none =>
    rw [serve_rep_missing hs hb] at h
    cases h
  | some b =>
    have hbyte : inp[pos]? = some (decodeRep b).toByte := by rw [hb, toByte_decodeRep]
    have hend := runRep_ends (s := loadInput inp pos s) hs (decodeRep b) hbyte
    refine ⟨decodeRep b, ?_⟩
    cases hx : repAt s.ddEnt inp pos (decodeRep b) with
    | error e =>
      obtain ⟨u, hrun, -⟩ := hend.of_error hx
      rw [serve_rep_fault hs hbyte hrun] at h
      cases h
      cases hresp
    | ok x =>
      obtain ⟨u, hrun, -⟩ := hend.of_ok hx
      rw [serve_rep_ok hs hbyte hrun] at h
      cases h
      cases hresp
      rfl

/-! ### HFDEC undoes HFENC -/

theorem index_le_of_dictRead {ent : List Entry} {i : Nat} {e : Entry} (h : dictRead params ent i = .ok e) :
    i ≤ 61 + ent.length := by
  have hlen : staticRom.length = 61 := staticRom_length
  obtain ⟨-, hstatic⟩ | ⟨-, hdynamic⟩ := dictRead_eq_ok.1 h
  · have hlt := (List.getElem?_eq_some_iff.1 hstatic).1
    omega
  · have hlt := (List.getElem?_eq_some_iff.1 hdynamic).1
    omega

theorem findName_le (ent : List Entry) (name : Bytes) : findName params ent name ≤ 61 + ent.length := by
  by_cases hi : findName params ent name = 0
  · omega
  · obtain ⟨v, hread⟩ := dictRead_findName hi
    exact index_le_of_dictRead hread

section
variable {inp rest : Bytes} {pos : Nat} {h : Header} {enc enc' : State} {out : Bytes}

theorem byte_of_literalBytes {index n tag : Nat} {name value : Bytes}
    (hop : (Instr.ienc index n tag).wellFormed = true)
    (hin : inp.drop pos = literalBytes index n tag name value ++ rest) :
    ∃ b, inp[pos]? = some b ∧ b.toNat = tag + min index (2 ^ n - 1) := by
  obtain ⟨b, tail, hbytes, hval⟩ := intBytes_head hop
  rw [literalBytes, hbytes] at hin
  exact ⟨b, byte_of_drop hin, hval⟩

theorem decodeRep_plain {b : Byte} (never : Bool) (hlow : neverTag never ≤ b.toNat)
    (hhigh : b.toNat ≤ neverTag never + 15) : ∃ p, decodeRep b = plainRep never p := by
  obtain ⟨-, -, -, hnever, hnoIdx⟩ := firstByteRangesOfRepresentations b
  cases never with
  | true => exact hnever.1 ⟨hlow, hhigh⟩
  | false => exact hnoIdx.1 hhigh

/-- What HFENC emits is one representation, which delivers the header; and from a dictionary equal to the encoder's, HFDEC
leaves one equal to the encoder's new one. -/
theorem hfencEnds_reads_back (hend : HfencEnds h enc (enc', .ok out)) (hfits : HeaderFits h)
    (hbound : 61 + enc.ddEnt.length ≤ Config.intMax) (hin : inp.drop pos = out ++ rest) :
    ∃ rep : Rep, inp[pos]? = some rep.toByte ∧
      repAt enc.ddEnt inp pos rep = .ok (some ⟨h.name, h.value, h.sensitive⟩, pos + out.length) ∧
      ∀ dec dec', SameDict enc dec →
        RepDone inp pos dec rep (some ⟨h.name, h.value, h.sensitive⟩, pos + out.length) dec' → SameDict enc' dec' := by
  obtain ⟨hname, hvalue⟩ := hfits
  have hindex := (findName_le enc.ddEnt h.name).trans hbound
  cases hend with
  | plain regs hplain =>
    have hop := ienc_neverTag_wellFormed (findName params enc.ddEnt h.name) h.sensitive
    have hl := literalAt_literalBytes hop hindex dictRead_findName hname hvalue hin
    obtain ⟨b, hb, hval⟩ := byte_of_literalBytes hop hin
    obtain ⟨p, hp⟩ := decodeRep_plain (b := b) h.sensitive (by omega) (by omega)
    rw [← toByte_decodeRep b] at hb
    refine ⟨decodeRep b, hb, ?_⟩
    rw [hp, repAt_plainRep, hl]
    exact ⟨rfl, fun _ _ hdict hdone => SameDict.trans hdict (repDone_plainRep.1 hdone).sameArch.1⟩
  | indexed regs hplain hfind =>
    have hsens : h.sensitive = false := Bool.eq_false_of_not_eq_true fun hs => hplain (.inl hs)
    have hread := dictRead_find hfind
    have hidec := idec_intBytes (n := 7) (tag := 0x80) rfl ((index_le_of_dictRead hread).trans hbound) hin
    obtain ⟨b, tail, hbytes, hval⟩ :=
      intBytes_head (value := find params enc.ddEnt h.name h.value) (n := 7) (tag := 0x80) rfl
    have hb : inp[pos]? = some (decodeRep b).toByte := by
      rw [toByte_decodeRep]
      exact byte_of_drop (by rwa [hbytes] at hin)
    obtain ⟨hindexed, -⟩ := firstByteRangesOfRepresentations b
    obtain ⟨p, hp⟩ := hindexed.1 (by omega)
    refine ⟨decodeRep b, hb, ?_⟩
    rw [hp, repAt, hidec, Except.bind, hread, hsens]
    exact ⟨rfl, fun _ _ hdict hread => SameDict.trans hdict (ReadInts.hasRead hread).sameArch.1⟩
  | incremental regs hplain hfind =>
    have hsens : h.sensitive = false := Bool.eq_false_of_not_eq_true fun hs => hplain (.inl hs)
    have hl := literalAt_literalBytes (n := 6) (tag := 0x40) rfl hindex dictRead_findName hname hvalue hin
    obtain ⟨b, hb, hval⟩ := byte_of_literalBytes (n := 6) (tag := 0x40) rfl hin
    obtain ⟨-, hlitInc, -⟩ := firstByteRangesOfRepresentations b
    obtain ⟨p, hp⟩ := hlitInc.1 (by omega)
    rw [← toByte_decodeRep b] at hb
    refine ⟨decodeRep b, hb, ?_⟩
    rw [hp, repAt, hl, hsens]
    refine ⟨rfl, ?_⟩
    rintro dec _ hdict ⟨u, f, hread, ⟨⟩, rfl⟩
    exact insertion_sameDict (s := storeHenc regs enc) (SameDict.trans hdict hread.sameArch.1)

/-- HFENC on one side and HFDEC, on a side with an equal dictionary, of the bytes wherever they stand (R209). -/
theorem hfdec_undoes_hfenc {dec : State} (henc : enc.flt = .noFault) (hdec : dec.flt = .noFault)
    (hdict : SameDict enc dec) (hfits : HeaderFits h) (hbound : 61 + enc.ddEnt.length ≤ Config.intMax)
    (hrun : runHfenc params h enc = (enc', .ok out)) (hin : inp.drop pos = out ++ rest) :
    0 < out.length ∧ ∃ (rep : Rep) (dec' : State), inp[pos]? = some rep.toByte ∧
      runRep params rep inp pos dec = (dec', .ok (some ⟨h.name, h.value, h.sensitive⟩, pos + out.length)) ∧
      SameDict enc' dec' := by
  have hend : HfencEnds h enc (enc', .ok out) := hrun ▸ runHfenc_ends henc h
  obtain ⟨rep, hb, hread, hdone⟩ := hfencEnds_reads_back hend hfits hbound hin
  rw [← hdict.1] at hread
  obtain ⟨dec', hrep, hleft⟩ := (runRep_ends hdec rep hb).of_ok hread
  have hforward := (repAt_forward hread).1
  exact ⟨by omega, rep, dec', hb, hrep, hdone dec dec' hdict hleft⟩

end

/-- Settles O54: `repAt_forward`, and `hfdec_undoes_hfenc` at offset 0. -/
theorem hfdecUndoesHfenc : Obligations.HfdecUndoesHfenc := by
  refine ⟨fun inp pos s t field newpos hs hserve hresp => ?forward,
    fun h rest enc dec henc hdec hdict hfits hbound => ?undo⟩
  case forward =>
    obtain ⟨rep, hrep⟩ := repAt_of_serve_rep hs hserve hresp
    exact repAt_forward hrep
  case undo =>
    obtain ⟨enc', out, hrun, -⟩ := runHfenc_completes henc h
    obtain ⟨hpos, rep, dec', hb, hrep, hdict'⟩ := hfdec_undoes_hfenc (inp := out ++ rest) (pos := 0)
      (dec := loadInput (out ++ rest) 0 dec) henc hdec hdict hfits hbound hrun rfl
    rw [Nat.zero_add] at hrep
    exact ⟨_, _, out, serve_hfenc hrun, rfl, hpos, serve_rep_ok hdec hb hrep, rfl, hdict'⟩

end Sys2Proof.Machine
end

section
/-! PROOFS. The host's decoder (45_host_sequences.md R210 to R213): FEED and EOF on its buffer, DRAIN as HFDEC run
representation by representation, and its phases. -/

namespace Sys2Proof.Machine

open Sys2Proof.Claims

/-! ### FEED and EOF -/

section
variable {s : State} (hs : s.flt = .noFault)
include hs

theorem serve_feed (bs : Bytes) :
    serve (.feed bs) s =
      .next (latch (.ok .unit)
        (setRx (s.rxBuf ++ bs) (if s.rxBuf ++ bs = [] then s.rxState else .feeding) s)) := by
  rw [serve, runFeed, command_ok hs]
  rfl

theorem serve_feed_nonempty {bs : Bytes} (hbuf : s.rxBuf ++ bs ≠ []) :
    serve (.feed bs) s = .next (latch (.ok .unit) (setRx (s.rxBuf ++ bs) .feeding s)) := by
  rw [serve_feed hs, if_neg hbuf]

theorem serve_feed_nothing (hbuf : s.rxBuf = []) : serve (.feed []) s = .next (latch (.ok .unit) s) := by
  rw [serve_feed hs, List.append_nil, if_pos hbuf]
  rfl

theorem serve_feed_chunks {as bs : Bytes} {u t : State} (hu : serve (.feed as) s = .next u)
    (ht : serve (.feed bs) u = .next t) : serve (.feed (as ++ bs)) s = .next t := by
  rw [serve_feed hs] at hu
  cases hu
  have hready : (latch (.ok .unit)
      (setRx (s.rxBuf ++ as) (if s.rxBuf ++ as = [] then s.rxState else .feeding) s)).flt = .noFault := hs
  rw [serve_feed hready] at ht
  cases ht
  rw [serve_feed hs, ← List.append_assoc]
  have hphase : (if s.rxBuf ++ as ++ bs = [] then s.rxState else .feeding) =
      if s.rxBuf ++ as ++ bs = [] then if s.rxBuf ++ as = [] then s.rxState else .feeding else .feeding := by
    by_cases hall : s.rxBuf ++ as ++ bs = []
    · rw [if_pos hall, if_pos hall, if_pos (List.append_eq_nil_iff.1 hall).1]
    · rw [if_neg hall, if_neg hall]
  rw [hphase]
  rfl

theorem serve_eof_empty (hbuf : s.rxBuf = []) : serve .eof s = .next (latch (.ok .unit) s) := by
  have hnone : ¬ 0 < s.rxBuf.length := by simp [hbuf]
  rw [serve, runEof, if_neg hnone, command_ok hs]
  rfl

theorem serve_eof_undrained (hbuf : s.rxBuf ≠ []) :
    serve .eof s =
      .next (latch (.fault (undrained s.rxBuf.length)) (takeFault (undrained s.rxBuf.length) s)) := by
  rw [serve, runEof, if_pos (List.length_pos_iff.2 hbuf), command_error hs]
  rfl

end

/-- Settles O52: the equations of FEED and EOF, clause by clause. -/
theorem feedAppendsAndEofChecks : Obligations.FeedAppendsAndEofChecks :=
  ⟨fun _ hs => serve_feed_nothing hs, fun _ _ hs => serve_feed_nonempty hs, fun _ _ _ _ _ hs => serve_feed_chunks hs,
    fun _ hs => serve_eof_empty hs, fun _ hs => serve_eof_undrained hs⟩

/-! ### What DRAIN's loop leaves alone -/

/-- The buffer, its phase and the pending requests agree. -/
def SameRx (s t : State) : Prop := t.rxBuf = s.rxBuf ∧ t.rxState = s.rxState ∧ t.port = s.port

theorem keptByCodec_sameRx (p : Params) (s : State) : KeptByCodec p (SameRx s) where
  fault _ _ _ _ h := h
  int _ _ _ _ _ _ h := h
  henc _ _ h := h
  hdec _ _ h := h
  insert _ _ h := h
  shrink _ _ h := h
  setMax _ _ _ h := h
  cursor _ _ h := h
  latch _ _ h := h

theorem drainLoop_sameRx {p : Params} {buf : Bytes} {fuel pos : Nat} {s t : State} (h : SameRx s t) :
    Keeps (SameRx s) (drainLoop p buf fuel pos t) := by
  induction fuel generalizing pos t with
  | zero => exact h
  | succ fuel ih =>
    unfold drainLoop
    split
    · exact h
    · exact andThen_keeps ((keptByCodec_sameRx p s).runRep h) fun _ _ _ hu => ih hu

theorem drain_frame {s u : State} {res : Except FaultRec Unit}
    (hloop : drainLoop params s.rxBuf s.rxBuf.length 0 (setRx s.rxBuf .draining s) = (u, res)) :
    u.rxBuf = s.rxBuf ∧ u.rxState = .draining ∧ u.port = s.port := by
  have hframe : Keeps (SameRx (setRx s.rxBuf .draining s))
      (drainLoop params s.rxBuf s.rxBuf.length 0 (setRx s.rxBuf .draining s)) := drainLoop_sameRx ⟨rfl, rfl, rfl⟩
  rw [hloop] at hframe
  exact hframe

section
variable {s u : State} (hs : s.flt = .noFault)
include hs

theorem runDrain_ok
    (hloop : drainLoop params s.rxBuf s.rxBuf.length 0 (setRx s.rxBuf .draining s) = (u, .ok ())) :
    runDrain params s = (setRx [] .idle u, .ok ()) := by
  rw [runDrain, if_pos hs, hloop, andThen_ok]

/-- A DRAIN that faults leaves the buffer and is left draining, with the fault recorded (R211). -/
theorem runDrain_error {e : FaultRec}
    (hloop : drainLoop params s.rxBuf s.rxBuf.length 0 (setRx s.rxBuf .draining s) = (u, .error e)) :
    runDrain params s = (u, .error e) ∧ u.rxBuf = s.rxBuf ∧ u.rxState = .draining ∧ e.code ≠ .noFault ∧
      u.flt = e.code ∧ u.finfo = e.info := by
  obtain ⟨hbuf, hphase, -⟩ := drain_frame hloop
  refine ⟨by rw [runDrain, if_pos hs, hloop, andThen_error], hbuf, hphase, ?_⟩
  exact (drainLoop_precise (s := setRx s.rxBuf .draining s) hs).of_error hloop

end

/-! ### DRAIN and HFDEC step by step (R211) -/

/-- The architectural registers and what the callback received agree. -/
def SameDrain (s t : State) : Prop := SameArch s t ∧ t.delivered = s.delivered

theorem congruent_sameDrain : Congruent SameDrain where
  arch h := h.1
  fault e h := ⟨congruent_arch.fault e h.1, h.2⟩
  int _ _ _ _ h := h
  henc _ h := h
  hdec _ h := h
  insert e h := ⟨congruent_arch.insert e h.1, h.2⟩
  shrink l h := ⟨congruent_arch.shrink l h.1, h.2⟩
  setMax v h := ⟨congruent_arch.setMax v h.1, h.2⟩

section
variable {buf : Bytes} {fuel pos : Nat} {s t : State}

theorem drainLoop_end {p : Params} (h : buf[pos]? = none) : drainLoop p buf fuel pos s = (s, .ok ()) := by
  cases fuel with
  | zero => rfl
  | succ fuel => rw [drainLoop, h]

theorem drainLoop_rep {p : Params} {rep : Rep} (hb : buf[pos]? = some rep.toByte) :
    drainLoop p buf (fuel + 1) pos s =
      andThen (runRep p rep buf pos s) fun x t => drainLoop p buf fuel x.2 (dropCursor (deliver x.1 t)) := by
  rw [drainLoop, hb]
  dsimp only
  rw [decodeRep_toByte]

theorem drainBy_end (h : buf[pos]? = none) : drainBy buf fuel pos s = (s, true) := by
  cases fuel with
  | zero => rfl
  | succ fuel => rw [drainBy, if_neg (Nat.not_lt.2 (List.getElem?_eq_none_iff.1 h))]

variable {rep : Rep} (hs : s.flt = .noFault) (hb : buf[pos]? = some rep.toByte)
include hs hb

theorem drainBy_ok {x : Option Field × Nat} (hrun : runRep params rep buf pos (loadInput buf pos s) = (t, .ok x)) :
    drainBy buf (fuel + 1) pos s =
      drainBy buf fuel x.2 (deliver x.1 (latch (.ok (.rep x.1 x.2)) (moveCursor x.2 t))) := by
  rw [drainBy, if_pos (List.getElem?_eq_some_iff.1 hb).1, serve_rep_ok hs hb hrun]
  rfl

theorem drainBy_fault {e : FaultRec} (hrun : runRep params rep buf pos (loadInput buf pos s) = (t, .error e)) :
    drainBy buf (fuel + 1) pos s = (latch (.fault e) t, false) := by
  rw [drainBy, if_pos (List.getElem?_eq_some_iff.1 hb).1, serve_rep_fault hs hb hrun]
  rfl

end

/-- DRAIN's loop follows HFDEC run at the port, from states that agree on what matters to it. -/
theorem drainLoop_follows_drainBy {buf : Bytes} {fuel pos : Nat} {s s' : State} (hs : s.flt = .noFault)
    (h : SameDrain s s') :
    SameDrain (drainBy buf fuel pos s).1 (drainLoop params buf fuel pos s').1 ∧
      ((drainBy buf fuel pos s).2 = true ↔ (drainLoop params buf fuel pos s').2 = .ok ()) := by
  induction fuel generalizing pos s s' with
  | zero => exact ⟨h, by simp [drainBy, drainLoop]⟩
  | succ fuel ih =>
    cases hb : buf[pos]? with
    | none =>
      rw [drainBy_end hb, drainLoop_end hb]
      exact ⟨h, by simp⟩
    | some b =>
      rw [← toByte_decodeRep b] at hb
      rw [drainLoop_rep hb]
      obtain ⟨hstate, hresult⟩ :=
        congruent_sameDrain.runRep (p := params) (s := loadInput buf pos s) h (decodeRep b) buf pos
      generalize runRep params (decodeRep b) buf pos s' = r' at hstate hresult
      obtain ⟨t', y⟩ := r'
      cases hrun : runRep params (decodeRep b) buf pos (loadInput buf pos s) with
      | mk t x =>
      rw [hrun] at hstate hresult
      obtain rfl : y = x := hresult
      cases y with
      | error e =>
        rw [drainBy_fault hs hb hrun]
        exact ⟨hstate, by simp⟩
      | ok x =>
        have hflt : t.flt = .noFault :=
          ((runRep_precise (s := loadInput buf pos s) hs (decodeRep b) buf pos).of_ok hrun).1.trans hs
        rw [drainBy_ok hs hb hrun]
        exact ih (s := deliver x.1 (latch (.ok (.rep x.1 x.2)) (moveCursor x.2 t))) hflt
          ⟨hstate.1, congrArg (· ++ x.1.toList) hstate.2⟩

/-- Settles O53: the loop follows HFDEC at the port (`drainLoop_follows_drainBy`), and how it ends decides how DRAIN does
(`runDrain_ok`, `runDrain_error`). -/
theorem drainDecodesTheBuffer : Obligations.DrainDecodesTheBuffer := by
  intro s u hs done hby
  obtain ⟨⟨harch, hdelivered⟩, hdone⟩ := drainLoop_follows_drainBy (buf := s.rxBuf) (fuel := s.rxBuf.length) (pos := 0)
    (s' := setRx s.rxBuf .draining s) hs ⟨⟨⟨rfl, rfl, rfl⟩, rfl, rfl⟩, rfl⟩
  rw [hby] at harch hdelivered hdone
  cases hloop : drainLoop params s.rxBuf s.rxBuf.length 0 (setRx s.rxBuf .draining s) with
  | mk t res =>
  rw [hloop] at harch hdelivered hdone
  obtain ⟨-, -, hport⟩ := drain_frame hloop
  cases res with
  | ok _ =>
    have hflt := ((drainLoop_precise (s := setRx s.rxBuf .draining s) hs).of_ok hloop).1.trans hs
    obtain rfl : done = true := hdone.2 rfl
    refine ⟨latch (.ok .unit) (setRx [] .idle t), by rw [serve, runDrain_ok hs hloop]; rfl, harch, hdelivered, hport,
      fun _ => ⟨hflt, rfl, rfl, rfl⟩, nofun⟩
  | error e =>
    obtain ⟨hrun, hbuf, hphase, hcode, hflt, hinfo⟩ := runDrain_error hs hloop
    obtain rfl : done = false := by simpa using hdone
    refine ⟨latch (.fault e) t, by rw [serve, hrun]; rfl, harch, hdelivered, hport, nofun,
      fun _ => ⟨hflt.trans_ne hcode, hbuf, hphase, ?_⟩⟩
    rw [latch_resp, latch_flt, latch_finfo, hflt, hinfo]

/-! ### The phases (R213) -/

theorem keptByCodec_phaseHolds : KeptByCodec params PhaseHolds where
  fault _ _ _ he h := ⟨h.1, h.2.1, fun _ => he⟩
  int _ _ _ _ _ _ h := h
  henc _ _ h := h
  hdec _ _ h := h
  insert _ _ h := h
  shrink _ _ h := h
  setMax _ _ _ h := h
  cursor _ _ h := h
  latch _ _ h := h

/-- FEED leaves the phase as it was only where nothing is buffered. -/
theorem feed_phaseHolds {s : State} (h : PhaseHolds s) (bs : Bytes) :
    PhaseHolds (setRx (s.rxBuf ++ bs) (if s.rxBuf ++ bs = [] then s.rxState else .feeding) s) := by
  obtain ⟨hidle, hfeeding, hdraining⟩ := h
  by_cases hbuf : s.rxBuf ++ bs = []
  · have hempty : s.rxBuf = [] := (List.append_eq_nil_iff.1 hbuf).1
    rw [if_pos hbuf, hbuf]
    exact ⟨fun _ => rfl, fun hf => absurd hempty (hfeeding hf), hdraining⟩
  · rw [if_neg hbuf]
    exact ⟨nofun, fun _ => hbuf, nofun⟩

theorem drain_phaseHolds {s : State} (h : PhaseHolds s) : Keeps PhaseHolds (runDrain params s) := by
  by_cases hs : s.flt = .noFault
  · cases hloop : drainLoop params s.rxBuf s.rxBuf.length 0 (setRx s.rxBuf .draining s) with
    | mk t res =>
    cases res with
    | ok _ =>
      rw [runDrain_ok hs hloop]
      exact ⟨fun _ => rfl, nofun, nofun⟩
    | error e =>
      obtain ⟨hrun, hbuf, hphase, hcode, hflt, -⟩ := runDrain_error hs hloop
      rw [hrun]
      exact ⟨fun hi => (nomatch hphase.symm.trans hi), fun hf => (nomatch hphase.symm.trans hf),
        fun _ => hflt.trans_ne hcode⟩
  · rw [runDrain, if_neg hs]
    exact h

theorem serve_phaseHolds (r : Request) {s t : State} (hs : PhaseHolds s) (h : serve r s = .next t) : PhaseHolds t := by
  have k := keptByCodec_phaseHolds
  cases r with
  | cmd => exact fetchCmd_keeps k hs h
  | wire fmt src =>
    refine fetchWire_keeps k hs ?_ h
    cases src <;> exact hs
  | strenc => exact k.respond (k.runStrenc hs) h
  | hfenc => exact k.respond (k.runHfenc hs) h
  | encode => exact k.respond (k.runEncode hs) h
  | feed bs => exact k.respond (command_ok_keeps hs (feed_phaseHolds hs bs)) h
  | drain => exact k.respond (drain_phaseHolds hs) h
  | eof =>
    refine k.respond (command_keeps hs (fun _ => hs) fun e h0 he => k.fault _ _ h0 ?_ hs) h
    dsimp only at he
    split at he <;> cases he
    simp [undrained]
  | post e =>
    refine k.respond ?_ h
    unfold runPost
    split
    · exact hs
    · exact k.hostRaise hs ‹_›
  | reset =>
    cases h
    exact ⟨fun _ => rfl, nofun, nofun⟩

/-- Settles O58: the codec's updates keep the phases (`keptByCodec_phaseHolds`); FEED and DRAIN, which write them, end in one
that fits. -/
theorem everyStepKeepsThePhase : Obligations.EveryStepKeepsThePhase := by
  intro s t hs h
  cases hport : s.port with
  | nil =>
    rw [step_idle hport] at h
    cases h
    exact hs
  | cons r rest =>
    rw [step_serves hport] at h
    exact serve_phaseHolds r (s := { s with port := rest }) hs h

end Sys2Proof.Machine
end

section
/-! PROOFS. Whole blocks between an encoder and its mirror (45_host_sequences.md R214; 10_state.md R29): what ENCODE emits, DRAIN's
loop delivers, header by header. -/

namespace Sys2Proof.Machine

open Sys2Proof.Claims

/-- The field HFDEC delivers for a header. -/
def headerField (h : Header) : Field := ⟨h.name, h.value, h.sensitive⟩

theorem keptByCodec_delivered (p : Params) (s : State) : KeptByCodec p fun t => t.delivered = s.delivered where
  fault _ _ _ _ h := h
  int _ _ _ _ _ _ h := h
  henc _ _ h := h
  hdec _ _ h := h
  insert _ _ h := h
  shrink _ _ h := h
  setMax _ _ _ h := h
  cursor _ _ h := h
  latch _ _ h := h

/-- An encoder that keeps SUM and BUDGET, and every index it can send is within the decoder's bound (R214). -/
structure EncoderReady (enc : State) : Prop where
  flt : enc.flt = .noFault
  budget : SumHolds enc ∧ BudgetHolds enc
  bound : 61 + enc.ddMax / 32 ≤ Config.intMax

theorem EncoderReady.index_le {enc : State} (h : EncoderReady enc) : 61 + enc.ddEnt.length ≤ Config.intMax := by
  have hlen := length_le_of_budget h.budget.1 h.budget.2
  have hbound := h.bound
  omega

theorem EncoderReady.after {enc enc' : State} (h : EncoderReady enc) (hkeeps : EncodingKeeps enc enc') :
    EncoderReady enc' :=
  ⟨hkeeps.fault.1.trans h.flt, hkeeps.budget h.budget, hkeeps.max ▸ h.bound⟩

/-- DRAIN's loop undoes ENCODE, from where the block stands in the buffer to the buffer's end. -/
theorem drainLoop_undoes_encode {headers : List Header} {enc enc' dec : State} {buf out : Bytes} {fuel pos : Nat}
    (henc : EncoderReady enc) (hdec : dec.flt = .noFault) (hdict : SameDict enc dec)
    (hfits : ∀ h ∈ headers, HeaderFits h) (hrun : runEncode params headers enc = (enc', .ok out))
    (hin : buf.drop pos = out) (hfuel : out.length ≤ fuel) :
    ∃ dec', drainLoop params buf fuel pos dec = (dec', .ok ()) ∧ SameDict enc' dec' ∧
      dec'.delivered = dec.delivered ++ headers.map headerField := by
  induction headers generalizing enc dec out fuel pos with
  | nil =>
    cases hrun
    have hend : buf[pos]? = none := List.getElem?_eq_none_iff.2 (List.drop_eq_nil_iff.1 hin)
    exact ⟨dec, drainLoop_end hend, hdict, (List.append_nil _).symm⟩
  | cons h headers ih =>
    obtain ⟨hfit, hfits⟩ := List.forall_mem_cons.1 hfits
    obtain ⟨enc₁, head, hhead, hkeeps⟩ := runHfenc_completes henc.flt h
    obtain ⟨enc₂, tail, htail, -⟩ := runEncode_completes (hkeeps.fault.1.trans henc.flt) headers
    rw [runEncode, hhead, andThen_ok, htail, andThen_ok] at hrun
    cases hrun
    obtain ⟨hpos, rep, dec₁, hb, hrep, hdict₁⟩ :=
      hfdec_undoes_hfenc henc.flt hdec hdict hfit henc.index_le hhead hin
    have hflt₁ : dec₁.flt = .noFault := ((runRep_precise hdec rep buf pos).of_ok hrep).1.trans hdec
    have hdelivered₁ : Keeps (fun t => t.delivered = dec.delivered) (runRep params rep buf pos dec) :=
      (keptByCodec_delivered params dec).runRep rfl
    rw [hrep] at hdelivered₁
    rw [List.length_append] at hfuel
    obtain ⟨fuel, rfl⟩ := Nat.exists_eq_add_of_le' (show 1 ≤ fuel by omega)
    obtain ⟨dec', hloop, hdict', hdelivered'⟩ := ih (dec := dropCursor (deliver (some (headerField h)) dec₁))
      (pos := pos + head.length) (fuel := fuel) (henc.after hkeeps) hflt₁ hdict₁ hfits htail (drop_add_length hin)
      (by omega)
    refine ⟨dec', ?_, hdict', ?_⟩
    · rw [drainLoop_rep hb, hrep, andThen_ok]
      exact hloop
    · have hfirst : dec₁.delivered = dec.delivered := hdelivered₁
      rw [hdelivered', dropCursor_delivered, deliver_delivered, hfirst, List.map_cons, List.append_assoc]
      rfl

/-- One round: a block encoded, fed and drained without a fault delivers its headers, and leaves the two mirrored (R214). -/
theorem round_trip_block {headers : List Header} {enc dec : State} (hm : Mirrored enc dec)
    (hfits : ∀ h ∈ headers, HeaderFits h) :
    ∃ enc' fed dec' out, serve (.encode headers) enc = .next enc' ∧ enc'.resp = .ok (.bytes out) ∧
      serve (.feed out) dec = .next fed ∧ serve .drain fed = .next dec' ∧ dec'.resp = .ok .unit ∧
      dec'.delivered = dec.delivered ++ headers.map headerField ∧ Mirrored enc' dec' := by
  obtain ⟨henc, hdec, hdict, hsum, hbudget, hbound, hbuf, hphase⟩ := hm
  have hready : EncoderReady enc := ⟨henc, ⟨hsum, hbudget⟩, hbound⟩
  obtain ⟨enc', out, hrun, hkeeps⟩ := runEncode_completes henc headers
  obtain ⟨henc', ⟨hsum', hbudget'⟩, hbound'⟩ := hready.after hkeeps
  have hfed := serve_feed hdec out
  rw [hbuf, List.nil_append] at hfed
  generalize hfedEq : latch (.ok .unit) (setRx out (if out = [] then dec.rxState else .feeding) dec) = fed at hfed
  have hfedBuf : fed.rxBuf = out := by rw [← hfedEq]; rfl
  have hfedFlt : fed.flt = .noFault := by rw [← hfedEq]; exact hdec
  obtain ⟨dec', hloop, hdict', hdelivered⟩ := drainLoop_undoes_encode (dec := setRx fed.rxBuf .draining fed)
    (buf := fed.rxBuf) (fuel := fed.rxBuf.length) (pos := 0) hready hfedFlt (by rw [← hfedEq]; exact hdict) hfits hrun
    hfedBuf (by rw [hfedBuf])
  have hdec' : dec'.flt = .noFault :=
    ((drainLoop_precise (s := setRx fed.rxBuf .draining fed) hfedFlt).of_ok hloop).1.trans hfedFlt
  refine ⟨_, fed, latch (.ok .unit) (setRx [] .idle dec'), out, serve_encode hrun, rfl, hfed,
    by rw [serve, runDrain_ok hfedFlt hloop]; rfl, rfl, ?_, henc', hdec', hdict', hsum', hbudget', hbound', rfl, rfl⟩
  rw [← hfedEq] at hdelivered
  exact hdelivered

/-- Settles O55: block by block (`round_trip_block`). -/
theorem blocksRoundTrip : Obligations.BlocksRoundTrip := by
  refine ⟨fun hbound => ⟨rfl, rfl, ⟨rfl, rfl, rfl⟩, rfl, Nat.zero_le _, hbound, rfl, rfl⟩, fun blocks => ?_⟩
  induction blocks with
  | nil => exact fun _ _ _ _ => trivial
  | cons headers blocks ih =>
    intro enc dec hm hfits
    obtain ⟨hfit, hfits⟩ := List.forall_mem_cons.1 hfits
    obtain ⟨enc', fed, dec', out, hencode, hresp, hfeed, hdrain, hdone, hdelivered, hm'⟩ := round_trip_block hm hfit
    exact ⟨enc', fed, dec', out, hencode, hresp, hfeed, hdrain, hdone, hdelivered, hm', ih enc' dec' hm' hfits⟩

end Sys2Proof.Machine
end

section
/-! PROOFS. Faults (60_exceptions.md R232, R233, R235): every instruction ends in a result or in the fault it records, a
fault is met before any dictionary register is written, and a recorded fault is the answer to every request it refuses. -/

namespace Sys2Proof.Machine

/-! ### Refused requests -/

section
variable {s : State} (h : s.flt ≠ .noFault)
include h

theorem refused_drain {p : Params} : Refused s (runDrain p s) := if_neg h

theorem serve_cmd_refused (code : Byte) (ops : Operands) :
    serve (.cmd code ops) s = .next (latch (.fault (recorded s)) s) := by
  simp only [serve, fetchCmd]
  split
  · exact exec_refused h _
  · exact (refused_command h _).respond

theorem serve_wire_refused (fmt : Format) (src : Option (Bytes × Nat)) :
    serve (.wire fmt src) s = .next (latch (.fault (recorded s)) s) :=
  if_neg h

end

/-- Settles O7: instructions by `exec_refused`; a request by the refusal of the first thing it runs. -/
theorem everythingIsRefusedWhileFaulted : Obligations.EverythingIsRefusedWhileFaulted := by
  refine ⟨fun i s h => exec_refused h i, fun r s h hr => ?_⟩
  obtain rfl | rfl | ⟨bs, rfl⟩ | ⟨fmt, src, rfl⟩ | ⟨code, ops, rfl⟩ := hr
  · exact (refused_drain h).respond
  · exact (refused_command h _).respond
  · exact (refused_command h _).respond
  · exact serve_wire_refused h fmt src
  · exact serve_cmd_refused h code ops

/-! ### A fault posted by the host -/

theorem serve_post_ready {s : State} {e : FaultRec} (h : s.flt = .noFault) (he : e.code ≠ .noFault) :
    serve (.post e) s = .next (latch (.fault e) (takeFault e s)) := by
  rw [serve, runPost, if_neg he]
  exact respondUnit_hostRaise h e

theorem serve_post_noFault {s : State} {e : FaultRec} (he : e.code = .noFault) :
    serve (.post e) s = .next (latch (.ok .unit) s) := by
  rw [serve, runPost, if_pos he]
  rfl

/-- Settles O11: a posted fault is taken as a command's is; code 0 is not raised, and a second fault is refused. -/
theorem hostPostsAFaultOnlyOnce : Obligations.HostPostsAFaultOnlyOnce := by
  refine fun s e => ⟨serve_post_ready, ?_⟩
  rintro (hs | he)
  · obtain ⟨resp, hnext⟩ := serve_refused hs (r := .post e) nofun
    exact ⟨_, hnext, ⟨rfl, rfl, rfl⟩, rfl, rfl⟩
  · exact ⟨_, serve_post_noFault he, ⟨rfl, rfl, rfl⟩, rfl, rfl⟩

/-! ### The response fits the fault registers -/

/-- The response is the fault the registers hold, or a result with the fault registers as they were (R73, R232). -/
def Reports (s t : State) : Prop :=
  (t.flt ≠ .noFault → t.resp = .fault (recorded t)) ∧ (t.flt = .noFault → t.finfo = s.finfo ∧ ∃ r, t.resp = .ok r)

section
variable {α : Type} {p : Params} {s t : State} (hs : s.flt = .noFault)
include hs

theorem respond_reports {f : α → Result} {r : Run α} (hr : Precise s r) (h : respond f r = .next t) : Reports s t := by
  obtain ⟨u, e | a⟩ := r
  · obtain ⟨hcode, hflt, hinfo⟩ := hr.of_error rfl
    cases h
    refine ⟨fun _ => ?_, fun hu => absurd (hflt.symm.trans hu) hcode⟩
    simp [recorded, hflt, hinfo]
  · obtain ⟨hflt, hinfo⟩ := hr.of_ok rfl
    cases h
    exact ⟨fun hu => absurd (hflt.trans hs) hu, fun _ => ⟨hinfo, f a, rfl⟩⟩

theorem runIntFirst_precise (n tag pfx : Nat) : Precise s (runIntFirst n tag pfx s) := by
  unfold runIntFirst
  split <;> exact command_precise hs ⟨rfl, rfl⟩ fun _ he => by cases he

theorem runIntCont_precise (more : Bool) (group : Nat) : Precise s (runIntCont p more group s) := by
  unfold runIntCont
  split
  · exact command_precise hs ⟨rfl, rfl⟩ fun _ he => by cases he
  · exact command_precise hs ⟨rfl, rfl⟩ fun _ he => by cases he
  next hbyte => exact command_precise hs ⟨rfl, rfl⟩ fun _ he => by cases he; exact idecByte_code hbyte

theorem repAtCursor_precise (rep : Rep) :
    Precise s (andThen (runRep p rep s.inp s.pos s) fun x u => (moveCursor x.2 u, .ok x)) :=
  andThen_precise hs (runRep_precise hs _ _ _) fun _ _ _ => precise_ok ⟨rfl, rfl⟩

theorem exec_rep_reports (rep : Rep) (h : exec rep.toInstr s = .next t) : Reports s t := by
  rw [exec_rep] at h
  exact respond_reports hs (repAtCursor_precise hs rep) h

theorem exec_reports (i : Instr) (h : exec i s = .next t) : Reports s t := by
  cases i with
  | ienc => exact respond_reports hs (runIenc_precise hs _ _ _) h
  | idec => exact respond_reports hs (runIdec_precise hs _ _ _) h
  | henc => exact respond_reports hs (runHenc_precise hs _) h
  | hdec => exact respond_reports hs (runHdec_precise hs _) h
  | dfind | dfindn | dpush | dshrink =>
    exact respond_reports hs (command_precise hs ⟨rfl, rfl⟩ fun _ he => by cases he) h
  | dget => exact respond_reports hs (runDget_precise hs _) h
  | dsetmax => exact respond_reports hs (runDsetmax_precise hs _) h
  | repIndexed pfx => exact exec_rep_reports hs (.indexed pfx) h
  | repLitInc pfx => exact exec_rep_reports hs (.litInc pfx) h
  | repSizeUpd pfx => exact exec_rep_reports hs (.sizeUpd pfx) h
  | repLitNever pfx => exact exec_rep_reports hs (.litNever pfx) h
  | repLitNoIdx pfx => exact exec_rep_reports hs (.litNoIdx pfx) h
  | strHuff | strRaw => exact respond_reports hs (runStrAt_precise hs _ _) h
  | intFirstN4 | intFirstN5 | intFirstN6 | intFirstN7 => exact respond_reports hs (runIntFirst_precise hs _ _ _) h
  | intCont =>
    simp only [exec, execIntCont] at h
    split at h
    · cases h
    · exact respond_reports hs (runIntCont_precise hs _ _) h

end

/-! ### A fault comes before the first write to the dictionary -/

/-- A property of the state that holds where a run ends in a fault. -/
def FaultKeeps {α : Type} (P : State → Prop) (r : Run α) : Prop := ∀ t e, r = (t, .error e) → P t

section
variable {α β : Type} {P : State → Prop}

theorem faultKeeps_ok (t : State) (a : α) : FaultKeeps P ((t, .ok a) : Run α) := fun _ _ h => by cases h

/-- A sequence that keeps `P` up to its last command keeps it in a fault when that command does. -/
theorem andThen_faultKeeps {r : Run α} {next : α → State → Run β} (hr : Keeps P r)
    (hnext : ∀ a u, r = (u, .ok a) → P u → FaultKeeps P (next a u)) : FaultKeeps P (andThen r next) := by
  intro t e h
  obtain hfirst | ⟨a, u, hok, hlast⟩ := andThen_eq_error.1 h
  · rw [hfirst] at hr; exact hr
  · rw [hok] at hr; exact hnext a u hok hr t e hlast

/-- What only delivers a run's result with another state does not change the fault it ends in. -/
theorem FaultKeeps.andThen_ok {r : Run α} (hr : FaultKeeps P r) {f : α → State → State} {g : α → State → β} :
    FaultKeeps P (andThen r fun a u => (f a u, .ok (g a u))) := by
  intro t e h
  obtain hfirst | ⟨a, u, -, hlast⟩ := andThen_eq_error.1 h
  · exact hr t e hfirst
  · cases hlast

end

theorem keptByReads_sameDict (s : State) : KeptByReads (SameDict s) where
  fault _ _ h := h
  int _ _ _ _ _ h := h
  hdec _ _ h := h
  cursor _ _ h := h
  latch _ _ h := h

section
variable {s t : State} (hs : s.flt = .noFault)
include hs

theorem runDsetmax_faultKeeps (v : Nat) {P : State → Prop} (hP : P (takeFault (sizeUpdateRange v params.ddLimit) s)) :
    FaultKeeps P (runDsetmax params v s) := by
  unfold runDsetmax
  split
  · rw [command_error hs]
    rintro _ _ ⟨⟩
    exact hP
  · rw [command_ok hs]
    exact faultKeeps_ok _ _

theorem runRepLitInc_faultKeeps (inp : Bytes) (pos pfx : Nat) :
    FaultKeeps (SameDict s) (runRepLitInc params inp pos pfx s) := by
  refine andThen_faultKeeps ((keptByReads_sameDict s).runLiteral ⟨rfl, rfl, rfl⟩) fun l u hlit _ => ?_
  have hu : u.flt = .noFault := ((runLiteral_precise hs _ _ _ _ _).of_ok hlit).1.trans hs
  rw [runInsert_ready hu]
  exact faultKeeps_ok _ _

theorem runRepSizeUpd_faultKeeps (inp : Bytes) (pos pfx : Nat) :
    FaultKeeps (SameDict s) (runRepSizeUpd params inp pos pfx s) := by
  refine andThen_faultKeeps ((keptByReads_sameDict s).runIdecFrom ⟨rfl, rfl, rfl⟩) fun r u hint hdict => ?_
  have hu : u.flt = .noFault := ((runIdecFrom_precise hs _ _ _ _ _).of_ok hint).1.trans hs
  exact (runDsetmax_faultKeeps hu _ hdict).andThen_ok

/-- A precise run that leaves a fault recorded has ended in it. -/
theorem respond_faultKeeps {α : Type} {f : α → Result} {r : Run α} (hr : Precise s r)
    (hkeeps : FaultKeeps (SameDict s) r) (h : respond f r = .next t) (ht : t.flt ≠ .noFault) : SameDict s t := by
  obtain ⟨u, e | a⟩ := r
  · cases h
    exact hkeeps u e rfl
  · cases h
    exact absurd ((hr.of_ok rfl).1.trans hs) ht

theorem exec_rep_faultKeeps (rep : Rep) (hkeeps : FaultKeeps (SameDict s) (runRep params rep s.inp s.pos s))
    (h : exec rep.toInstr s = .next t) (ht : t.flt ≠ .noFault) : SameDict s t := by
  rw [exec_rep] at h
  exact respond_faultKeeps hs (repAtCursor_precise hs rep) hkeeps.andThen_ok h ht

/-- An instruction that takes a fault writes no dictionary register (R232): the five that write one raise none from then
on, and the others write none. -/
theorem exec_fault_sameDict (i : Instr) (h : exec i s = .next t) (ht : t.flt ≠ .noFault) : SameDict s t := by
  cases i with
  | dpush name value =>
    rw [exec_dpush_ready hs] at h
    cases h
    exact absurd hs ht
  | dshrink limit =>
    rw [exec_dshrink_ready hs] at h
    cases h
    exact absurd hs ht
  | dsetmax v => exact respond_faultKeeps hs (runDsetmax_precise hs v) (runDsetmax_faultKeeps hs v ⟨rfl, rfl, rfl⟩) h ht
  | repLitInc pfx => exact exec_rep_faultKeeps hs (.litInc pfx) (runRepLitInc_faultKeeps hs _ _ _) h ht
  | repSizeUpd pfx => exact exec_rep_faultKeeps hs (.sizeUpd pfx) (runRepSizeUpd_faultKeeps hs _ _ _) h ht
  | _ => refine exec_keeps_of_instr (keptByInstr_sameDict s ?_ ?_ ?_) ⟨rfl, rfl, rfl⟩ h <;> exact Bool.false_ne_true

end

/-- Settles O9: the response by `exec_reports`, the dictionary registers by `exec_fault_sameDict`. -/
theorem faultsArePrecise : Obligations.FaultsArePrecise := by
  intro i s t hs h
  obtain ⟨hfault, hok⟩ := exec_reports hs i h
  exact ⟨fun ht => ⟨exec_fault_sameDict hs i h ht, hfault ht⟩, hok⟩

end Sys2Proof.Machine
end
